-- ==== Sys2Proof/Word.lean ====
section
/-! DEFINITION. The memory word, the prime modulus and the canonical residue
(spec/00_scope.md R7, R10; spec/10_state.md R13, R14). -/

namespace Sys2Proof

/-- One word of `MEM`: a 64-bit unsigned integer, bit 0 least significant (R13, R26). -/
abbrev Word := BitVec 64

/-- The prime modulus `P = 2^64 − 2^32 + 1` (R7). -/
def P : Nat := 18446744069414584321

/-- "its multiplicative group has order P−1 = 2^32 · (2^32 − 1)" (R7). -/
def twoAdicity : Nat := 32

theorem P_eq : P = 2 ^ 64 - 2 ^ 32 + 1 := by decide

theorem P_pos : 0 < P := by decide

theorem P_lt_two_pow : P < 2 ^ 64 := by decide

/-- A canonical residue: an integer in `[0, P)` (R14, "BaseFieldElement"). -/
abbrev Residue := Fin P

/-- The residue 0. -/
def Residue.zero : Residue := ⟨0, by decide⟩

/-- The residue 1, `ONE_B` (R11). -/
def Residue.one : Residue := ⟨1, by decide⟩

/-- The word that holds a residue is the integer itself: no transformed representation (R14). -/
def Residue.toWord (r : Residue) : Word := BitVec.ofNat 64 r.val

/-- Reading a word as a residue: it is one exactly when its value is below `P` (R14). -/
def Residue.ofWord? (w : Word) : Option Residue :=
  if h : w.toNat < P then some ⟨w.toNat, h⟩ else none

/-- "a value in `[0, P)`": the word is a canonical residue (R14, R123). -/
abbrev Word.Canonical (w : Word) : Prop := w.toNat < P

end Sys2Proof
end

