-- ==== Sys2Proof/Config.lean ====
section
/-! DEFINITION. The parameters the spec leaves OPEN (spec/00_scope.md R8), the constraints on them,
and the free values of the model. None of the free values has a body: nothing can prove what they are. -/

namespace Sys2Proof

/-- One instance of the hardware: the constants that are "hardwired", "not state" (R16) and whose
values no source gives (R8, U9). -/
structure Config where
  /-- `H`, the generator every root of unity is derived from (R8, R69). -/
  generator : Residue
  /-- `K`, the degree of the extension field (R8, R74). -/
  degree : Nat
  /-- `M[0..K−1]`, the low coefficients of the monic `m(x)`, lowest degree first (R8, R74). -/
  poly : List Residue
  /-- `MEM_WORDS`, the number of words of `MEM` (R8, R13). -/
  memWords : Nat
  deriving DecidableEq, Repr

/-- `m(x) = x^K + M[K−1]·x^(K−1) + … + M[1]·x + M[0]` is irreducible over GF(P) (R74). -/
def Config.ModulusIrreducible (c : Config) : Prop :=
  Irreducible (Polynomial.X ^ c.degree +
    ((List.range c.degree).map fun i =>
      Polynomial.C ((c.poly.getD i Residue.zero).val : ZMod P) * Polynomial.X ^ i).sum)

/-- The constraints of R8 on the OPEN parameters. What violates them is "not an instance of this
hardware" (U8; log 13). That `H` and the `M[i]` are canonical is in their type. -/
structure Config.Admissible (c : Config) : Prop where
  /-- `H^(2^32) = 1`. -/
  generator_pow_order : (c.generator.val : ZMod P) ^ (2 ^ 32) = 1
  /-- `H^(2^31) ≠ 1`. -/
  generator_pow_half : (c.generator.val : ZMod P) ^ (2 ^ 31) ≠ 1
  /-- `K ≥ 2`. -/
  two_le_degree : 2 ≤ c.degree
  /-- `M` has `K` entries. -/
  poly_length : c.poly.length = c.degree
  /-- `m(x)` irreducible over GF(P). -/
  irreducible : c.ModulusIrreducible
  /-- `1 ≤ MEM_WORDS`. -/
  memWords_pos : 1 ≤ c.memWords
  /-- `MEM_WORDS ≤ 2^32`. -/
  memWords_le : c.memWords ≤ 2 ^ 32

/-- FREE VALUE, no body (log 1): which admissible instance the hardware is. The argument only says
that there is one at all (`Sys2Proof/Config/Exists.lean`). -/
opaque Config.chosen [Inhabited {c : Config // c.Admissible}] : {c : Config // c.Admissible}

/-- FREE VALUE, no body (log 2): the content of `MEM` after the reset that starts the run, as one
number whose 64-bit digit number `a` is the word at address `a`: "any 64-bit value in every word" (R23). -/
opaque Config.powerOnImage : Nat

end Sys2Proof
end

