-- ==== Sys2Proof/Config/Exists.lean ====
section
/-! DEFINITION. That the constraints of R8 can be met at all, so that the hardware instance can be an
opaque admissible one: `P` is prime, and the second instantiation of spec/95_test_vectors.md section
2.5 (`K = 2`, `m(x) = x^2 − 7`) with the generator `7^(2^32−1)` of spec/00_scope.md R9 is admissible.
Which instance the hardware is stays opaque: none of these numbers reaches the model. -/

namespace Sys2Proof

/-- The primes that divide `P − 1 = 2^32 · 3 · 5 · 17 · 257 · 65537`. -/
theorem prime_dvd_P_sub_one {q : Nat} (hq : q.Prime) (hd : q ∣ 18446744069414584321 - 1) :
    q = 2 ∨ q = 3 ∨ q = 5 ∨ q = 17 ∨ q = 257 ∨ q = 65537 := by
  have e : 18446744069414584321 - 1 = 2 ^ 32 * (3 * (5 * (17 * (257 * 65537)))) := by norm_num
  rw [e] at hd
  have eq_of {p : Nat} (hp : p.Prime) (h : q ∣ p) : q = p := (Nat.prime_dvd_prime_iff_eq hq hp).1 h
  rcases (Nat.Prime.dvd_mul hq).1 hd with h | h
  · exact .inl (eq_of Nat.prime_two (hq.dvd_of_dvd_pow h))
  rcases (Nat.Prime.dvd_mul hq).1 h with h | h
  · exact .inr (.inl (eq_of (by norm_num) h))
  rcases (Nat.Prime.dvd_mul hq).1 h with h | h
  · exact .inr (.inr (.inl (eq_of (by norm_num) h)))
  rcases (Nat.Prime.dvd_mul hq).1 h with h | h
  · exact .inr (.inr (.inr (.inl (eq_of (by norm_num) h))))
  rcases (Nat.Prime.dvd_mul hq).1 h with h | h
  · exact .inr (.inr (.inr (.inr (.inl (eq_of (by norm_num) h)))))
  · exact .inr (.inr (.inr (.inr (.inr (eq_of (by norm_num) h)))))

/-- `P` is prime (R7): Lucas' test with the base 7. -/
theorem P_prime : Nat.Prime P := by
  show Nat.Prime 18446744069414584321
  refine lucas_primality _ 7 ?_ ?_
  · show (7 : ZMod 18446744069414584321) ^ 18446744069414584320 = 1
    reduce_mod_char
  · intro q hq hd
    rcases prime_dvd_P_sub_one hq hd with rfl | rfl | rfl | rfl | rfl | rfl
    · show (7 : ZMod 18446744069414584321) ^ 9223372034707292160 ≠ 1
      reduce_mod_char; decide +kernel
    · show (7 : ZMod 18446744069414584321) ^ 6148914689804861440 ≠ 1
      reduce_mod_char; decide +kernel
    · show (7 : ZMod 18446744069414584321) ^ 3689348813882916864 ≠ 1
      reduce_mod_char; decide +kernel
    · show (7 : ZMod 18446744069414584321) ^ 1085102592318504960 ≠ 1
      reduce_mod_char; decide +kernel
    · show (7 : ZMod 18446744069414584321) ^ 71777214277877760 ≠ 1
      reduce_mod_char; decide +kernel
    · show (7 : ZMod 18446744069414584321) ^ 281470681743360 ≠ 1
      reduce_mod_char; decide +kernel

/-- The second instantiation of spec/95_test_vectors.md section 2.5, with the alternative generator of R9
and a memory of 64 words. An illustration, never normative. -/
def Config.quadratic : Config where
  generator := ⟨1753635133440165772, by decide⟩
  degree := 2
  poly := [⟨18446744069414584314, by decide⟩, ⟨0, by decide⟩]
  memWords := 64

/-- 7 is no square modulo `P`: "7 is a non-residue modulo P, 7^((P−1)/2) = P−1" (spec/95 section 2.5). -/
theorem seven_not_square (r : ZMod 18446744069414584321) : r ^ 2 ≠ 7 := by
  intro h
  have hr : r ≠ 0 := by
    rintro rfl
    exact absurd h (by decide +kernel)
  have : Fact (Nat.Prime 18446744069414584321) := ⟨P_prime⟩
  have h1 : r ^ (18446744069414584321 - 1) = 1 := ZMod.pow_card_sub_one_eq_one hr
  have h2 : (7 : ZMod 18446744069414584321) ^ 9223372034707292160 = 1 := by
    rw [← h, ← pow_mul]
    exact h1
  have h3 : (7 : ZMod 18446744069414584321) ^ 9223372034707292160 ≠ 1 := by
    reduce_mod_char; decide +kernel
  exact h3 h2

theorem Config.quadratic_irreducible : Config.quadratic.ModulusIrreducible := by
  have : Fact (Nat.Prime P) := ⟨P_prime⟩
  have h7 : ((18446744069414584314 : Nat) : ZMod P) = -7 := by
    show ((18446744069414584314 : Nat) : ZMod 18446744069414584321) = -7
    decide +kernel
  have e : Polynomial.X ^ Config.quadratic.degree +
      ((List.range Config.quadratic.degree).map fun i =>
        Polynomial.C ((Config.quadratic.poly.getD i Residue.zero).val : ZMod P) * Polynomial.X ^ i).sum
      = (Polynomial.X ^ 2 - Polynomial.C 7 : Polynomial (ZMod P)) := by
    show Polynomial.X ^ 2 + (Polynomial.C (((18446744069414584314 : Nat) : ZMod P)) * Polynomial.X ^ 0
      + (Polynomial.C (((0 : Nat) : ZMod P)) * Polynomial.X ^ 1 + 0)) = _
    rw [h7]
    simp only [Nat.cast_zero, Polynomial.C_0, Polynomial.C_neg]
    ring
  unfold Config.ModulusIrreducible
  rw [e]
  exact X_pow_sub_C_irreducible_of_prime Nat.prime_two (fun r => seven_not_square r)

/-- The generator of `Config.quadratic` in the field GF(P). -/
theorem Config.quadratic_generator :
    ((Config.quadratic.generator.val : Nat) : ZMod P) = (1753635133440165772 : ZMod 18446744069414584321) :=
  Nat.cast_ofNat

theorem generator_pow_order : (1753635133440165772 : ZMod 18446744069414584321) ^ 4294967296 = 1 := by
  reduce_mod_char

theorem generator_pow_half : (1753635133440165772 : ZMod 18446744069414584321) ^ 2147483648 ≠ 1 := by
  reduce_mod_char
  decide +kernel

theorem Config.quadratic_admissible : Config.quadratic.Admissible where
  generator_pow_order := by
    rw [Config.quadratic_generator, show 2 ^ 32 = 4294967296 from rfl]
    exact Sys2Proof.generator_pow_order
  generator_pow_half := by
    rw [Config.quadratic_generator, show 2 ^ 31 = 2147483648 from rfl]
    exact Sys2Proof.generator_pow_half
  two_le_degree := by decide
  poly_length := by decide
  irreducible := Config.quadratic_irreducible
  memWords_pos := by decide
  memWords_le := by decide

/-- There is an admissible instance. -/
@[reducible] def Config.someAdmissible : Inhabited {c : Config // c.Admissible} :=
  ⟨⟨Config.quadratic, Config.quadratic_admissible⟩⟩

/-- The hardware's constants (R16): an admissible instance of which nothing else is known (log 1). -/
def Config.hardware : Config := (@Config.chosen Config.someAdmissible).val

/-- The hardware is an instance of what R8 describes. -/
theorem Config.hardware_admissible : Config.hardware.Admissible :=
  (@Config.chosen Config.someAdmissible).property

end Sys2Proof
end

