-- ==== Sys2Proof/Syntax.lean ====
section
/-! DEFINITION. The 19 commands (spec/30_encoding.md R42, R43), as the assembler writes them (R47):
a mnemonic and word addresses in the order `DST, SRC1[, SRC2]`. One constructor per row of
spec/opcode_table.json. -/

namespace Sys2Proof

/-- A command. Every operand is a word address of `MEM` (R41); there are no immediates. That an address
fits its 32-bit field is checked by `Instr.wellFormed` (R47; log 12). -/
inductive Instr where
  /-- BADD, base-field addition (R53). -/
  | badd (dst src1 src2 : Nat)
  /-- BSUB, base-field subtraction (R54). -/
  | bsub (dst src1 src2 : Nat)
  /-- BNEG, base-field negation (R55). -/
  | bneg (dst src1 : Nat)
  /-- BMUL, base-field multiplication (R58). -/
  | bmul (dst src1 src2 : Nat)
  /-- BPOW, base-field exponentiation; `src2` names the raw exponent (R62). -/
  | bpow (dst src1 src2 : Nat)
  /-- BINV, base-field inverse (R65). -/
  | binv (dst src1 : Nat)
  /-- BDIV, base-field division (R66). -/
  | bdiv (dst src1 src2 : Nat)
  /-- BROOT, root of unity; `src1` names the raw order (R70). -/
  | broot (dst src1 : Nat)
  /-- EADD, extension-field addition (R77). -/
  | eadd (dst src1 src2 : Nat)
  /-- ESUB, extension-field subtraction (R78). -/
  | esub (dst src1 src2 : Nat)
  /-- ENEG, extension-field negation (R79). -/
  | eneg (dst src1 : Nat)
  /-- EMUL, extension-field multiplication (R81). -/
  | emul (dst src1 src2 : Nat)
  /-- EPOW, extension-field exponentiation; `src2` names the raw exponent (R82). -/
  | epow (dst src1 src2 : Nat)
  /-- EINV, extension-field inverse (R84). -/
  | einv (dst src1 : Nat)
  /-- EDIV, extension-field division (R85). -/
  | ediv (dst src1 src2 : Nat)
  /-- NTT, forward transform of residues, root derived; `src1` names the raw length (R103). -/
  | ntt (dst src1 : Nat)
  /-- NTTR, forward transform of residues, root supplied at `src2` (R104). -/
  | nttr (dst src1 src2 : Nat)
  /-- ENTT, forward transform of extension elements, root derived (R105). -/
  | entt (dst src1 : Nat)
  /-- ENTTR, forward transform of extension elements, root supplied at `src2` (R106). -/
  | enttr (dst src1 src2 : Nat)
  deriving DecidableEq, Repr

/-- The address in the `DST` field: the destination; of a transform, the sequence (R43). -/
def Instr.dst : Instr → Nat
  | .badd d _ _ => d
  | .bsub d _ _ => d
  | .bneg d _ => d
  | .bmul d _ _ => d
  | .bpow d _ _ => d
  | .binv d _ => d
  | .bdiv d _ _ => d
  | .broot d _ => d
  | .eadd d _ _ => d
  | .esub d _ _ => d
  | .eneg d _ => d
  | .emul d _ _ => d
  | .epow d _ _ => d
  | .einv d _ => d
  | .ediv d _ _ => d
  | .ntt d _ => d
  | .nttr d _ _ => d
  | .entt d _ => d
  | .enttr d _ _ => d

/-- The address in the `SRC1` field (R43). -/
def Instr.src1 : Instr → Nat
  | .badd _ a _ => a
  | .bsub _ a _ => a
  | .bneg _ a => a
  | .bmul _ a _ => a
  | .bpow _ a _ => a
  | .binv _ a => a
  | .bdiv _ a _ => a
  | .broot _ a => a
  | .eadd _ a _ => a
  | .esub _ a _ => a
  | .eneg _ a => a
  | .emul _ a _ => a
  | .epow _ a _ => a
  | .einv _ a => a
  | .ediv _ a _ => a
  | .ntt _ a => a
  | .nttr _ a _ => a
  | .entt _ a => a
  | .enttr _ a _ => a

/-- The address in the `SRC2` field; none where the field is unused and "must be zero" (R43, R44). -/
def Instr.src2? : Instr → Option Nat
  | .badd _ _ b => some b
  | .bsub _ _ b => some b
  | .bneg _ _ => none
  | .bmul _ _ b => some b
  | .bpow _ _ b => some b
  | .binv _ _ => none
  | .bdiv _ _ b => some b
  | .broot _ _ => none
  | .eadd _ _ b => some b
  | .esub _ _ b => some b
  | .eneg _ _ => none
  | .emul _ _ b => some b
  | .epow _ _ b => some b
  | .einv _ _ => none
  | .ediv _ _ b => some b
  | .ntt _ _ => none
  | .nttr _ _ b => some b
  | .entt _ _ => none
  | .enttr _ _ b => some b

/-- The mnemonic of a command (R42, R47). -/
def Instr.mnemonic : Instr → String
  | .badd .. => "BADD"
  | .bsub .. => "BSUB"
  | .bneg .. => "BNEG"
  | .bmul .. => "BMUL"
  | .bpow .. => "BPOW"
  | .binv .. => "BINV"
  | .bdiv .. => "BDIV"
  | .broot .. => "BROOT"
  | .eadd .. => "EADD"
  | .esub .. => "ESUB"
  | .eneg .. => "ENEG"
  | .emul .. => "EMUL"
  | .epow .. => "EPOW"
  | .einv .. => "EINV"
  | .ediv .. => "EDIV"
  | .ntt .. => "NTT"
  | .nttr .. => "NTTR"
  | .entt .. => "ENTT"
  | .enttr .. => "ENTTR"

end Sys2Proof
end

