-- ==== Sys2Proof/WellFormed.lean ====
section
/-! DEFINITION. The check on a command as written: "An operand is a word address … in 0 … 2^32 − 1"
(spec/30_encoding.md R47; the fields are 32 bits wide, R40). -/

namespace Sys2Proof

/-- An operand fits a 32-bit address field (R40, R47). -/
def addressFits (a : Nat) : Bool := decide (a < 2 ^ 32)

/-- Every operand of the command fits its field. An unused `SRC2` has nothing to check (R43). -/
def Instr.wellFormed (i : Instr) : Bool :=
  addressFits i.dst && addressFits i.src1 && (i.src2?.all addressFits)

end Sys2Proof
end

