-- ==== Sys2Proof/Decode.lean ====
section
/-! DEFINITION. The command word (spec/30_encoding.md R40 to R46, R52): the decoder, total on the
128-bit values, rejecting an illegal word by name (R44), and after it the encoder and the rows of
spec/opcode_table.json. -/

namespace Sys2Proof

/-- One command word: 128 bits, a value on a port, with no byte order (R40). -/
abbrev CommandWord := BitVec 128

/-- `OPC`, bits 7:0 (R40). -/
def CommandWord.opc (w : CommandWord) : BitVec 8 := w.extractLsb' 0 8

/-- `RSV`, bits 31:8, reserved, must be zero (R40). -/
def CommandWord.rsv (w : CommandWord) : BitVec 24 := w.extractLsb' 8 24

/-- `DST`, bits 63:32 (R40). -/
def CommandWord.dst (w : CommandWord) : BitVec 32 := w.extractLsb' 32 32

/-- `SRC1`, bits 95:64 (R40). -/
def CommandWord.src1 (w : CommandWord) : BitVec 32 := w.extractLsb' 64 32

/-- `SRC2`, bits 127:96 (R40). -/
def CommandWord.src2 (w : CommandWord) : BitVec 32 := w.extractLsb' 96 32

/-- Why a command word is illegal: the three conditions of R44. All have the same effect. -/
inductive IllegalCommand where
  /-- R44 (a): `OPC` is none of the 19 values of R42. -/
  | unassignedOpcode
  /-- R44 (b): `RSV ≠ 0`. -/
  | reservedNonzero
  /-- R44 (c): a two-operand command with `SRC2 ≠ 0`. -/
  | unusedSrc2Nonzero
  deriving DecidableEq, Repr

/-- The fields as operands: "used as it stands: `zext_64(field)`" (R41). -/
def decodeThree (mk : Nat → Nat → Nat → Instr) (w : CommandWord) : Except IllegalCommand Instr :=
  if CommandWord.rsv w ≠ 0 then .error .reservedNonzero
  else .ok (mk (CommandWord.dst w).toNat (CommandWord.src1 w).toNat (CommandWord.src2 w).toNat)

/-- A command with no second source: `SRC2` must be zero (R44 (c)). -/
def decodeTwo (mk : Nat → Nat → Instr) (w : CommandWord) : Except IllegalCommand Instr :=
  if CommandWord.rsv w ≠ 0 then .error .reservedNonzero
  else if CommandWord.src2 w ≠ 0 then .error .unusedSrc2Nonzero
  else .ok (mk (CommandWord.dst w).toNat (CommandWord.src1 w).toNat)

/-- "every 128-bit value is either exactly one of the 19 commands or illegal" (R44); opcodes R42. -/
def decode (w : CommandWord) : Except IllegalCommand Instr :=
  match (CommandWord.opc w).toNat with
  | 0x10 => decodeThree .badd w
  | 0x11 => decodeThree .bsub w
  | 0x12 => decodeTwo .bneg w
  | 0x13 => decodeThree .bmul w
  | 0x14 => decodeThree .bpow w
  | 0x15 => decodeTwo .binv w
  | 0x16 => decodeThree .bdiv w
  | 0x17 => decodeTwo .broot w
  | 0x20 => decodeThree .eadd w
  | 0x21 => decodeThree .esub w
  | 0x22 => decodeTwo .eneg w
  | 0x23 => decodeThree .emul w
  | 0x24 => decodeThree .epow w
  | 0x25 => decodeTwo .einv w
  | 0x26 => decodeThree .ediv w
  | 0x30 => decodeTwo .ntt w
  | 0x31 => decodeThree .nttr w
  | 0x32 => decodeTwo .entt w
  | 0x33 => decodeThree .enttr w
  | _ => .error .unassignedOpcode

/-- The `OPC` value of a command (R42). -/
def Instr.opcode : Instr → BitVec 8
  | .badd .. => 0x10
  | .bsub .. => 0x11
  | .bneg .. => 0x12
  | .bmul .. => 0x13
  | .bpow .. => 0x14
  | .binv .. => 0x15
  | .bdiv .. => 0x16
  | .broot .. => 0x17
  | .eadd .. => 0x20
  | .esub .. => 0x21
  | .eneg .. => 0x22
  | .emul .. => 0x23
  | .epow .. => 0x24
  | .einv .. => 0x25
  | .ediv .. => 0x26
  | .ntt .. => 0x30
  | .nttr .. => 0x31
  | .entt .. => 0x32
  | .enttr .. => 0x33

/-- The command word of a command: "`CMD = OPC | DST<<32 | SRC1<<64 | SRC2<<96`" (spec/95 section 2.10, R40);
"Commands with two operands encode `SRC2 = 0`" (R47). -/
def encode (i : Instr) : CommandWord :=
  BitVec.ofNat 32 (i.src2?.getD 0) ++ BitVec.ofNat 32 i.src1 ++ BitVec.ofNat 32 i.dst ++ 0#24 ++ i.opcode

/-- One row of spec/opcode_table.json (R52). -/
structure OpcodeRow where
  mnemonic : String
  mask : CommandWord
  pattern : CommandWord
  deriving DecidableEq, Repr

/-- "a word `w` decodes to the row when `w AND mask = match`" (R52). -/
def OpcodeRow.fits (r : OpcodeRow) (w : CommandWord) : Bool := w &&& r.mask == r.pattern

/-- The mask of a command that uses all three address fields (R52). -/
def maskThree : CommandWord := 0x000000000000000000000000FFFFFFFF

/-- The mask of a command whose `SRC2` must be zero (R52). -/
def maskTwo : CommandWord := 0xFFFFFFFF0000000000000000FFFFFFFF

/-- The 19 rows, in the table's order (R52). -/
def opcodeTable : List OpcodeRow := [
  ⟨"BADD", maskThree, 0x10⟩,
  ⟨"BSUB", maskThree, 0x11⟩,
  ⟨"BNEG", maskTwo, 0x12⟩,
  ⟨"BMUL", maskThree, 0x13⟩,
  ⟨"BPOW", maskThree, 0x14⟩,
  ⟨"BINV", maskTwo, 0x15⟩,
  ⟨"BDIV", maskThree, 0x16⟩,
  ⟨"BROOT", maskTwo, 0x17⟩,
  ⟨"EADD", maskThree, 0x20⟩,
  ⟨"ESUB", maskThree, 0x21⟩,
  ⟨"ENEG", maskTwo, 0x22⟩,
  ⟨"EMUL", maskThree, 0x23⟩,
  ⟨"EPOW", maskThree, 0x24⟩,
  ⟨"EINV", maskTwo, 0x25⟩,
  ⟨"EDIV", maskThree, 0x26⟩,
  ⟨"NTT", maskTwo, 0x30⟩,
  ⟨"NTTR", maskThree, 0x31⟩,
  ⟨"ENTT", maskTwo, 0x32⟩,
  ⟨"ENTTR", maskThree, 0x33⟩]

/-- What the decoder reads from an instruction whose bits are `w`, bit 0 the least significant bit of the
command word; every bit above `nbits` is 0. None where the decoder refuses. -/
def decodeTableWord (nbits w : Nat) : Option Instr :=
  (decode (BitVec.ofNat 128 (w % 2 ^ nbits))).toOption

end Sys2Proof
end

