-- ==== Sys2Proof/Machine/State.lean ====
section
/-! DEFINITION. The state of the machine (spec/10_state.md), the ways a step can stop, and the state
after reset. Plain data throughout. -/

namespace Sys2Proof.Machine

/-- The outcome of a command, before it is a number (R111). The codes are `Status.code`. -/
inductive Status where
  /-- The command completed. -/
  | ok
  /-- "requested inverse or division with a zero divisor, in either field" (R112). -/
  | zeroDivisor
  /-- "requested root order is zero, not a power of two, or exceeds … 2^32" (R113). -/
  | orderedRootError
  /-- "transform input length is zero or not a power of two" (R114). -/
  | invalidLength
  /-- Reserved for the boundary adapter: no command of the hardware produces it (R115). -/
  | malformedInput
  /-- A range is not inside `MEM` (R116). -/
  | badAddress
  /-- The command word is not a legal encoding (R116, R44). -/
  | illegalCommand
  deriving DecidableEq, Repr

/-- Nothing stops this machine with a fault: a failing command is a status and the engine goes on
(R117, R119), and "There is no fault-latched or halted state of the engine" (log 11). -/
inductive Fault where
  deriving DecidableEq, Repr

/-- What the spec gives no meaning and says a model refuses (spec/93 U1, U5). -/
inductive Refusal where
  /-- Raised by `exec` for an instruction that has no meaning yet. Safe. -/
  | notModelled (mnemonic : String)
  /-- Raised by a command that reads, as a residue, the word at `address`, whose value is in
  `[P, 2^64)`: "a violation of a host duty and the spec gives the command no meaning" (R14, R123, U1;
  log 4). Safe. -/
  | nonCanonicalOperand (address : Nat)
  /-- Raised by `step` for a `HostRead` or `HostWrite` at an address `≥ MEM_WORDS`: "the spec gives it no
  meaning; a model refuses it" (R35, R125, U5; log 7). Safe. -/
  | hostAddressOutOfRange (address : Nat)
  deriving DecidableEq, Repr

/-- What the host does at the hardware's ports, one event at a time (R36, R39, R51; log 3). -/
inductive HostEvent where
  /-- The host presents a command word on the command port (R39). -/
  | command (word : CommandWord)
  /-- `HostWrite(a, v)` (R35). -/
  | write (address : Nat) (value : Word)
  /-- `HostRead(a)` (R35). -/
  | read (address : Nat)
  /-- The host reads `STATUS` (R15, R132; log 10). -/
  | readStatus
  /-- Reset is asserted, while idle or while the given command is in progress (R127). The content of
  `MEM` afterwards is a draw (R23): the event carries it, in the form of `Memory.powerOn` (log 8). -/
  | reset (inProgress : Option CommandWord) (image : Nat)
  deriving DecidableEq, Repr

/-- What the machine answers the host (R39, R35, R140; log 9). -/
inductive Response where
  /-- The status a command returned (R39). -/
  | status (code : BitVec 8)
  /-- The word a `HostRead` returned (R35). -/
  | word (value : Word)
  /-- The value of `STATUS` the host read (R15). -/
  | statusRead (code : BitVec 8)
  deriving DecidableEq, Repr

/-- The element memory `MEM` (R13), in one canonical form (`Memory.Wf`; log 15). -/
structure Memory where
  /-- The content at the last reset, a free value (R23): digit `a` in base `2^64` is the word at `a`. -/
  powerOn : Nat
  /-- The words that differ from that content, by rising address. -/
  cells : List (Nat × Word)
  deriving DecidableEq, Repr

/-- The machine. -/
structure State where
  /-- The hardwired constants `H`, `K`, `M`, `MEM_WORDS` (R16); no step changes them (log 1). -/
  hw : Config
  /-- The element memory (R13). -/
  mem : Memory
  /-- The `STATUS` register, 8 bits (R15). -/
  status : BitVec 8
  /-- What the host does next, oldest first: the model's own field (log 3). -/
  inputs : List HostEvent
  /-- What the machine has answered, oldest first: the model's own field (log 9). -/
  responses : List Response
  deriving DecidableEq, Repr

/-- The machine after reset (R23, R128): `STATUS` is 0, every word of `MEM` is unspecified, the engine
is idle, the constants are what they are. Nothing has been asked of it and nothing answered. -/
def State.reset : State where
  hw := Config.hardware
  mem := { powerOn := Config.powerOnImage, cells := [] }
  status := 0
  inputs := []
  responses := []

end Sys2Proof.Machine
end

