-- ==== Sys2Proof/Machine/Flags.lean ====
section
/-! DEFINITION. "There are no flags, condition codes or predicates" (spec/10_state.md R19). The only
outcome indication is the code a command leaves in `STATUS` (R15, R111): computed here. -/

namespace Sys2Proof.Machine

/-- The status codes (R111). -/
def Status.code : Status → BitVec 8
  | .ok => 0
  | .zeroDivisor => 1
  | .orderedRootError => 2
  | .invalidLength => 3
  | .malformedInput => 4
  | .badAddress => 5
  | .illegalCommand => 6

/-- The end of a command (R15, R39, R49 step 7): the code is latched in `STATUS` and returned. -/
def State.complete (s : State) (st : Status) : State :=
  { s with status := st.code, responses := s.responses ++ [.status st.code] }

end Sys2Proof.Machine
end

