-- ==== Sys2Proof/Machine/Ops.lean ====
section
/-! DEFINITION. The named operations over memory, and the one way a command fails
(spec/20_memory.md R25 to R36, spec/30_encoding.md R49, R50, spec/60_exceptions.md R117). -/

namespace Sys2Proof.Machine

/-! ## The words of `MEM` -/

/-- What an address that no entry names reads as: the word the last reset left there (R23). -/
def Memory.powerOnWord (m : Memory) (a : Nat) : Word := BitVec.ofNat 64 (m.powerOn >>> (64 * a))

/-- The entry at an address, if there is one. -/
def findCell (a : Nat) : List (Nat × Word) → Option Word
  | [] => none
  | (b, v) :: cs => if b = a then some v else findCell a cs

/-- `cells` with the entry at `a`, if any, taken out. -/
def eraseCell (a : Nat) : List (Nat × Word) → List (Nat × Word)
  | [] => []
  | (b, v) :: cs => if b = a then cs else (b, v) :: eraseCell a cs

/-- `cells` with the entry at `a` set to `v`, in its place by address. -/
def putCell (a : Nat) (v : Word) : List (Nat × Word) → List (Nat × Word)
  | [] => [(a, v)]
  | (b, u) :: cs =>
    if a < b then (a, v) :: (b, u) :: cs
    else if a = b then (a, v) :: cs
    else (b, u) :: putCell a v cs

/-- `MEM[a]` (R11, R13). -/
def Memory.read (m : Memory) (a : Nat) : Word := (findCell a m.cells).getD (m.powerOnWord a)

/-- `MEM[a] <- v` (R35), keeping the canonical form: the value the reset left there needs no entry. -/
def Memory.write (m : Memory) (a : Nat) (v : Word) : Memory :=
  { m with cells := if v = m.powerOnWord a then eraseCell a m.cells else putCell a v m.cells }

/-- `MemRead(a, n)`: the words at `a … a + n − 1` (R11). -/
def Memory.readWords (m : Memory) (a : Nat) : Nat → List Word
  | 0 => []
  | n + 1 => m.read a :: m.readWords (a + 1) n

/-- `MemWrite(a, n, v)`: the words `v` at `a … a + n − 1` (R11). -/
def Memory.writeWords (m : Memory) (a : Nat) : List Word → Memory
  | [] => m
  | v :: vs => (m.write a v).writeWords (a + 1) vs

/-- The canonical form: entries by strictly rising address, none equal to what an unlisted address reads as. -/
abbrev Memory.Wf (m : Memory) : Prop :=
  m.cells.Pairwise (fun c d => c.1 < d.1) ∧ ∀ c ∈ m.cells, c.2 ≠ m.powerOnWord c.1

/-- `ispow2(n)`: "`n ≠ 0` and `n AND (n − 1) = 0`" (R10). -/
def ispow2 (n : Nat) : Bool := n != 0 && (n &&& (n - 1)) == 0

/-! ## How a command ends -/

/-- Why a command stops before it has its result. -/
inductive Stop where
  /-- `raise <Status>` (R11, R117). -/
  | status (st : Status)
  /-- The spec gives the command no meaning (R123). -/
  | refuse (r : Refusal)
  deriving DecidableEq, Repr

/-- `raise <Status>` (R117): "No word of `MEM` is changed … `STATUS` is set to the code. The engine is idle
again and accepts the next command. Nothing else happens". There is no return from it (R121). -/
def State.fail (s : State) (st : Status) : State := s.complete st

/-- Commit and status (R49 steps 6 and 7): every staged word is applied to `MEM`, `STATUS <- OK`. -/
def State.commit (s : State) (d : Nat) (ws : List Word) : State :=
  { s with mem := s.mem.writeWords d ws }.complete .ok

/-- The end of a command whose result words are staged for the address `d` (R49, R50): they are written
exactly when no `raise` occurred. -/
def State.finish (s : State) (d : Nat) : Except Stop (List Word) → Host.Outcome State Fault Refusal
  | .ok ws => .next (s.commit d ws)
  | .error (.status st) => .next (s.fail st)
  | .error (.refuse r) => .refused r

/-- `CheckRange(a, n)`: "`if a + n > MEM_WORDS then raise BAD_ADDRESS`", in unbounded integers (R27). -/
def State.checkRange (s : State) (a n : Nat) : Except Stop Unit :=
  if a + n > s.hw.memWords then .error (.status .badAddress) else .ok ()

/-! ## The host's ports -/

/-- `HostWrite(a, v)` (R35): "sets `MEM[a] <- v`"; any 64-bit value. -/
def State.hostWrite (s : State) (a : Nat) (v : Word) : Host.Outcome State Fault Refusal :=
  if a < s.hw.memWords then .next { s with mem := s.mem.write a v }
  else .refused (.hostAddressOutOfRange a)

/-- `HostRead(a)` (R35): "returns `MEM[a]`", without side effect (R32). -/
def State.hostRead (s : State) (a : Nat) : Host.Outcome State Fault Refusal :=
  if a < s.hw.memWords then .next { s with responses := s.responses ++ [.word (s.mem.read a)] }
  else .refused (.hostAddressOutOfRange a)

/-- The host reads `STATUS` (R15), which changes nothing. -/
def State.hostReadStatus (s : State) : State :=
  { s with responses := s.responses ++ [.statusRead s.status] }

/-- Reset (R127, R128): `STATUS` is 0, every word of `MEM` is that of the new draw, no status is returned for
a command in progress, the constants are unchanged. -/
def State.hostReset (s : State) (image : Nat) : State :=
  { s with mem := { powerOn := image, cells := [] }, status := 0 }

end Sys2Proof.Machine
end

