-- ==== Sys2Proof/Machine/Operands.lean ====
section
/-! DEFINITION. The operand forms (spec/20_memory.md R29, R30, spec/30_encoding.md R43): how a command
reads its operands from `MEM`, and the shapes the 19 commands share. -/

namespace Sys2Proof.Machine

/-- How an element of a type `T` stands in `MEM`: `W_T` consecutive words, each a residue (R29). -/
structure ElementFormat (α : Type) where
  /-- `W_T`. -/
  width : Nat
  /-- The element made of the residues at its addresses, lowest address first. -/
  ofResidues : List Residue → α
  /-- Its residues, lowest address first. -/
  residues : α → List Residue

/-- Type `B`: one word (R29). -/
def baseFormat : ElementFormat Residue where
  width := 1
  ofResidues rs := rs.headD Residue.zero
  residues r := [r]

/-- Type `E`: `K` words, "lowest degree at the lowest address" (R29, R75). -/
def extFormat (c : Config) : ElementFormat (List Residue) where
  width := c.degree
  ofResidues rs := rs
  residues rs := rs

/-- The words of an element. -/
def ElementFormat.words {α : Type} (F : ElementFormat α) (x : α) : List Word :=
  (F.residues x).map Residue.toWord

/-- `flatten`: "the words of element 0, then element 1, and so on" (R102). -/
def ElementFormat.flatten {α : Type} (F : ElementFormat α) (xs : List α) : List Word :=
  xs.flatMap F.words

/-- `FetchRaw(a)`: the word as an unsigned integer, "every 64-bit value is legal" (R14, R29). -/
def State.fetchRaw (s : State) (a : Nat) : Nat := (s.mem.read a).toNat

/-- A word read as a residue. A word in `[P, 2^64)` is none, and the spec gives the command that reads it
no meaning (R123; log 4). -/
def State.fetchResidue (s : State) (a : Nat) : Except Stop Residue :=
  match Residue.ofWord? (s.mem.read a) with
  | some r => .ok r
  | none => .error (.refuse (.nonCanonicalOperand a))

/-- The `n` words from `a` on, each read as a residue. -/
def State.fetchResidues (s : State) (a : Nat) : Nat → Except Stop (List Residue)
  | 0 => .ok []
  | n + 1 =>
    match s.fetchResidue a with
    | .error e => .error e
    | .ok r =>
      match s.fetchResidues (a + 1) n with
      | .error e => .error e
      | .ok rs => .ok (r :: rs)

/-- `FetchT(a)` (R29). -/
def State.fetchElement {α : Type} (s : State) (F : ElementFormat α) (a : Nat) : Except Stop α :=
  (s.fetchResidues a F.width).map F.ofResidues

/-- `FetchSeq_T(a, n)`: the elements at `a, a + W_T, …, a + (n−1)·W_T` (R29). -/
def State.fetchSeq {α : Type} (s : State) (F : ElementFormat α) (a : Nat) : Nat → Except Stop (List α)
  | 0 => .ok []
  | n + 1 =>
    match s.fetchElement F a with
    | .error e => .error e
    | .ok x =>
      match s.fetchSeq F (a + F.width) n with
      | .error e => .error e
      | .ok xs => .ok (x :: xs)

/-! ## The shapes of the commands

Each gives the result words of a command whose operation on the fetched operands is `f`: ranges first,
then every source in full, then the operation, which may `raise` (R49 steps 3 to 5). -/

/-- `d, a, b`: two elements to one (R43). -/
def State.binaryWords {α : Type} (s : State) (F : ElementFormat α) (f : α → α → Except Stop α)
    (d a b : Nat) : Except Stop (List Word) := do
  s.checkRange d F.width
  s.checkRange a F.width
  s.checkRange b F.width
  let x ← s.fetchElement F a
  let y ← s.fetchElement F b
  let r ← f x y
  return F.words r

/-- `d, a`: one element to one (R43). -/
def State.unaryWords {α : Type} (s : State) (F : ElementFormat α) (f : α → Except Stop α)
    (d a : Nat) : Except Stop (List Word) := do
  s.checkRange d F.width
  s.checkRange a F.width
  let x ← s.fetchElement F a
  let r ← f x
  return F.words r

/-- `d, x, e`: an element and a raw integer to an element; "the exponent occupies one word" (R43, R82). -/
def State.powerWords {α : Type} (s : State) (F : ElementFormat α) (f : α → Nat → Except Stop α)
    (d a e : Nat) : Except Stop (List Word) := do
  s.checkRange d F.width
  s.checkRange a F.width
  s.checkRange e 1
  let x ← s.fetchElement F a
  let r ← f x (s.fetchRaw e)
  return F.words r

/-- `d, n`: a raw integer to a residue (R43, BROOT). -/
def State.rootWords (s : State) (f : Nat → Except Stop Residue) (d a : Nat) : Except Stop (List Word) := do
  s.checkRange d baseFormat.width
  s.checkRange a 1
  let r ← f (s.fetchRaw a)
  return baseFormat.words r

/-- "if n = 0 or not ispow2(n) then raise INVALID_LENGTH" (R97 step 3, R114). -/
def checkLength (n : Nat) : Except Stop Unit :=
  if n ≠ 0 ∧ ispow2 n then .ok () else .error (.status .invalidLength)

/-- `TransformChecks` (R97) and the transform of the sequence at `d`, whose length is the raw integer at `a`.
`rootRange` is the range check of an explicit root (step 1), `root` reads or derives the root of a
sequence of the given length (step 5), `f` is the operation on root and sequence. -/
def State.transformWords {α : Type} (s : State) (F : ElementFormat α) (rootRange : Except Stop Unit)
    (root : Nat → Except Stop α) (f : α → List α → List α) (d a : Nat) : Except Stop (List Word) := do
  s.checkRange a 1
  rootRange
  let n := s.fetchRaw a
  checkLength n
  s.checkRange d (n * F.width)
  let r ← root n
  let xs ← s.fetchSeq F d n
  return F.flatten (f r xs)

end Sys2Proof.Machine
end

