-- ==== Sys2Proof/Machine/ModularAdder.lean ====
section
/-! DEFINITION. The unit modular_adder_64b (spec/40_modular_adder.md): BADD, BSUB, BNEG. -/

namespace Sys2Proof.Machine

/-- "`a mod P` is the mathematical remainder in `[0, P)`, also for negative `a`" (R10). -/
def reduce (x : Int) : Residue :=
  ⟨(x % (P : Int)).toNat, by
    have h0 : (0 : Int) ≤ x % (P : Int) := Int.emod_nonneg x (by decide)
    have h1 : x % (P : Int) < (P : Int) := Int.emod_lt_of_pos x (by decide)
    omega⟩

/-- `badd(a, b) = (a + b) mod P`, from the exact sum (R53, R57). -/
def badd (a b : Residue) : Residue := reduce ((a.val : Int) + b.val)

/-- `bsub(a, b) = (a − b) mod P`, "the non-negative remainder" (R54). -/
def bsub (a b : Residue) : Residue := reduce ((a.val : Int) - b.val)

/-- `bneg(a) = (0 − a) mod P` (R55). -/
def bneg (a : Residue) : Residue := reduce (0 - (a.val : Int))

/-- BADD (R53). -/
def execBadd (d a b : Nat) (s : State) : Host.Outcome State Fault Refusal :=
  s.finish d (s.binaryWords baseFormat (fun x y => .ok (badd x y)) d a b)

/-- BSUB: `SRC1 − SRC2` (R54). -/
def execBsub (d a b : Nat) (s : State) : Host.Outcome State Fault Refusal :=
  s.finish d (s.binaryWords baseFormat (fun x y => .ok (bsub x y)) d a b)

/-- BNEG (R55). -/
def execBneg (d a : Nat) (s : State) : Host.Outcome State Fault Refusal :=
  s.finish d (s.unaryWords baseFormat (fun x => .ok (bneg x)) d a)

end Sys2Proof.Machine
end

