-- ==== Sys2Proof/Machine/ModularMultiplier.lean ====
section
/-! DEFINITION. The unit modular_multiplier_64b (spec/41_modular_multiplier.md): BMUL. -/

namespace Sys2Proof.Machine

/-- `bmul(a, b) = (a · b) mod P`, the remainder of the exact product, formed at full width (R58, R59). -/
def bmul (a b : Residue) : Residue := reduce ((a.val : Int) * b.val)

/-- BMUL (R58). -/
def execBmul (d a b : Nat) (s : State) : Host.Outcome State Fault Refusal :=
  s.finish d (s.binaryWords baseFormat (fun x y => .ok (bmul x y)) d a b)

end Sys2Proof.Machine
end

