-- ==== Sys2Proof/Machine/PoweringEngine.lean ====
section
/-! DEFINITION. The unit powering_engine (spec/42_powering_engine.md): `pow_T` and BPOW. -/

namespace Sys2Proof.Machine

/-- The operations of an element type `T`: "any field-element type offering add/subtract/multiply" and
`ONE_T` (R11, R95). -/
structure FieldOps (α : Type) where
  add : α → α → α
  sub : α → α → α
  mul : α → α → α
  one : α

/-- Type `B` (R11). -/
def baseOps : FieldOps Residue where
  add := badd
  sub := bsub
  mul := bmul
  one := Residue.one

/-- The loop of `pow_T` (R61); the first argument bounds the number of rounds. -/
def powLoop {α : Type} (T : FieldOps α) : Nat → α → α → Nat → α
  | 0, acc, _, _ => acc
  | fuel + 1, acc, base, e =>
    if e = 0 then acc
    else powLoop T fuel (if e % 2 = 1 then T.mul acc base else acc) (T.mul base base) (e >>> 1)

/-- `pow_T(x, n)`: square-and-multiply from the least significant bit; `pow_T(x, 0) = ONE_T` for every `x`
(R61). The exponent has `log2 n + 1` bits, so that many rounds are enough. -/
def pow {α : Type} (T : FieldOps α) (x : α) (n : Nat) : α := powLoop T (n.log2 + 1) T.one x n

/-- `bpow(x, n) = x^n mod P`, the exponent a raw integer, "not reduced in any way" (R62). -/
def bpow (x : Residue) (n : Nat) : Residue := pow baseOps x n

/-- BPOW (R62). -/
def execBpow (d a e : Nat) (s : State) : Host.Outcome State Fault Refusal :=
  s.finish d (s.powerWords baseFormat (fun x n => .ok (bpow x n)) d a e)

end Sys2Proof.Machine
end

