-- ==== Sys2Proof/Machine/ModularInverter.lean ====
section
/-! DEFINITION. The unit modular_inverter (spec/43_modular_inverter.md): BINV, BDIV. -/

namespace Sys2Proof.Machine

/-- `binv(a) = pow_B(a, P − 2)` for `a ≠ 0`; for 0 it fails and no default gets out (R65, R68). -/
def binv (a : Residue) : Except Stop Residue :=
  if a = Residue.zero then .error (.status .zeroDivisor) else .ok (pow baseOps a (P - 2))

/-- `bdiv(a, b) = bmul(a, binv(b))`; fails as `binv` does when `b = 0`, whatever `a` is (R66). -/
def bdiv (a b : Residue) : Except Stop Residue := (binv b).map (bmul a)

/-- BINV (R65). -/
def execBinv (d a : Nat) (s : State) : Host.Outcome State Fault Refusal :=
  s.finish d (s.unaryWords baseFormat binv d a)

/-- BDIV: `SRC1 / SRC2` (R66). -/
def execBdiv (d a b : Nat) (s : State) : Host.Outcome State Fault Refusal :=
  s.finish d (s.binaryWords baseFormat bdiv d a b)

end Sys2Proof.Machine
end

