-- ==== Sys2Proof/Machine/RootOfUnity.lean ====
section
/-! DEFINITION. The unit root_of_unity_generator (spec/44_root_of_unity.md): `ordered_root` and BROOT. -/

namespace Sys2Proof.Machine

/-- `ordered_root(n) = pow_B(H, 2^32 div n)`; fails when `n = 0`, or `n` is not a power of two, or
`n > 2^32` (R69). -/
def orderedRoot (c : Config) (n : Nat) : Except Stop Residue :=
  if n = 0 ∨ ¬ ispow2 n ∨ n > 2 ^ twoAdicity then .error (.status .orderedRootError)
  else .ok (pow baseOps c.generator (2 ^ twoAdicity / n))

/-- BROOT (R70). -/
def execBroot (d a : Nat) (s : State) : Host.Outcome State Fault Refusal :=
  s.finish d (s.rootWords (orderedRoot s.hw) d a)

end Sys2Proof.Machine
end

