-- ==== Sys2Proof/Machine/FieldExtension.lean ====
section
/-! DEFINITION. The unit field_extension_ops (spec/45_field_extension.md): EADD, ESUB, ENEG, EMUL, EPOW,
EINV, EDIV. An element is the list of its `K` coefficients, lowest degree first (R74, R75). -/

namespace Sys2Proof.Machine

/-- Coefficient `i` of a list of coefficients. -/
def coeff (a : List Residue) (i : Nat) : Residue := a.getD i Residue.zero

/-- `ZERO_E = [0, …, 0]` (R75). -/
def extZero (c : Config) : List Residue := List.replicate c.degree Residue.zero

/-- `lift(r) = [r, 0, …, 0]` (R76). -/
def lift (c : Config) (r : Residue) : List Residue := r :: List.replicate (c.degree - 1) Residue.zero

/-- `ONE_E = [1, 0, …, 0]` (R75). -/
def extOne (c : Config) : List Residue := lift c Residue.one

/-- `eadd`, componentwise, no carry between coefficients (R77). -/
def eadd (a b : List Residue) : List Residue := List.zipWith badd a b

/-- `esub`, componentwise (R78). -/
def esub (a b : List Residue) : List Residue := List.zipWith bsub a b

/-- `eneg`, componentwise (R79). -/
def eneg (a : List Residue) : List Residue := a.map bneg

/-- `d[k] = badd(d[k], x)`. -/
def addAt (d : List Residue) (k : Nat) (x : Residue) : List Residue := d.set k (badd (coeff d k) x)

/-- `d[k] = bsub(d[k], x)`. -/
def subAt (d : List Residue) (k : Nat) (x : Residue) : List Residue := d.set k (bsub (coeff d k) x)

/-- The convolution of R80: "for i = 0 … K−1: for j = 0 … K−1: d[i+j] = badd(d[i+j], bmul(a[i], b[j]))", on
`2K − 1` coefficients. -/
def convolve (k : Nat) (a b : List Residue) : List Residue :=
  (List.range k).foldl
    (fun d i => (List.range k).foldl (fun d j => addAt d (i + j) (bmul (coeff a i) (coeff b j))) d)
    (List.replicate (2 * k - 1) Residue.zero)

/-- One round of the reduction of R80, at the coefficient `t ≥ K`: "q = d[t]; d[t] = 0; for i = 0 … K−1:
d[t−K+i] = bsub(d[t−K+i], bmul(q, M[i]))". -/
def reduceRound (c : Config) (d : List Residue) (t : Nat) : List Residue :=
  (List.range c.degree).foldl
    (fun e i => subAt e (t - c.degree + i) (bmul (coeff d t) (coeff c.poly i)))
    (d.set t Residue.zero)

/-- The reduction of R80: "for t = 2K−2 down to K", then the low `K` coefficients. -/
def reduceModulus (c : Config) (d : List Residue) : List Residue :=
  ((List.range (c.degree - 1)).foldl (fun d u => reduceRound c d (2 * c.degree - 2 - u)) d).take c.degree

/-- `emul(a, b)`: convolution, then reduction modulo `m(x)` (R80). -/
def emul (c : Config) (a b : List Residue) : List Residue := reduceModulus c (convolve c.degree a b)

/-- Type `E` (R11). -/
def extOps (c : Config) : FieldOps (List Residue) where
  add := eadd
  sub := esub
  mul := emul c
  one := extOne c

/-- `epow(x, n) = pow_E(x, n)` (R82). -/
def epow (c : Config) (x : List Residue) (n : Nat) : List Residue := pow (extOps c) x n

/-- `einv(a)`: fails when all coefficients are 0, else `pow_E(a, P^K − 2)` (R83; log 14). -/
def einv (c : Config) (a : List Residue) : Except Stop (List Residue) :=
  if a.all (· = Residue.zero) then .error (.status .zeroDivisor)
  else .ok (pow (extOps c) a (P ^ c.degree - 2))

/-- `ediv(a, b) = emul(a, einv(b))` (R85). -/
def ediv (c : Config) (a b : List Residue) : Except Stop (List Residue) := (einv c b).map (emul c a)

/-- EADD (R77). -/
def execEadd (d a b : Nat) (s : State) : Host.Outcome State Fault Refusal :=
  s.finish d (s.binaryWords (extFormat s.hw) (fun x y => .ok (eadd x y)) d a b)

/-- ESUB (R78). -/
def execEsub (d a b : Nat) (s : State) : Host.Outcome State Fault Refusal :=
  s.finish d (s.binaryWords (extFormat s.hw) (fun x y => .ok (esub x y)) d a b)

/-- ENEG (R79). -/
def execEneg (d a : Nat) (s : State) : Host.Outcome State Fault Refusal :=
  s.finish d (s.unaryWords (extFormat s.hw) (fun x => .ok (eneg x)) d a)

/-- EMUL (R81). -/
def execEmul (d a b : Nat) (s : State) : Host.Outcome State Fault Refusal :=
  s.finish d (s.binaryWords (extFormat s.hw) (fun x y => .ok (emul s.hw x y)) d a b)

/-- EPOW (R82). -/
def execEpow (d a e : Nat) (s : State) : Host.Outcome State Fault Refusal :=
  s.finish d (s.powerWords (extFormat s.hw) (fun x n => .ok (epow s.hw x n)) d a e)

/-- EINV (R84). -/
def execEinv (d a : Nat) (s : State) : Host.Outcome State Fault Refusal :=
  s.finish d (s.unaryWords (extFormat s.hw) (einv s.hw) d a)

/-- EDIV (R85). -/
def execEdiv (d a b : Nat) (s : State) : Host.Outcome State Fault Refusal :=
  s.finish d (s.binaryWords (extFormat s.hw) (ediv s.hw) d a b)

end Sys2Proof.Machine
end

