-- ==== Sys2Proof/Machine/TwiddleFactor.lean ====
section
/-! DEFINITION. The unit twiddle_factor_multiplier (spec/46_twiddle_factor.md): its three actions inside
the transform. Its two working values, the stage step and the running twiddle, are "internal and not
architectural" (R89). -/

namespace Sys2Proof.Machine

/-- `SetStage(len)`: "`step = pow_T(root, n div len)`" (R90). -/
def stageStep {α : Type} (T : FieldOps α) (root : α) (n len : Nat) : α := pow T root (n / len)

/-- `StartBlock()`: "At the start of every block of every stage, `w = ONE_T`" (R91). -/
def startBlock {α : Type} (T : FieldOps α) : α := T.one

/-- `Twiddle(v)`: "`t = mul_T(v, w)`" (R92). -/
def twiddle {α : Type} (T : FieldOps α) (v w : α) : α := T.mul v w

/-- `Advance()`: "`w = mul_T(w, step)`" (R93). -/
def advance {α : Type} (T : FieldOps α) (w step : α) : α := T.mul w step

end Sys2Proof.Machine
end

