-- ==== Sys2Proof/Machine/Radix2Ntt.lean ====
section
/-! DEFINITION. The unit radix2_ntt_decimation_in_time (spec/47_ntt.md): the one kernel `transform_T` and
the commands NTT, NTTR, ENTT, ENTTR. -/

namespace Sys2Proof.Machine

/-- The inner loop of R98: "while (j AND bit) ≠ 0: j = j XOR bit; bit = bit >> 1", then "j = j XOR bit"; the
first argument bounds the number of rounds. -/
def bitReverseNext : Nat → Nat → Nat → Nat
  | 0, j, bit => j ^^^ bit
  | fuel + 1, j, bit => if j &&& bit ≠ 0 then bitReverseNext fuel (j ^^^ bit) (bit >>> 1) else j ^^^ bit

/-- "swap seq[i], seq[j]", whole elements (R98). -/
def swapAt {α : Type} (seq : List α) (i j : Nat) : List α :=
  match seq[i]?, seq[j]? with
  | some x, some y => (seq.set i y).set j x
  | _, _ => seq

/-- `BitReverse(seq, n)` (R98): for `i = 1 … n−1` the next `j`, and a swap "only when i < j". -/
def bitReverse {α : Type} (seq : List α) : List α :=
  ((List.range' 1 (seq.length - 1)).foldl
    (fun (js : Nat × List α) i =>
      let j := bitReverseNext (seq.length.log2 + 1) js.1 (seq.length >>> 1)
      (j, if i < j then swapAt js.2 i j else js.2))
    (0, seq)).2

/-- One butterfly of R100 and R102 at the offset `i` of the block at `base`, on the sequence and the running
twiddle: both elements are read before either is written. The indices are inside the sequence. -/
def butterfly {α : Type} (T : FieldOps α) (step : α) (half base : Nat) (sw : List α × α) (i : Nat) :
    List α × α :=
  match sw.1[base + i]?, sw.1[base + i + half]? with
  | some u, some v =>
    ((sw.1.set (base + i) (T.add u (twiddle T v sw.2))).set (base + i + half) (T.sub u (twiddle T v sw.2)),
      advance T sw.2 step)
  | _, _ => (sw.1, advance T sw.2 step)

/-- One block: "offset 0 upward", the twiddle starting at the identity (R91, R101, R102). -/
def block {α : Type} (T : FieldOps α) (step : α) (half : Nat) (seq : List α) (base : Nat) : List α :=
  ((List.range half).foldl (butterfly T step half base) (seq, startBlock T)).1

/-- One stage of block length `len`: the blocks at `0, len, 2·len, …`, left to right (R101, R102). -/
def stage {α : Type} (T : FieldOps α) (root : α) (n : Nat) (seq : List α) (len : Nat) : List α :=
  (List.range (n / len)).foldl (fun seq b => block T (stageStep T root n len) (len / 2) seq (b * len)) seq

/-- `transform_T(seq, root)` (R102): bit reversal, then the `log2(n)` stages `len = 2, 4, …, n` (R100) in
increasing order (R101). -/
def transform {α : Type} (T : FieldOps α) (root : α) (seq : List α) : List α :=
  (List.range seq.length.log2).foldl (fun seq' k => stage T root seq.length seq' (2 ^ (k + 1))) (bitReverse seq)

/-- NTT: residues, root derived from the length (R103). -/
def execNtt (d a : Nat) (s : State) : Host.Outcome State Fault Refusal :=
  s.finish d (s.transformWords baseFormat (.ok ()) (orderedRoot s.hw) (transform baseOps) d a)

/-- NTTR: residues, root supplied, not checked (R104, R110). The root is read as a residue for every length (R97
step 5, R30), also for `n = 1`, where no stage uses it (log 5). -/
def execNttr (d a r : Nat) (s : State) : Host.Outcome State Fault Refusal :=
  s.finish d (s.transformWords baseFormat (s.checkRange r baseFormat.width)
    (fun _ => s.fetchElement baseFormat r) (transform baseOps) d a)

/-- ENTT: extension elements, the derived root entering as `lift(r)` (R105). -/
def execEntt (d a : Nat) (s : State) : Host.Outcome State Fault Refusal :=
  s.finish d (s.transformWords (extFormat s.hw) (.ok ()) (fun n => (orderedRoot s.hw n).map (lift s.hw))
    (transform (extOps s.hw)) d a)

/-- ENTTR: extension elements, root supplied, an extension element, not checked (R106, R110). -/
def execEnttr (d a r : Nat) (s : State) : Host.Outcome State Fault Refusal :=
  s.finish d (s.transformWords (extFormat s.hw) (s.checkRange r (extFormat s.hw).width)
    (fun _ => s.fetchElement (extFormat s.hw) r) (transform (extOps s.hw)) d a)

end Sys2Proof.Machine
end

