-- ==== Sys2Proof/Machine/Dispatch.lean ====
section
/-! DEFINITION. Which meaning each command has: one arm per constructor of Instr
(spec/30_encoding.md R42, R49). -/

namespace Sys2Proof.Machine

def exec (i : Instr) (s : State) : Host.Outcome State Fault Refusal :=
  match i with
  | .badd d a b => Sys2Proof.Machine.execBadd d a b s
  | .bsub d a b => Sys2Proof.Machine.execBsub d a b s
  | .bneg d a => Sys2Proof.Machine.execBneg d a s
  | .bmul d a b => Sys2Proof.Machine.execBmul d a b s
  | .bpow d a b => Sys2Proof.Machine.execBpow d a b s
  | .binv d a => Sys2Proof.Machine.execBinv d a s
  | .bdiv d a b => Sys2Proof.Machine.execBdiv d a b s
  | .broot d a => Sys2Proof.Machine.execBroot d a s
  | .eadd d a b => Sys2Proof.Machine.execEadd d a b s
  | .esub d a b => Sys2Proof.Machine.execEsub d a b s
  | .eneg d a => Sys2Proof.Machine.execEneg d a s
  | .emul d a b => Sys2Proof.Machine.execEmul d a b s
  | .epow d a b => Sys2Proof.Machine.execEpow d a b s
  | .einv d a => Sys2Proof.Machine.execEinv d a s
  | .ediv d a b => Sys2Proof.Machine.execEdiv d a b s
  | .ntt d a => Sys2Proof.Machine.execNtt d a s
  | .nttr d a b => Sys2Proof.Machine.execNttr d a b s
  | .entt d a => Sys2Proof.Machine.execEntt d a s
  | .enttr d a b => Sys2Proof.Machine.execEnttr d a b s

end Sys2Proof.Machine
end

