-- ==== Sys2Proof/Machine/CommandPort.lean ====
section
/-! DEFINITION. One transaction on the command port (spec/30_encoding.md R39, R44, R49). -/

namespace Sys2Proof.Machine

/-- The host presents one command word: decode and legality (R49 steps 1 and 2), then the command's meaning.
An illegal word raises `ILLEGAL_COMMAND` "before touching `MEM`" (R44). -/
def runCommand (w : CommandWord) (s : State) : Host.Outcome State Fault Refusal :=
  match decode w with
  | .ok i => exec i s
  | .error _ => .next (s.fail .illegalCommand)

end Sys2Proof.Machine
end

