-- ==== Sys2Proof/Machine/Step.lean ====
section
/-! DEFINITION. One step of the machine: the next event at the hardware's ports (spec/30_encoding.md R39,
R49, R51, spec/20_memory.md R35, R36, spec/70_reset_and_hazards.md R127). A command is one step (R31). -/

namespace Sys2Proof.Machine

/-- One step: the oldest input happens. With no input the engine is idle, "and `MEM` and `STATUS` keep their
values" (R126; log 3). -/
def step (s : State) : Host.Outcome State Fault Refusal :=
  match s.inputs with
  | [] => .next s
  | .command w :: rest => runCommand w { s with inputs := rest }
  | .write a v :: rest => { s with inputs := rest }.hostWrite a v
  | .read a :: rest => { s with inputs := rest }.hostRead a
  | .readStatus :: rest => .next { s with inputs := rest }.hostReadStatus
  | .reset _ image :: rest => .next ({ s with inputs := rest }.hostReset image)

/-- The command whose bits are `w` (those above `nbits` zero) as the next thing the host presents: "Commands
are not fetched: the host presents each one on the command port" (R18; log 3). -/
def State.withFetchWord (s : State) (nbits w : Nat) : State :=
  { s with inputs := .command (BitVec.ofNat 128 (w % 2 ^ nbits)) :: s.inputs }

end Sys2Proof.Machine
end

