-- ==== Sys2Proof/Machine/Assembler.lean ====
section
/-! DEFINITION. Programs as they are written down (spec/30_encoding.md R47, R48) and the run of one
(spec/70_reset_and_hazards.md R140). Nothing here is hardware: it turns text into what the host does at the
ports. Text is a list of characters. -/

namespace Sys2Proof.Machine

/-! ## The textual form of a command (R47; log 20) -/

/-- A space or a tab. -/
def isBlank (c : Char) : Bool := c == ' ' || c == '\t'

/-- The text without the blanks at its ends. -/
def trimBlanks (cs : List Char) : List Char := ((cs.dropWhile isBlank).reverse.dropWhile isBlank).reverse

/-- The parts of a text between occurrences of a character. -/
def splitAtChar (sep : Char) : List Char → List (List Char)
  | [] => [[]]
  | c :: cs =>
    match splitAtChar sep cs with
    | [] => [[]]
    | part :: parts => if c = sep then [] :: part :: parts else (c :: part) :: parts

/-- The value of a digit, decimal or hexadecimal. -/
def digitValue (c : Char) : Option Nat :=
  if 48 ≤ c.toNat ∧ c.toNat ≤ 57 then some (c.toNat - 48)
  else if 65 ≤ c.toNat ∧ c.toNat ≤ 70 then some (c.toNat - 55)
  else if 97 ≤ c.toNat ∧ c.toNat ≤ 102 then some (c.toNat - 87)
  else none

/-- A number in a base, most significant digit first. -/
def parseDigits (base : Nat) : Nat → List Char → Option Nat
  | acc, [] => some acc
  | acc, c :: cs =>
    match digitValue c with
    | some v => if v < base then parseDigits base (acc * base + v) cs else none
    | none => none

/-- "a decimal number or a `0x` hexadecimal number" (R47). -/
def parseNumber : List Char → Option Nat
  | '0' :: 'x' :: c :: cs => parseDigits 16 0 (c :: cs)
  | c :: cs => parseDigits 10 0 (c :: cs)
  | [] => none

/-- The command of a mnemonic, "in upper case", with its operands in the order `DST, SRC1[, SRC2]` (R43, R47). -/
def commandOf : List Char → List Nat → Option Instr
  | ['B', 'A', 'D', 'D'], [d, a, b] => some (.badd d a b)
  | ['B', 'S', 'U', 'B'], [d, a, b] => some (.bsub d a b)
  | ['B', 'N', 'E', 'G'], [d, a] => some (.bneg d a)
  | ['B', 'M', 'U', 'L'], [d, a, b] => some (.bmul d a b)
  | ['B', 'P', 'O', 'W'], [d, a, b] => some (.bpow d a b)
  | ['B', 'I', 'N', 'V'], [d, a] => some (.binv d a)
  | ['B', 'D', 'I', 'V'], [d, a, b] => some (.bdiv d a b)
  | ['B', 'R', 'O', 'O', 'T'], [d, a] => some (.broot d a)
  | ['E', 'A', 'D', 'D'], [d, a, b] => some (.eadd d a b)
  | ['E', 'S', 'U', 'B'], [d, a, b] => some (.esub d a b)
  | ['E', 'N', 'E', 'G'], [d, a] => some (.eneg d a)
  | ['E', 'M', 'U', 'L'], [d, a, b] => some (.emul d a b)
  | ['E', 'P', 'O', 'W'], [d, a, b] => some (.epow d a b)
  | ['E', 'I', 'N', 'V'], [d, a] => some (.einv d a)
  | ['E', 'D', 'I', 'V'], [d, a, b] => some (.ediv d a b)
  | ['N', 'T', 'T'], [d, a] => some (.ntt d a)
  | ['N', 'T', 'T', 'R'], [d, a, b] => some (.nttr d a b)
  | ['E', 'N', 'T', 'T'], [d, a] => some (.entt d a)
  | ['E', 'N', 'T', 'T', 'R'], [d, a, b] => some (.enttr d a b)
  | _, _ => none

/-- The mnemonic of a command, as text (R47). -/
def mnemonicChars : Instr → List Char
  | .badd .. => ['B', 'A', 'D', 'D']
  | .bsub .. => ['B', 'S', 'U', 'B']
  | .bneg .. => ['B', 'N', 'E', 'G']
  | .bmul .. => ['B', 'M', 'U', 'L']
  | .bpow .. => ['B', 'P', 'O', 'W']
  | .binv .. => ['B', 'I', 'N', 'V']
  | .bdiv .. => ['B', 'D', 'I', 'V']
  | .broot .. => ['B', 'R', 'O', 'O', 'T']
  | .eadd .. => ['E', 'A', 'D', 'D']
  | .esub .. => ['E', 'S', 'U', 'B']
  | .eneg .. => ['E', 'N', 'E', 'G']
  | .emul .. => ['E', 'M', 'U', 'L']
  | .epow .. => ['E', 'P', 'O', 'W']
  | .einv .. => ['E', 'I', 'N', 'V']
  | .ediv .. => ['E', 'D', 'I', 'V']
  | .ntt .. => ['N', 'T', 'T']
  | .nttr .. => ['N', 'T', 'T', 'R']
  | .entt .. => ['E', 'N', 'T', 'T']
  | .enttr .. => ['E', 'N', 'T', 'T', 'R']

/-- The decimal digits of a number. -/
def decimalChars (n : Nat) : List Char := Nat.toDigits 10 n

/-- `MNEMONIC op1, op2[, op3]` with decimal operands (R47). -/
def printCommand (i : Instr) : List Char :=
  mnemonicChars i ++ [' '] ++ decimalChars i.dst ++ [',', ' '] ++ decimalChars i.src1 ++
    match i.src2? with
    | some b => [',', ' '] ++ decimalChars b
    | none => []

/-! ## Written programs (R47, R48) -/

/-- One line of a written program. -/
inductive Line where
  /-- Nothing, or a comment. -/
  | blank
  /-- `.word a, v`: a host write before the first command (R48). -/
  | word (a : Nat) (v : Word)
  /-- `.expect a, v`: what a host read after the last command returns (R48). -/
  | expect (a : Nat) (v : Word)
  /-- A command (R47). -/
  | command (i : Instr)
  deriving DecidableEq, Repr

/-- One line: "A `;` starts a comment to the end of the line"; a directive of R48 or a well-formed command of R47. -/
def parseLine (cs : List Char) : Option Line :=
  let text := trimBlanks (cs.takeWhile (· ≠ ';'))
  let name := text.takeWhile fun c => !isBlank c
  if text = [] then some .blank
  else
    match (splitAtChar ',' (text.dropWhile fun c => !isBlank c)).mapM fun part => parseNumber (trimBlanks part) with
    | none => none
    | some operands =>
      match name, operands with
      | ['.', 'w', 'o', 'r', 'd'], [a, v] =>
        if a < 2 ^ 32 ∧ v < 2 ^ 64 then some (.word a (BitVec.ofNat 64 v)) else none
      | ['.', 'e', 'x', 'p', 'e', 'c', 't'], [a, v] =>
        if a < 2 ^ 32 ∧ v < 2 ^ 64 then some (.expect a (BitVec.ofNat 64 v)) else none
      | _, _ =>
        match commandOf name operands with
        | some i => if i.wellFormed then some (.command i) else none
        | none => none

/-- A written program: its host writes, its commands, what it expects (R48). DESIGN CHOICE (log 21): a command is
held as its command word, and any 128-bit word may stand there, legal or not, as in program 3.3 of
spec/95_test_vectors.md; in the textual form, which R47 and R48 give for legal commands only, a raw word has no
line. -/
structure Program where
  /-- `.word a, v` (R48). -/
  words : List (Nat × Word)
  /-- The command words, in order (R140; log 21). -/
  commands : List CommandWord
  /-- `.expect a, v` (R48). -/
  expects : List (Nat × Word)
  deriving DecidableEq, Repr

/-- The program of a list of lines. -/
def Program.ofLines : List Line → Program
  | [] => { words := [], commands := [], expects := [] }
  | l :: ls =>
    let p := Program.ofLines ls
    match l with
    | .blank => p
    | .word a v => { p with words := (a, v) :: p.words }
    | .expect a v => { p with expects := (a, v) :: p.expects }
    | .command i => { p with commands := encode i :: p.commands }

/-- A program from its text, "one command per line" (R47). -/
def parseProgram (cs : List Char) : Option Program :=
  ((splitAtChar '\n' cs).mapM parseLine).map Program.ofLines

/-! ## The run of a program (R140) -/

/-- What the host does: "the `.word` host writes, then the commands in order" (R140). -/
def Program.events (p : Program) : List HostEvent :=
  p.words.map (fun c => .write c.1 c.2) ++ p.commands.map .command

/-- The run of a program from a state: "The run ends when the status of the last command has been returned" (R140). -/
def Program.run (p : Program) (s : State) : Host.Outcome State Fault Refusal :=
  Host.Core.run Sys2Proof.core p.events.length { s with inputs := p.events }

/-- "the list of the statuses returned" (R140). -/
def State.statusesReturned (s : State) : List (BitVec 8) :=
  s.responses.filterMap fun r =>
    match r with
    | .status code => some code
    | .word _ => none
    | .statusRead _ => none

/-- "`HostRead(a)` after the program's last command returns `v`" (R48). At an address outside `MEM` a `HostRead` has
no meaning (R35), so it returns nothing. -/
def State.hostReadReturns (t : State) (a : Nat) (v : Word) : Bool :=
  match t.hostRead a with
  | .next u => u.responses == t.responses ++ [.word v]
  | .fault _ => false
  | .refused _ => false

/-- Every `.expect` of the program holds in the end state (R48). -/
def Program.metBy (p : Program) (t : State) : Bool := p.expects.all fun c => t.hostReadReturns c.1 c.2

end Sys2Proof.Machine
end

