-- ==== Sys2Proof/Safety.lean ====
section
/-! DEFINITION. What counts as a safe run, in the terms claims use: which words a command reads and writes
(spec/20_memory.md R30), the duties of the host (spec/60_exceptions.md R123, R125), and the invariant of
the state. -/

namespace Sys2Proof.Machine

/-- `n` addresses from `a` on. -/
abbrev addresses (a n : Nat) : List Nat := List.range' a n

/-- The words a command reads as residues, the "R" entries of R30, where the length of a sequence is the
value of the length word. -/
def residueReads (s : State) : Instr → List Nat
  | .badd _ a b | .bsub _ a b | .bmul _ a b | .bdiv _ a b => [a, b]
  | .bneg _ a | .binv _ a | .bpow _ a _ => [a]
  | .broot _ _ => []
  | .eadd _ a b | .esub _ a b | .emul _ a b | .ediv _ a b => addresses a s.hw.degree ++ addresses b s.hw.degree
  | .eneg _ a | .einv _ a | .epow _ a _ => addresses a s.hw.degree
  | .ntt d a => addresses d (s.fetchRaw a)
  | .nttr d a r => [r] ++ addresses d (s.fetchRaw a)
  | .entt d a => addresses d (s.fetchRaw a * s.hw.degree)
  | .enttr d a r => addresses r s.hw.degree ++ addresses d (s.fetchRaw a * s.hw.degree)

/-- The words a command reads as raw integers, the "I" entries of R30. -/
def rawReads : Instr → List Nat
  | .bpow _ _ e | .epow _ _ e => [e]
  | .broot _ a | .ntt _ a | .nttr _ a _ | .entt _ a | .enttr _ a _ => [a]
  | .badd .. | .bsub .. | .bmul .. | .bdiv .. | .bneg .. | .binv .. => []
  | .eadd .. | .esub .. | .emul .. | .ediv .. | .eneg .. | .einv .. => []

/-- How many words a command writes on `OK`, from `DST` on: the "W" column of R30. -/
def writtenCount (s : State) : Instr → Nat
  | .badd .. | .bsub .. | .bmul .. | .bdiv .. | .bneg .. | .binv .. | .bpow .. | .broot .. => 1
  | .eadd .. | .esub .. | .emul .. | .ediv .. | .eneg .. | .einv .. | .epow .. => s.hw.degree
  | .ntt _ a | .nttr _ a _ => s.fetchRaw a
  | .entt _ a | .enttr _ a _ => s.fetchRaw a * s.hw.degree

/-- The ranges known from the command word alone, each as (address, number of words): what R118 item 2
checks before anything is read. -/
def wordRanges (s : State) : Instr → List (Nat × Nat)
  | .badd d a b | .bsub d a b | .bmul d a b | .bdiv d a b | .bpow d a b => [(d, 1), (a, 1), (b, 1)]
  | .bneg d a | .binv d a | .broot d a => [(d, 1), (a, 1)]
  | .eadd d a b | .esub d a b | .emul d a b | .ediv d a b =>
    [(d, s.hw.degree), (a, s.hw.degree), (b, s.hw.degree)]
  | .eneg d a | .einv d a => [(d, s.hw.degree), (a, s.hw.degree)]
  | .epow d a e => [(d, s.hw.degree), (a, s.hw.degree), (e, 1)]
  | .ntt _ a | .entt _ a => [(a, 1)]
  | .nttr _ a r => [(a, 1), (r, 1)]
  | .enttr _ a r => [(a, 1), (r, s.hw.degree)]

/-- The length word of a transform command; none for the other commands (R96). -/
def lengthWord? : Instr → Option Nat
  | .ntt _ a | .nttr _ a _ | .entt _ a | .enttr _ a _ => some a
  | .badd .. | .bsub .. | .bmul .. | .bdiv .. | .bneg .. | .binv .. | .bpow .. | .broot .. => none
  | .eadd .. | .esub .. | .emul .. | .ediv .. | .eneg .. | .einv .. | .epow .. => none

/-- Every range in the list is inside `MEM` (R27). -/
abbrev State.InRange (s : State) (ranges : List (Nat × Nat)) : Prop :=
  ∀ r ∈ ranges, r.1 + r.2 ≤ s.hw.memWords

/-- The host's duty of R123 for one command: every word it reads as a residue is canonical. -/
abbrev State.OperandsCanonical (s : State) (i : Instr) : Prop :=
  ∀ a ∈ residueReads s i, Word.Canonical (s.mem.read a)

/-- The host keeps its duties in the next event: the operands of R123, and of R125 the addresses of the host port.
The duty of R125 that every word a command reads has been written since reset is not among them: such a word reads
as the draw of the reset (R130, U2), which is the model's reading (log 6). That one thing happens at a time needs
no duty here (log 17). -/
def State.HostDuties (s : State) : Prop :=
  match s.inputs with
  | .command w :: _ =>
    match decode w with
    | .ok i => s.OperandsCanonical i
    | .error _ => True
  | .write a _ :: _ => a < s.hw.memWords
  | .read a :: _ => a < s.hw.memWords
  | .readStatus :: _ => True
  | .reset _ _ :: _ => True
  | [] => True

/-- The codes the engine writes: "the engine never writes 4 … nor 7 … 255" (R15, R111). -/
def producedCodes : List (BitVec 8) := [0, 1, 2, 3, 5, 6]

/-- What every step keeps: the constants are an instance of R8, the memory is in canonical form and has no
entry outside the address space, `STATUS` holds a code the engine produces. -/
structure State.Inv (s : State) : Prop where
  hw_admissible : s.hw.Admissible
  mem_wf : s.mem.Wf
  mem_in_space : ∀ c ∈ s.mem.cells, c.1 < s.hw.memWords
  status_produced : s.status ∈ producedCodes

/-- A run of `k` steps in which the host keeps its duties at every step: a safe run. -/
def State.SafeRun : Nat → State → Prop
  | 0, _ => True
  | k + 1, s => s.HostDuties ∧ ∀ t, step s = .next t → State.SafeRun k t

end Sys2Proof.Machine
end

