-- ==== Sys2Proof/Safety/Algebra.lean ====
section
/-! DEFINITION. The mathematics the claims are stated in, independent of how the model computes: the field of
integers modulo `P`, polynomials over it, bit reversal of an index (spec/00_scope.md R10,
spec/45_field_extension.md R74, spec/47_ntt.md R99, R108). -/

namespace Sys2Proof.Machine

/-- The residue as an element of the field of integers modulo `P`. -/
def Residue.toField (r : Residue) : ZMod P := (r.val : ZMod P)

/-- "the list `a = [a_0, a_1, …]` … stands for the polynomial `a_0 + a_1·x + …`" (R74). -/
noncomputable def polyOf : List Residue → Polynomial (ZMod P)
  | [] => 0
  | r :: rs => Polynomial.C (Residue.toField r) + Polynomial.X * polyOf rs

/-- `m(x) = x^K + M[K−1]·x^(K−1) + … + M[1]·x + M[0]` (R74). -/
noncomputable def modulus (c : Config) : Polynomial (ZMod P) :=
  Polynomial.X ^ c.degree +
    ((List.range c.degree).map fun i =>
      Polynomial.C ((c.poly.getD i Residue.zero).val : ZMod P) * Polynomial.X ^ i).sum

/-- "the integer whose `log2(n)`-bit binary form is that of `i` read backwards" (R99), for `n = 2^k`. -/
def reverseBits : Nat → Nat → Nat
  | 0, _ => 0
  | k + 1, i => i % 2 * 2 ^ k + reverseBits k (i / 2)

end Sys2Proof.Machine
end

