-- ==== Sys2Proof/Certificates/Slice0/Obligations.lean ====
section
/-! DEFINITION. The statements about the model. Each says which rule of spec/ it formalises; a state `s`
carries its own constants `s.hw` and its own reset content, so every statement holds for every value of the
parameters and of the draws the spec leaves open. -/

namespace Sys2Proof.Claims

open Sys2Proof.Machine

/-- The encoding of a command that uses all three address fields (R40, R41, R44 (b)): `RSV` zero decodes to the
command with its fields as they stand, `RSV ≠ 0` raises `ILLEGAL_COMMAND`. -/
def ThreeOperandEncoding (opcode : BitVec 8) (mk : Nat → Nat → Nat → Instr) : Prop :=
  ∀ w : CommandWord, CommandWord.opc w = opcode →
    (CommandWord.rsv w = 0 →
      decode w = .ok (mk (CommandWord.dst w).toNat (CommandWord.src1 w).toNat (CommandWord.src2 w).toNat)) ∧
    (CommandWord.rsv w ≠ 0 → ∀ s : State, runCommand w s = .next (s.fail .illegalCommand))

/-- The encoding of a command whose `SRC2` must be zero (R40, R41, R44 (b), (c)). -/
def TwoOperandEncoding (opcode : BitVec 8) (mk : Nat → Nat → Instr) : Prop :=
  ∀ w : CommandWord, CommandWord.opc w = opcode →
    (CommandWord.rsv w = 0 → CommandWord.src2 w = 0 →
      decode w = .ok (mk (CommandWord.dst w).toNat (CommandWord.src1 w).toNat)) ∧
    (CommandWord.rsv w ≠ 0 ∨ CommandWord.src2 w ≠ 0 →
      ∀ s : State, runCommand w s = .next (s.fail .illegalCommand))

/-- The residue `x` stands at the address `a` (R29). -/
abbrev ResidueAt (s : State) (a : Nat) (x : Residue) : Prop := s.mem.read a = x.toWord

/-- The residues `xs` stand at `a, a + 1, …` (R29). -/
abbrev ResiduesAt (s : State) (a : Nat) (xs : List Residue) : Prop :=
  s.mem.readWords a xs.length = xs.map Residue.toWord

/-- The sequence of extension elements `xs` stands at `a, …`, element after element (R29). -/
abbrev ElementsAt (s : State) (a : Nat) (xs : List (List Residue)) : Prop :=
  (∀ x ∈ xs, x.length = s.hw.degree) ∧ ResiduesAt s a xs.flatten

/-- What the twiddle unit delivers inside a transform of `2^k` elements with the root `root` (R90 to R94 (a), R100):
after `i` advances from the start of a block, and after the butterflies of `i` offsets of a block, the running
twiddle is `pow_T(root, i · (n div len))`; and a block, which starts at the identity, replaces the elements `u`
and `v` of each offset by `u + v·w` and `u − v·w` with that `w`, and no element outside the block. -/
def TwiddlesArePowers {α : Type} (T : FieldOps α) (root : α) : Prop :=
  (∀ k j i : Nat, j ≤ k →
    (fun w => advance T w (stageStep T root (2 ^ k) (2 ^ j)))^[i] (startBlock T) =
      pow T root (i * (2 ^ k / 2 ^ j))) ∧
  (∀ (k j base i : Nat) (seq : List α), j + 1 ≤ k → i ≤ 2 ^ j →
    ((List.range i).foldl (butterfly T (stageStep T root (2 ^ k) (2 ^ (j + 1))) (2 ^ j) base)
        (seq, startBlock T)).2 =
      pow T root (i * (2 ^ k / 2 ^ (j + 1)))) ∧
  (∀ (k j base i : Nat) (seq : List α) (u v : α), j + 1 ≤ k → i < 2 ^ j →
    seq[base + i]? = some u → seq[base + i + 2 ^ j]? = some v →
    (block T (stageStep T root (2 ^ k) (2 ^ (j + 1))) (2 ^ j) seq base)[base + i]? =
      some (T.add u (T.mul v (pow T root (i * (2 ^ k / 2 ^ (j + 1)))))) ∧
    (block T (stageStep T root (2 ^ k) (2 ^ (j + 1))) (2 ^ j) seq base)[base + i + 2 ^ j]? =
      some (T.sub u (T.mul v (pow T root (i * (2 ^ k / 2 ^ (j + 1))))))) ∧
  (∀ (k j base p : Nat) (seq : List α), j + 1 ≤ k → p < base ∨ base + 2 ^ (j + 1) ≤ p →
    (block T (stageStep T root (2 ^ k) (2 ^ (j + 1))) (2 ^ j) seq base)[p]? = seq[p]?)

/-- The elements of `xs` at the positions `b, b + 2, …`, `n` of them; inside the sequence for what follows. -/
def everySecond {α : Type} (T : FieldOps α) (n b : Nat) (xs : List α) : List α :=
  (List.range n).map fun j => xs.getD (2 * j + b) T.one

/-- Decimation in time (R98 to R102): the transform of `2^(m+1)` elements from the transforms `E` and `O` of the
elements at even and at odd positions with the root squared: element `k` is `E[k] + O[k]·root^k` and element
`k + 2^m` is `E[k] − O[k]·root^k`. -/
def DecimatesInTime {α : Type} (T : FieldOps α) (root : α) (m : Nat) (xs : List α) : Prop :=
  (transform T root xs).length = 2 ^ (m + 1) ∧
  ∀ k, k < 2 ^ m → ∃ e o,
    (transform T (T.mul root root) (everySecond T (2 ^ m) 0 xs))[k]? = some e ∧
    (transform T (T.mul root root) (everySecond T (2 ^ m) 1 xs))[k]? = some o ∧
    (transform T root xs)[k]? = some (T.add e (T.mul o (pow T root k))) ∧
    (transform T root xs)[k + 2 ^ m]? = some (T.sub e (T.mul o (pow T root k)))

/-- The commands that invert (R112). -/
def inverting : List String := ["BINV", "BDIV", "EINV", "EDIV"]

end Sys2Proof.Claims

open Sys2Proof Sys2Proof.Machine Sys2Proof.Claims

/-! ## Encoding -/

/-- Words of spec/95_test_vectors.md section 2.10 decode as that table says (R40, R42). -/
def Obligations.TableWordsDecodeAsListed : Prop :=
  decode 0x00000030000000200000001000000010 = .ok (.badd 16 32 48) ∧
  decode 0x00000000000000220000001200000012 = .ok (.bneg 18 34) ∧
  decode 0x00000034000000240000001400000014 = .ok (.bpow 20 36 52) ∧
  decode 0x00000000000000270000001700000017 = .ok (.broot 23 39) ∧
  decode 0x0000003E0000002E0000001E00000026 = .ok (.ediv 30 46 62) ∧
  decode 0x000000000000002F0000001F00000030 = .ok (.ntt 31 47) ∧
  decode 0x00000042000000320000002200000033 = .ok (.enttr 34 50 66) ∧
  decode 0xFFFFFFFDFFFFFFFEFFFFFFFF00000010 = .ok (.badd 0xFFFFFFFF 0xFFFFFFFE 0xFFFFFFFD) ∧
  decode 0x00000000000000000000000000000000 = .error .unassignedOpcode ∧
  decode 0x00000001000000000000000280000010 = .error .reservedNonzero ∧
  decode 0x00000009000000080000001000000030 = .error .unusedSrc2Nonzero

/-- Decoding the word of any well-formed command gives the command back, every operand at every value its field
admits (R40, R41, R42, R47). -/
def Obligations.DecodingAnEncodedCommandGivesItBack : Prop :=
  ∀ i : Instr, i.wellFormed = true → decode (encode i) = .ok i

/-- Each legal word has one meaning and each command one word: a word that decodes is the word of the command it
decodes to, and that command is well-formed (R44, R47). -/
def Obligations.EncodingADecodedWordGivesItBack : Prop :=
  ∀ (w : CommandWord) (i : Instr), decode w = .ok i → encode i = w ∧ i.wellFormed = true

/-- A word decodes exactly when it fits a row of the opcode table, and then to a command with that row's mnemonic;
"No word matches two rows" (R52). -/
def Obligations.DecodingFollowsTheOpcodeTable : Prop :=
  (∀ w : CommandWord, ∀ r ∈ opcodeTable, r.fits w = true → ∃ i, decode w = .ok i ∧ i.mnemonic = r.mnemonic) ∧
  (∀ (w : CommandWord) (i : Instr), decode w = .ok i → ∃ r ∈ opcodeTable, r.fits w = true ∧ r.mnemonic = i.mnemonic) ∧
  (∀ w : CommandWord, ∀ r ∈ opcodeTable, ∀ q ∈ opcodeTable, r.fits w = true → q.fits w = true → r = q)

/-- The illegal words are exactly those of R44 (a), (b), (c), and an illegal word raises `ILLEGAL_COMMAND` in every
state: `STATUS` is 6, the code is returned, nothing else changes. -/
def Obligations.IllegalWordsRaiseIllegalCommand : Prop :=
  ∀ w : CommandWord,
    ((∃ e, decode w = .error e) ↔
      (CommandWord.opc w ∉ [0x10, 0x11, 0x12, 0x13, 0x14, 0x15, 0x16, 0x17, 0x20, 0x21, 0x22, 0x23, 0x24, 0x25,
          0x26, 0x30, 0x31, 0x32, 0x33] ∨
        CommandWord.rsv w ≠ 0 ∨
        (CommandWord.opc w ∈ [0x12, 0x15, 0x17, 0x22, 0x25, 0x30, 0x32] ∧ CommandWord.src2 w ≠ 0))) ∧
    ((∃ e, decode w = .error e) → ∀ s : State,
      runCommand w s = .next { s with status := 6, responses := s.responses ++ [.status 6] })

/-- The textual form of a command names it: its name is the mnemonic of the opcode table, and reading a line printed
for a well-formed command gives the command (R47; blanks: the model's choice, log 20). -/
def Obligations.PrintedCommandsAreReadBack : Prop :=
  (∀ i : Instr, mnemonicChars i = i.mnemonic.toList) ∧
  ∀ i : Instr, i.wellFormed = true → parseLine (printCommand i) = some (.command i)

/-! ## The step and the host's ports -/

/-- A step whose next input is a word that decodes to `i` is `exec` of `i`, the input taken off; and the word that
`withFetchWord` places is the next one (R39, R49, R51). -/
def Obligations.StepRunsTheDecodedCommand : Prop :=
  (∀ (s : State) (w : CommandWord) (rest : List HostEvent) (i : Instr),
    s.inputs = .command w :: rest → decode w = .ok i → step s = exec i { s with inputs := rest }) ∧
  (∀ (s : State) (w : CommandWord) (i : Instr),
    decode w = .ok i → step (s.withFetchWord 128 w.toNat) = exec i s)

/-- With no input the engine is idle and everything keeps its value (R126). That a step then changes nothing is the
model's convention (log 3). -/
def Obligations.IdleStepChangesNothing : Prop :=
  ∀ s : State, s.inputs = [] → step s = .next s

/-- The host memory port (R35, R32): `HostWrite(a, v)` makes the word at `a` read `v` and leaves every other word;
`HostRead(a)` answers the word at `a` and leaves every word; neither touches `STATUS`; at an address outside `MEM`
neither has a meaning and the step is refused. A read of `STATUS` answers its value and changes nothing (R15, R132);
that it is an event of its own is the model's choice (log 10). -/
def Obligations.HostPortReadsAndWritesOneWord : Prop :=
  (∀ (s : State) (a : Nat) (v : Word) (rest : List HostEvent), s.mem.Wf → s.inputs = .write a v :: rest →
    (a < s.hw.memWords → ∃ t, step s = .next t ∧ t.mem.read a = v ∧
      (∀ b, b ≠ a → t.mem.read b = s.mem.read b) ∧
      t.hw = s.hw ∧ t.status = s.status ∧ t.inputs = rest ∧ t.responses = s.responses) ∧
    (¬ a < s.hw.memWords → step s = .refused (.hostAddressOutOfRange a))) ∧
  (∀ (s : State) (a : Nat) (rest : List HostEvent), s.inputs = .read a :: rest →
    (a < s.hw.memWords →
      step s = .next { s with inputs := rest, responses := s.responses ++ [.word (s.mem.read a)] }) ∧
    (¬ a < s.hw.memWords → step s = .refused (.hostAddressOutOfRange a))) ∧
  (∀ (s : State) (rest : List HostEvent), s.inputs = .readStatus :: rest →
    step s = .next { s with inputs := rest, responses := s.responses ++ [.statusRead s.status] })

/-- "A result written by a command is visible … to the next `HostRead`" (R137, R36 (c)): after the words `ws` are
committed at `d`, a host read of any of their addresses answers the word. -/
def Obligations.HostReadSeesCommittedResults : Prop :=
  ∀ (s : State) (d : Nat) (ws : List Word) (k : Nat) (rest : List HostEvent) (hk : k < ws.length),
    s.mem.Wf → d + ws.length ≤ s.hw.memWords → s.inputs = .read (d + k) :: rest →
    ∃ t, step (s.commit d ws) = .next t ∧ t.responses = s.responses ++ [.status 0, .word ws[k]] ∧
      t.mem = (s.commit d ws).mem

/-- Reset (R127, R128), while idle or with any command in progress: `STATUS` is 0, every word of `MEM` is that of the
draw the event carries (log 8), the constants are unchanged, no status is returned for an abandoned command. -/
def Obligations.ResetInputClearsStatusAndRedrawsMemory : Prop :=
  ∀ (s : State) (inProgress : Option CommandWord) (image : Nat) (rest : List HostEvent),
    s.inputs = .reset inProgress image :: rest →
    ∃ t, step s = .next t ∧ t.status = 0 ∧ t.hw = s.hw ∧ t.responses = s.responses ∧ t.inputs = rest ∧
      t.mem.cells = [] ∧ ∀ a, (t.mem.read a).toNat = image / 2 ^ (64 * a) % 2 ^ 64

/-- The machine after reset (R23, R128): `STATUS` is 0 and the engine idle; every word of `MEM` is the word of the
free reset content (log 2) and the constants are an admissible instance (log 1). -/
def Obligations.ResetStateIsAsTheSpecSays : Prop :=
  State.reset.status = 0 ∧ State.reset.inputs = [] ∧ State.reset.responses = [] ∧ State.reset.mem.cells = [] ∧
  (∀ a, (State.reset.mem.read a).toNat = Config.powerOnImage / 2 ^ (64 * a) % 2 ^ 64) ∧
  State.reset.hw.Admissible

/-! ## What each command does

Each: its encoding, its range failures, its own failures, its result. Sources and destination may overlap in any
way (R33): nothing below says they do not. -/

/-- BADD (R53). -/
def Obligations.BaddAddsModuloP : Prop :=
  ThreeOperandEncoding 0x10 .badd ∧
  (∀ (s : State) (d a b : Nat), ¬ s.InRange [(d, 1), (a, 1), (b, 1)] →
    exec (.badd d a b) s = .next (s.fail .badAddress)) ∧
  (∀ (s : State) (d a b : Nat) (x y : Residue), s.InRange [(d, 1), (a, 1), (b, 1)] →
    ResidueAt s a x → ResidueAt s b y →
    exec (.badd d a b) s = .next (s.commit d [BitVec.ofNat 64 ((x.val + y.val) % P)]))

/-- BSUB (R54): "a − b if a ≥ b, else a − b + P". -/
def Obligations.BsubSubtractsModuloP : Prop :=
  ThreeOperandEncoding 0x11 .bsub ∧
  (∀ (s : State) (d a b : Nat), ¬ s.InRange [(d, 1), (a, 1), (b, 1)] →
    exec (.bsub d a b) s = .next (s.fail .badAddress)) ∧
  (∀ (s : State) (d a b : Nat) (x y : Residue), s.InRange [(d, 1), (a, 1), (b, 1)] →
    ResidueAt s a x → ResidueAt s b y →
    exec (.bsub d a b) s =
      .next (s.commit d [BitVec.ofNat 64 (if y.val ≤ x.val then x.val - y.val else x.val + P - y.val)]))

/-- BNEG (R55): "0 if a = 0, else P − a". -/
def Obligations.BnegNegatesModuloP : Prop :=
  TwoOperandEncoding 0x12 .bneg ∧
  (∀ (s : State) (d a : Nat), ¬ s.InRange [(d, 1), (a, 1)] →
    exec (.bneg d a) s = .next (s.fail .badAddress)) ∧
  (∀ (s : State) (d a : Nat) (x : Residue), s.InRange [(d, 1), (a, 1)] → ResidueAt s a x →
    exec (.bneg d a) s = .next (s.commit d [BitVec.ofNat 64 (if x.val = 0 then 0 else P - x.val)]))

/-- BMUL (R58): the remainder of the exact product. -/
def Obligations.BmulMultipliesModuloP : Prop :=
  ThreeOperandEncoding 0x13 .bmul ∧
  (∀ (s : State) (d a b : Nat), ¬ s.InRange [(d, 1), (a, 1), (b, 1)] →
    exec (.bmul d a b) s = .next (s.fail .badAddress)) ∧
  (∀ (s : State) (d a b : Nat) (x y : Residue), s.InRange [(d, 1), (a, 1), (b, 1)] →
    ResidueAt s a x → ResidueAt s b y →
    exec (.bmul d a b) s = .next (s.commit d [BitVec.ofNat 64 ((x.val * y.val) % P)]))

/-- BPOW (R62): `x^n mod P` for every raw 64-bit exponent, 0 and `x = 0` among them. -/
def Obligations.BpowRaisesToTheRawExponent : Prop :=
  ThreeOperandEncoding 0x14 .bpow ∧
  (∀ (s : State) (d a e : Nat), ¬ s.InRange [(d, 1), (a, 1), (e, 1)] →
    exec (.bpow d a e) s = .next (s.fail .badAddress)) ∧
  (∀ (s : State) (d a e : Nat) (x : Residue), s.InRange [(d, 1), (a, 1), (e, 1)] → ResidueAt s a x →
    exec (.bpow d a e) s = .next (s.commit d [BitVec.ofNat 64 (x.val ^ (s.mem.read e).toNat % P)]))

/-- BINV (R65): the unique `c` with `a · c = 1`, which is `a^(P−2)`; zero raises `ZERO_DIVISOR`. -/
def Obligations.BinvInvertsOrRaisesZeroDivisor : Prop :=
  TwoOperandEncoding 0x15 .binv ∧
  (∀ (s : State) (d a : Nat), ¬ s.InRange [(d, 1), (a, 1)] →
    exec (.binv d a) s = .next (s.fail .badAddress)) ∧
  (∀ (s : State) (d a : Nat), s.InRange [(d, 1), (a, 1)] → s.mem.read a = 0 →
    exec (.binv d a) s = .next (s.fail .zeroDivisor)) ∧
  (∀ (s : State) (d a : Nat) (x : Residue), s.InRange [(d, 1), (a, 1)] → ResidueAt s a x → x.val ≠ 0 →
    ∃ c : Residue, (x.val * c.val) % P = 1 ∧ (∀ e : Residue, (x.val * e.val) % P = 1 → e = c) ∧
      c = bpow x (P - 2) ∧ exec (.binv d a) s = .next (s.commit d [c.toWord]))

/-- BDIV (R66): `a` times the inverse of `b`; a zero divisor raises `ZERO_DIVISOR`, whatever `a` is. -/
def Obligations.BdivDividesOrRaisesZeroDivisor : Prop :=
  ThreeOperandEncoding 0x16 .bdiv ∧
  (∀ (s : State) (d a b : Nat), ¬ s.InRange [(d, 1), (a, 1), (b, 1)] →
    exec (.bdiv d a b) s = .next (s.fail .badAddress)) ∧
  (∀ (s : State) (d a b : Nat) (x : Residue), s.InRange [(d, 1), (a, 1), (b, 1)] → ResidueAt s a x →
    s.mem.read b = 0 → exec (.bdiv d a b) s = .next (s.fail .zeroDivisor)) ∧
  (∀ (s : State) (d a b : Nat) (x y : Residue), s.InRange [(d, 1), (a, 1), (b, 1)] →
    ResidueAt s a x → ResidueAt s b y → y.val ≠ 0 →
    ∃ c : Residue, (y.val * c.val) % P = 1 ∧
      exec (.bdiv d a b) s = .next (s.commit d [BitVec.ofNat 64 ((x.val * c.val) % P)]))

/-- BROOT (R70, R69): `H^(2^32 div n)` for the 33 values `n = 2^k`, `k ≤ 32`; every other value of the raw operand
raises `ORDERED_ROOT_ERROR`. -/
def Obligations.BrootDerivesTheRootOrRaisesOrderedRootError : Prop :=
  TwoOperandEncoding 0x17 .broot ∧
  (∀ (s : State) (d a : Nat), ¬ s.InRange [(d, 1), (a, 1)] →
    exec (.broot d a) s = .next (s.fail .badAddress)) ∧
  (∀ (s : State) (d a : Nat), s.InRange [(d, 1), (a, 1)] →
    (∀ k, k ≤ 32 → (s.mem.read a).toNat ≠ 2 ^ k) →
    exec (.broot d a) s = .next (s.fail .orderedRootError)) ∧
  (∀ (s : State) (d a k : Nat), s.InRange [(d, 1), (a, 1)] → k ≤ 32 → (s.mem.read a).toNat = 2 ^ k →
    exec (.broot d a) s =
      .next (s.commit d [BitVec.ofNat 64 (s.hw.generator.val ^ (2 ^ (32 - k)) % P)]))

/-- EADD (R77): coefficient by coefficient, no carry between coefficients. -/
def Obligations.EaddAddsComponentwise : Prop :=
  ThreeOperandEncoding 0x20 .eadd ∧
  (∀ (s : State) (d a b : Nat), ¬ s.InRange [(d, s.hw.degree), (a, s.hw.degree), (b, s.hw.degree)] →
    exec (.eadd d a b) s = .next (s.fail .badAddress)) ∧
  (∀ (s : State) (d a b : Nat) (xs ys : List Residue),
    s.InRange [(d, s.hw.degree), (a, s.hw.degree), (b, s.hw.degree)] →
    xs.length = s.hw.degree → ys.length = s.hw.degree → ResiduesAt s a xs → ResiduesAt s b ys →
    exec (.eadd d a b) s =
      .next (s.commit d (List.zipWith (fun x y : Residue => BitVec.ofNat 64 ((x.val + y.val) % P)) xs ys)))

/-- ESUB (R78). -/
def Obligations.EsubSubtractsComponentwise : Prop :=
  ThreeOperandEncoding 0x21 .esub ∧
  (∀ (s : State) (d a b : Nat), ¬ s.InRange [(d, s.hw.degree), (a, s.hw.degree), (b, s.hw.degree)] →
    exec (.esub d a b) s = .next (s.fail .badAddress)) ∧
  (∀ (s : State) (d a b : Nat) (xs ys : List Residue),
    s.InRange [(d, s.hw.degree), (a, s.hw.degree), (b, s.hw.degree)] →
    xs.length = s.hw.degree → ys.length = s.hw.degree → ResiduesAt s a xs → ResiduesAt s b ys →
    exec (.esub d a b) s = .next (s.commit d (List.zipWith
      (fun x y : Residue => BitVec.ofNat 64 (if y.val ≤ x.val then x.val - y.val else x.val + P - y.val)) xs ys)))

/-- ENEG (R79): a zero coefficient stays 0. -/
def Obligations.EnegNegatesComponentwise : Prop :=
  TwoOperandEncoding 0x22 .eneg ∧
  (∀ (s : State) (d a : Nat), ¬ s.InRange [(d, s.hw.degree), (a, s.hw.degree)] →
    exec (.eneg d a) s = .next (s.fail .badAddress)) ∧
  (∀ (s : State) (d a : Nat) (xs : List Residue), s.InRange [(d, s.hw.degree), (a, s.hw.degree)] →
    xs.length = s.hw.degree → ResiduesAt s a xs →
    exec (.eneg d a) s =
      .next (s.commit d (xs.map fun x => BitVec.ofNat 64 (if x.val = 0 then 0 else P - x.val))))

/-- EMUL (R81, R80): the product of the polynomials, reduced modulo `m(x)`; the remainder is unique, so any schedule
gives these `K` coefficients. -/
def Obligations.EmulMultipliesModuloThePolynomial : Prop :=
  ThreeOperandEncoding 0x23 .emul ∧
  (∀ (s : State) (d a b : Nat), ¬ s.InRange [(d, s.hw.degree), (a, s.hw.degree), (b, s.hw.degree)] →
    exec (.emul d a b) s = .next (s.fail .badAddress)) ∧
  (∀ (s : State) (d a b : Nat) (xs ys : List Residue), s.hw.Admissible →
    s.InRange [(d, s.hw.degree), (a, s.hw.degree), (b, s.hw.degree)] →
    xs.length = s.hw.degree → ys.length = s.hw.degree → ResiduesAt s a xs → ResiduesAt s b ys →
    ∃ cs : List Residue, cs.length = s.hw.degree ∧ polyOf cs = (polyOf xs * polyOf ys) %ₘ modulus s.hw ∧
      exec (.emul d a b) s = .next (s.commit d (cs.map Residue.toWord)))

/-- EPOW (R82): the power modulo `m(x)` for every raw 64-bit exponent, which occupies one word. -/
def Obligations.EpowRaisesToTheRawExponent : Prop :=
  ThreeOperandEncoding 0x24 .epow ∧
  (∀ (s : State) (d a e : Nat), ¬ s.InRange [(d, s.hw.degree), (a, s.hw.degree), (e, 1)] →
    exec (.epow d a e) s = .next (s.fail .badAddress)) ∧
  (∀ (s : State) (d a e : Nat) (xs : List Residue), s.hw.Admissible →
    s.InRange [(d, s.hw.degree), (a, s.hw.degree), (e, 1)] → xs.length = s.hw.degree → ResiduesAt s a xs →
    ∃ cs : List Residue, cs.length = s.hw.degree ∧
      polyOf cs = (polyOf xs ^ (s.mem.read e).toNat) %ₘ modulus s.hw ∧
      exec (.epow d a e) s = .next (s.commit d (cs.map Residue.toWord)))

/-- EINV (R84, R83): the unique element whose product with the operand is `ONE_E`; `ZERO_DIVISOR` exactly when all
`K` operand words are 0. -/
def Obligations.EinvInvertsOrRaisesZeroDivisor : Prop :=
  TwoOperandEncoding 0x25 .einv ∧
  (∀ (s : State) (d a : Nat), ¬ s.InRange [(d, s.hw.degree), (a, s.hw.degree)] →
    exec (.einv d a) s = .next (s.fail .badAddress)) ∧
  (∀ (s : State) (d a : Nat), s.InRange [(d, s.hw.degree), (a, s.hw.degree)] →
    (∀ i, i < s.hw.degree → s.mem.read (a + i) = 0) → exec (.einv d a) s = .next (s.fail .zeroDivisor)) ∧
  (∀ (s : State) (d a : Nat) (xs : List Residue), s.hw.Admissible →
    s.InRange [(d, s.hw.degree), (a, s.hw.degree)] → xs.length = s.hw.degree → ResiduesAt s a xs →
    (∃ x ∈ xs, x.val ≠ 0) →
    ∃ cs : List Residue, cs.length = s.hw.degree ∧ (polyOf xs * polyOf cs) %ₘ modulus s.hw = 1 ∧
      (∀ es : List Residue, es.length = s.hw.degree → (polyOf xs * polyOf es) %ₘ modulus s.hw = 1 → es = cs) ∧
      exec (.einv d a) s = .next (s.commit d (cs.map Residue.toWord)))

/-- EDIV (R85): the dividend times the inverse of the divisor; `ZERO_DIVISOR` exactly when all `K` words of the
divisor are 0, whatever the dividend. -/
def Obligations.EdivDividesOrRaisesZeroDivisor : Prop :=
  ThreeOperandEncoding 0x26 .ediv ∧
  (∀ (s : State) (d a b : Nat), ¬ s.InRange [(d, s.hw.degree), (a, s.hw.degree), (b, s.hw.degree)] →
    exec (.ediv d a b) s = .next (s.fail .badAddress)) ∧
  (∀ (s : State) (d a b : Nat) (xs : List Residue),
    s.InRange [(d, s.hw.degree), (a, s.hw.degree), (b, s.hw.degree)] → xs.length = s.hw.degree →
    ResiduesAt s a xs → (∀ i, i < s.hw.degree → s.mem.read (b + i) = 0) →
    exec (.ediv d a b) s = .next (s.fail .zeroDivisor)) ∧
  (∀ (s : State) (d a b : Nat) (xs ys : List Residue), s.hw.Admissible →
    s.InRange [(d, s.hw.degree), (a, s.hw.degree), (b, s.hw.degree)] →
    xs.length = s.hw.degree → ys.length = s.hw.degree → ResiduesAt s a xs → ResiduesAt s b ys →
    (∃ y ∈ ys, y.val ≠ 0) →
    ∃ qs cs : List Residue, qs.length = s.hw.degree ∧ (polyOf ys * polyOf qs) %ₘ modulus s.hw = 1 ∧
      cs.length = s.hw.degree ∧ polyOf cs = (polyOf xs * polyOf qs) %ₘ modulus s.hw ∧
      exec (.ediv d a b) s = .next (s.commit d (cs.map Residue.toWord)))

/-- NTT (R103): the checks of R97 in their order, then the transform of R102 with the root `H^(2^32 div n)`, in
place. -/
def Obligations.NttTransformsInPlaceWithTheDerivedRoot : Prop :=
  TwoOperandEncoding 0x30 .ntt ∧
  (∀ (s : State) (d a : Nat), ¬ s.InRange [(a, 1)] → exec (.ntt d a) s = .next (s.fail .badAddress)) ∧
  (∀ (s : State) (d a : Nat), s.InRange [(a, 1)] → (∀ k, (s.mem.read a).toNat ≠ 2 ^ k) →
    exec (.ntt d a) s = .next (s.fail .invalidLength)) ∧
  (∀ (s : State) (d a k : Nat), s.InRange [(a, 1)] → (s.mem.read a).toNat = 2 ^ k → ¬ s.InRange [(d, 2 ^ k)] →
    exec (.ntt d a) s = .next (s.fail .badAddress)) ∧
  (∀ (s : State) (d a k : Nat), s.InRange [(a, 1), (d, 2 ^ k)] → (s.mem.read a).toNat = 2 ^ k → 32 < k →
    exec (.ntt d a) s = .next (s.fail .orderedRootError)) ∧
  (∀ (s : State) (d a k : Nat) (root : Residue) (xs : List Residue), s.InRange [(a, 1), (d, 2 ^ k)] →
    (s.mem.read a).toNat = 2 ^ k → k ≤ 32 → root.val = s.hw.generator.val ^ (2 ^ (32 - k)) % P →
    xs.length = 2 ^ k → ResiduesAt s d xs →
    exec (.ntt d a) s = .next (s.commit d ((transform baseOps root xs).map Residue.toWord)))

/-- NTTR (R104): as NTT, with the root the residue at `SRC2`, which is not checked (R110): it completes for every
residue. -/
def Obligations.NttrTransformsInPlaceWithTheSuppliedRoot : Prop :=
  ThreeOperandEncoding 0x31 .nttr ∧
  (∀ (s : State) (d a r : Nat), ¬ s.InRange [(a, 1), (r, 1)] →
    exec (.nttr d a r) s = .next (s.fail .badAddress)) ∧
  (∀ (s : State) (d a r : Nat), s.InRange [(a, 1), (r, 1)] → (∀ k, (s.mem.read a).toNat ≠ 2 ^ k) →
    exec (.nttr d a r) s = .next (s.fail .invalidLength)) ∧
  (∀ (s : State) (d a r k : Nat), s.InRange [(a, 1), (r, 1)] → (s.mem.read a).toNat = 2 ^ k →
    ¬ s.InRange [(d, 2 ^ k)] → exec (.nttr d a r) s = .next (s.fail .badAddress)) ∧
  (∀ (s : State) (d a r k : Nat) (root : Residue) (xs : List Residue),
    s.InRange [(a, 1), (r, 1), (d, 2 ^ k)] → (s.mem.read a).toNat = 2 ^ k → ResidueAt s r root →
    xs.length = 2 ^ k → ResiduesAt s d xs →
    exec (.nttr d a r) s = .next (s.commit d ((transform baseOps root xs).map Residue.toWord)))

/-- With a length of 1 NTTR leaves the sequence unchanged whatever residue the root word holds (R104, R97). A root word
that is no residue has no meaning at this length either (R14, R30, R123, U1): that this goes before the words of
R104 is the model's choice (log 5). -/
def Obligations.NttrOfLengthOneLeavesTheSequence : Prop :=
  ∀ (s : State) (d a r : Nat) (x : Residue), s.InRange [(a, 1), (r, 1), (d, 1)] → (s.mem.read a).toNat = 1 →
    ResidueAt s d x →
    (∀ root, ResidueAt s r root → exec (.nttr d a r) s = .next (s.commit d [x.toWord])) ∧
    (¬ Word.Canonical (s.mem.read r) → exec (.nttr d a r) s = .refused (.nonCanonicalOperand r))

/-- ENTT (R105): as NTT over extension elements, `n·K` words, the derived root entering as `lift(r)`. -/
def Obligations.EnttTransformsInPlaceWithTheLiftedRoot : Prop :=
  TwoOperandEncoding 0x32 .entt ∧
  (∀ (s : State) (d a : Nat), ¬ s.InRange [(a, 1)] → exec (.entt d a) s = .next (s.fail .badAddress)) ∧
  (∀ (s : State) (d a : Nat), s.InRange [(a, 1)] → (∀ k, (s.mem.read a).toNat ≠ 2 ^ k) →
    exec (.entt d a) s = .next (s.fail .invalidLength)) ∧
  (∀ (s : State) (d a k : Nat), s.InRange [(a, 1)] → (s.mem.read a).toNat = 2 ^ k →
    ¬ s.InRange [(d, 2 ^ k * s.hw.degree)] → exec (.entt d a) s = .next (s.fail .badAddress)) ∧
  (∀ (s : State) (d a k : Nat), s.InRange [(a, 1), (d, 2 ^ k * s.hw.degree)] →
    (s.mem.read a).toNat = 2 ^ k → 32 < k → exec (.entt d a) s = .next (s.fail .orderedRootError)) ∧
  (∀ (s : State) (d a k : Nat) (root : Residue) (xs : List (List Residue)),
    s.InRange [(a, 1), (d, 2 ^ k * s.hw.degree)] → (s.mem.read a).toNat = 2 ^ k → k ≤ 32 →
    root.val = s.hw.generator.val ^ (2 ^ (32 - k)) % P → xs.length = 2 ^ k → ElementsAt s d xs →
    exec (.entt d a) s = .next (s.commit d
      ((transform (extOps s.hw) (lift s.hw root) xs).flatten.map Residue.toWord)))

/-- ENTTR (R106): as ENTT with the root the extension element at `SRC2`, not checked (R110). -/
def Obligations.EnttrTransformsInPlaceWithTheSuppliedRoot : Prop :=
  ThreeOperandEncoding 0x33 .enttr ∧
  (∀ (s : State) (d a r : Nat), ¬ s.InRange [(a, 1), (r, s.hw.degree)] →
    exec (.enttr d a r) s = .next (s.fail .badAddress)) ∧
  (∀ (s : State) (d a r : Nat), s.InRange [(a, 1), (r, s.hw.degree)] → (∀ k, (s.mem.read a).toNat ≠ 2 ^ k) →
    exec (.enttr d a r) s = .next (s.fail .invalidLength)) ∧
  (∀ (s : State) (d a r k : Nat), s.InRange [(a, 1), (r, s.hw.degree)] → (s.mem.read a).toNat = 2 ^ k →
    ¬ s.InRange [(d, 2 ^ k * s.hw.degree)] → exec (.enttr d a r) s = .next (s.fail .badAddress)) ∧
  (∀ (s : State) (d a r k : Nat) (root : List Residue) (xs : List (List Residue)),
    s.InRange [(a, 1), (r, s.hw.degree), (d, 2 ^ k * s.hw.degree)] → (s.mem.read a).toNat = 2 ^ k →
    root.length = s.hw.degree → ResiduesAt s r root → xs.length = 2 ^ k → ElementsAt s d xs →
    exec (.enttr d a r) s = .next (s.commit d
      ((transform (extOps s.hw) root xs).flatten.map Residue.toWord)))

/-! ## Rules of the whole machine, over all commands -/

/-- The order of the failures (R118): illegal word; a range known from the command word; invalid length; the sequence
range; root error; zero divisor. Each item holds whatever later item would also apply. -/
def Obligations.FailuresAreReportedInPriorityOrder : Prop :=
  (∀ (w : CommandWord) (s : State), (∃ e, decode w = .error e) → runCommand w s = .next (s.fail .illegalCommand)) ∧
  (∀ (i : Instr) (s : State), ¬ s.InRange (wordRanges s i) → exec i s = .next (s.fail .badAddress)) ∧
  (∀ (i : Instr) (s : State) (a : Nat), s.InRange (wordRanges s i) → lengthWord? i = some a →
    (∀ k, (s.mem.read a).toNat ≠ 2 ^ k) → exec i s = .next (s.fail .invalidLength)) ∧
  (∀ (i : Instr) (s : State) (a k : Nat), s.InRange (wordRanges s i) → lengthWord? i = some a →
    (s.mem.read a).toNat = 2 ^ k → ¬ s.InRange [(i.dst, writtenCount s i)] →
    exec i s = .next (s.fail .badAddress)) ∧
  (∀ (s : State) (d a : Nat), s.InRange (wordRanges s (.broot d a)) →
    (∀ k, k ≤ 32 → (s.mem.read a).toNat ≠ 2 ^ k) → exec (.broot d a) s = .next (s.fail .orderedRootError)) ∧
  (∀ (i : Instr) (s : State) (a k : Nat), i.mnemonic ∈ ["NTT", "ENTT"] → s.InRange (wordRanges s i) →
    lengthWord? i = some a → (s.mem.read a).toNat = 2 ^ k → 32 < k → s.InRange [(i.dst, writtenCount s i)] →
    exec i s = .next (s.fail .orderedRootError)) ∧
  (∀ (i : Instr) (s : State), i.mnemonic ∈ ["BINV", "EINV"] → s.InRange (wordRanges s i) →
    (∀ j, j < writtenCount s i → s.mem.read (i.src1 + j) = 0) → exec i s = .next (s.fail .zeroDivisor)) ∧
  (∀ (i : Instr) (s : State) (b : Nat), i.mnemonic ∈ ["BDIV", "EDIV"] → i.src2? = some b →
    s.InRange (wordRanges s i) → s.OperandsCanonical i →
    (∀ j, j < writtenCount s i → s.mem.read (b + j) = 0) → exec i s = .next (s.fail .zeroDivisor))

/-- A failing command word changes no word of `MEM` and nothing but `STATUS` and the code returned (R117). -/
def Obligations.FailedCommandLeavesOnlyItsCode : Prop :=
  ∀ (w : CommandWord) (s t : State), runCommand w s = .next t → t.status ≠ 0 →
    t = { s with status := t.status, responses := s.responses ++ [.status t.status] }

/-- Which command returns which code (R111 to R116): 1 only the inverting commands, 2 only BROOT (with `MEM_WORDS ≤
2^32`, R113), 3 only the transforms, 5 any, 4 and 6 none that decodes, and none of 7 to 255. -/
def Obligations.CommandsReturnOnlyTheirCodes : Prop :=
  ∀ (i : Instr) (s t : State), s.hw.Admissible → exec i s = .next t →
    t.status = 0 ∨ t.status = 5 ∨
    (t.status = 1 ∧ i.mnemonic ∈ inverting) ∨
    (t.status = 2 ∧ i.mnemonic = "BROOT") ∨
    (t.status = 3 ∧ (lengthWord? i).isSome = true)

/-- The frame of all 19 commands (R30, R16, R39): the constants, the host's next inputs and the reset content are
unchanged; the code latched in `STATUS` is the one returned; every word outside the `writtenCount` words from `DST` on
reads as before. -/
def Obligations.CommandsWriteOnlyTheirDestination : Prop :=
  ∀ (i : Instr) (s t : State), s.hw.Admissible → exec i s = .next t →
    t.hw = s.hw ∧ t.inputs = s.inputs ∧ t.mem.powerOn = s.mem.powerOn ∧
    t.responses = s.responses ++ [.status t.status] ∧
    ∀ a, a < i.dst ∨ i.dst + writtenCount s i ≤ a → t.mem.read a = s.mem.read a

/-- "Every result the hardware writes is canonical" (R14, R86, R123): after a command that completes with `OK`, each of
the words it wrote is below `P`. -/
def Obligations.ResultsAreCanonical : Prop :=
  ∀ (i : Instr) (s t : State), s.hw.Admissible → s.mem.Wf → exec i s = .next t → t.status = 0 →
    ∀ j, j < writtenCount s i → Word.Canonical (t.mem.read (i.dst + j))

/-- "The effect of a command is a function of the command word and of the contents of the `MEM` words it reads, and of
nothing else" (R24, R30): two states that agree on the constants and on those words get the same status and the same
result words, or are refused alike, whatever else they hold. -/
def Obligations.CommandSeesOnlyTheWordsItReads : Prop :=
  ∀ (i : Instr) (s t : State), s.hw.Admissible → t.hw = s.hw → s.mem.Wf → t.mem.Wf →
    (∀ a ∈ rawReads i ++ residueReads s i, t.mem.read a = s.mem.read a) →
    (∀ s', exec i s = .next s' → ∃ t', exec i t = .next t' ∧ t'.status = s'.status ∧
      (s'.status = 0 →
        t'.mem.readWords i.dst (writtenCount s i) = s'.mem.readWords i.dst (writtenCount s i))) ∧
    (∀ r, exec i s = .refused r → exec i t = .refused r)

/-- "no command's result depends on `STATUS`" (R15): the same command word from two states that differ in `STATUS` only
ends in the same state. -/
def Obligations.StatusIsNeverReadByTheEngine : Prop :=
  ∀ (w : CommandWord) (s : State) (c : BitVec 8), runCommand w { s with status := c } = runCommand w s

/-- "`H`, `K` and `M[0..K−1]` … are hardwired constants, not state: no command and no host access can change them, and
reset does not affect them" (R16). -/
def Obligations.ConstantsNeverChange : Prop :=
  ∀ s t : State, step s = .next t → t.hw = s.hw

/-- A command has no meaning only for a word it reads as a residue that is not canonical (R123, U1; log 4). That
the root of NTTR counts as such a word also for length 1 is the model's choice (log 5). -/
def Obligations.OnlyNonCanonicalOperandsAreRefused : Prop :=
  ∀ (i : Instr) (s : State) (r : Refusal), exec i s = .refused r →
    ∃ a ∈ residueReads s i, ¬ Word.Canonical (s.mem.read a) ∧ r = .nonCanonicalOperand a

/-- A command that reaches its operands and finds a word that is no residue has no meaning: it takes no step (R123, U1;
log 4). Two parts are the model's choice: that a root word that is no residue is refused also for NTTR of length 1,
against the letter of R104 (log 5), and that the refusal comes before a zero divisor is looked for (log 19). -/
def Obligations.NonCanonicalOperandsHaveNoMeaning : Prop :=
  ∀ (i : Instr) (s : State), s.hw.Admissible → s.InRange (wordRanges s i) →
    (∀ a, lengthWord? i = some a → (∃ k, (s.mem.read a).toNat = 2 ^ k) ∧ s.InRange [(i.dst, writtenCount s i)]) →
    ¬ s.OperandsCanonical i → ∃ a, exec i s = .refused (.nonCanonicalOperand a)

/-- Every command terminates, and a step always has a next state while the host keeps the duties of `HostDuties` (R138,
R123, R125). The model's choices here: a command may read words that nothing has written (log 6), an idle machine
takes a step (log 3), reading `STATUS` is an event (log 10). -/
def Obligations.DutifulHostAlwaysGetsAStep : Prop :=
  ∀ s : State, s.HostDuties → ∃ t, step s = .next t

/-- Every step keeps the invariant: the constants are an instance of R8, `MEM` is in canonical form inside the address
space, `STATUS` holds a code the engine produces (R15, R16, R34, R111). -/
def Obligations.StepKeepsTheMachineInvariant : Prop :=
  ∀ s t : State, s.Inv → step s = .next t → t.Inv

/-- The state after reset satisfies the invariant. -/
def Obligations.ResetSatisfiesTheMachineInvariant : Prop := State.reset.Inv

/-! ## The mathematics of the units -/

/-- The laws of the adder (R56). -/
def Obligations.AdditionLawsHold : Prop :=
  (∀ a b, badd a b = badd b a) ∧ (∀ a b c, badd (badd a b) c = badd a (badd b c)) ∧
  (∀ a, badd a (bneg a) = Residue.zero) ∧ (∀ a b, bsub a b = badd a (bneg b)) ∧ (∀ a, badd a Residue.zero = a)

/-- The laws of the multiplier and the inverter (R60, R67). -/
def Obligations.MultiplicationAndInverseLawsHold : Prop :=
  (∀ a b, bmul a b = bmul b a) ∧ (∀ a b c, bmul (bmul a b) c = bmul a (bmul b c)) ∧
  (∀ a b c, bmul a (badd b c) = badd (bmul a b) (bmul a c)) ∧
  (∀ a, a ≠ Residue.zero → ∃ c, binv a = .ok c ∧ bmul a c = Residue.one) ∧
  (∀ a b, b ≠ Residue.zero → ∃ c, binv b = .ok c ∧ bdiv a b = .ok (bmul a c)) ∧
  (∀ a, bdiv a Residue.zero = .error (.status .zeroDivisor)) ∧
  binv Residue.zero = .error (.status .zeroDivisor)

/-- "pow(x,0) = 1 for all x; pow(x, m+1) = mul(pow(x,m), x) for all m ≥ 0", in both fields (R63). -/
def Obligations.PowerLawsHold : Prop :=
  (∀ x, bpow x 0 = Residue.one) ∧ (∀ x m, bpow x (m + 1) = bmul (bpow x m) x) ∧
  (∀ c : Config, ∀ x, epow c x 0 = extOne c) ∧
  (∀ c : Config, c.Admissible → ∀ x : List Residue, x.length = c.degree → ∀ m,
    epow c x (m + 1) = emul c (epow c x m) x)

/-- The roots of unity (R71): of exact order, failing for 0, 3 and `2^33`, `−1` at half the order, nested. -/
def Obligations.DerivedRootsHaveExactOrder : Prop :=
  ∀ c : Config, c.Admissible →
    (∀ k, k ≤ 32 → ∃ r, orderedRoot c (2 ^ k) = .ok r ∧ bpow r (2 ^ k) = Residue.one) ∧
    (∀ k, k + 1 ≤ 32 → ∃ r, orderedRoot c (2 ^ (k + 1)) = .ok r ∧ bpow r (2 ^ k) ≠ Residue.one ∧
      (bpow r (2 ^ k)).val = P - 1 ∧ orderedRoot c (2 ^ k) = .ok (bmul r r)) ∧
    (∀ n, n = 0 ∨ n = 3 ∨ n = 2 ^ 33 → orderedRoot c n = .error (.status .orderedRootError))

/-- The extension is a field, with division by inversion (R87): a commutative ring in which `1 ≠ 0` and every nonzero
element has an inverse. -/
def Obligations.ExtensionFieldLawsHold : Prop :=
  ∀ c : Config, c.Admissible → ∀ a b e : List Residue,
    a.length = c.degree → b.length = c.degree → e.length = c.degree →
    eadd a b = eadd b a ∧ eadd (eadd a b) e = eadd a (eadd b e) ∧ eadd a (eneg a) = extZero c ∧
    eadd a (extZero c) = a ∧ extOne c ≠ extZero c ∧
    emul c a b = emul c b a ∧ emul c (emul c a b) e = emul c a (emul c b e) ∧
    emul c a (eadd b e) = eadd (emul c a b) (emul c a e) ∧ emul c a (extOne c) = a ∧
    (b ≠ extZero c → ∃ q, einv c b = .ok q ∧ emul c b q = extOne c ∧ ediv c a b = .ok (emul c a q)) ∧
    einv c (extZero c) = .error (.status .zeroDivisor) ∧ ediv c a (extZero c) = .error (.status .zeroDivisor)

/-- `lift` is a ring homomorphism (R76). -/
def Obligations.LiftIsARingHomomorphism : Prop :=
  ∀ c : Config, c.Admissible →
    (∀ r q, lift c (badd r q) = eadd (lift c r) (lift c q)) ∧
    (∀ r q, lift c (bmul r q) = emul c (lift c r) (lift c q)) ∧ lift c Residue.one = extOne c

/-- At offset `i` of a block of length `len = 2^j` the running twiddle is `pow_T(root, i · (n div len))`, in the
recurrence, in the butterflies of a block and in what the block makes of its elements, in both fields (R94 (a),
R100). -/
def Obligations.RunningTwiddleIsAPowerOfTheRoot : Prop :=
  (∀ root : Residue, TwiddlesArePowers baseOps root) ∧
  (∀ (c : Config) (root : List Residue), c.Admissible → root.length = c.degree → TwiddlesArePowers (extOps c) root)

/-- The incremental loop of R98 is the bit-reversal permutation, whole elements moved, and it is an involution
(R99). -/
def Obligations.BitReversalLoopReversesIndexBits : Prop :=
  ∀ (α : Type) (k : Nat) (xs : List α), xs.length = 2 ^ k →
    (bitReverse xs).length = 2 ^ k ∧
    (∀ i, i < 2 ^ k → (bitReverse xs)[i]? = xs[reverseBits k i]?) ∧
    bitReverse (bitReverse xs) = xs

/-- "n = 1 yields the input unchanged", and "The derived-root and explicit-root entry points must agree bit-for-bit when
given the same semantically equal root value" (R107). -/
def Obligations.DerivedAndSuppliedRootsAgree : Prop :=
  (∀ (root x : Residue), transform baseOps root [x] = [x]) ∧
  (∀ (c : Config) (root x : List Residue), transform (extOps c) root [x] = [x]) ∧
  (∀ (s : State) (d a r : Nat) (root : Residue), s.hw.Admissible → s.InRange [(r, 1)] →
    orderedRoot s.hw (s.mem.read a).toNat = .ok root → ResidueAt s r root →
    exec (.nttr d a r) s = exec (.ntt d a) s) ∧
  (∀ (s : State) (d a r : Nat) (root : Residue), s.hw.Admissible → s.InRange [(r, s.hw.degree)] →
    orderedRoot s.hw (s.mem.read a).toNat = .ok root → ResiduesAt s r (lift s.hw root) →
    exec (.enttr d a r) s = exec (.entt d a) s)

/-- The transform of residues is the evaluation at the powers of the root, in natural order: `out[k] = Σ_j in[j] ·
root^(j·k)` when `root^(n/2) = −1` (R108). -/
def Obligations.BaseTransformEvaluatesAtTheRootPowers : Prop :=
  ∀ (m : Nat) (root : Residue) (xs : List Residue), xs.length = 2 ^ (m + 1) →
    Residue.toField root ^ (2 ^ m) = -1 →
    (transform baseOps root xs).length = 2 ^ (m + 1) ∧
    ∀ k, k < 2 ^ (m + 1) →
      Residue.toField (coeff (transform baseOps root xs) k) =
        ∑ j ∈ Finset.range (2 ^ (m + 1)), Residue.toField (coeff xs j) * Residue.toField root ^ (j * k)

/-- The same of extension elements, modulo `m(x)`, when `root^(n/2) = lift(P − 1)` (R108). -/
def Obligations.ExtensionTransformEvaluatesAtTheRootPowers : Prop :=
  ∀ (c : Config) (m : Nat) (root : List Residue) (xs : List (List Residue)), c.Admissible →
    root.length = c.degree → (∀ x ∈ xs, x.length = c.degree) → xs.length = 2 ^ (m + 1) →
    (polyOf root ^ (2 ^ m)) %ₘ modulus c = -1 →
    (transform (extOps c) root xs).length = 2 ^ (m + 1) ∧
    ∀ k, k < 2 ^ (m + 1) →
      polyOf ((transform (extOps c) root xs).getD k []) =
        (∑ j ∈ Finset.range (2 ^ (m + 1)), polyOf (xs.getD j []) * polyOf root ^ (j * k)) %ₘ modulus c

/-- With a lifted root "the transform acts on each of the `K` coefficient positions separately" (R105). -/
def Obligations.LiftedTransformActsOnEachCoefficient : Prop :=
  ∀ (c : Config) (m i : Nat) (root : Residue) (xs : List (List Residue)), c.Admissible →
    (∀ x ∈ xs, x.length = c.degree) → xs.length = 2 ^ m → i < c.degree →
    (transform (extOps c) (lift c root) xs).map (fun x => coeff x i) =
      transform baseOps root (xs.map fun x => coeff x i)

/-- Linearity, the constant sequence and the round trip (R109), over the base field: the transform of a sum is the sum
of the transforms; all ones becomes `n mod P` and zeros; transforming with `r`, then with its inverse, then scaling by
the inverse of `n` restores the sequence. -/
def Obligations.TransformIsLinearAndInvertible : Prop :=
  (∀ (m : Nat) (root : Residue) (xs ys : List Residue), xs.length = 2 ^ m → ys.length = 2 ^ m →
    List.zipWith badd (transform baseOps root xs) (transform baseOps root ys) =
      transform baseOps root (List.zipWith badd xs ys)) ∧
  (∀ (m : Nat) (root : Residue), Residue.toField root ^ (2 ^ m) = -1 →
    transform baseOps root (List.replicate (2 ^ (m + 1)) Residue.one) =
      reduce (2 ^ (m + 1)) :: List.replicate (2 ^ (m + 1) - 1) Residue.zero) ∧
  (∀ (m : Nat) (root inverse scale : Residue) (xs : List Residue), xs.length = 2 ^ (m + 1) →
    Residue.toField root ^ (2 ^ m) = -1 → binv root = .ok inverse → binv (reduce (2 ^ (m + 1))) = .ok scale →
    (transform baseOps inverse (transform baseOps root xs)).map (bmul scale) = xs)

/-- What the transform is for a root of any order, also one that is no root of unity (R102, R110): decimation in time, in
both fields. With the transform of one element (R107) it determines the transform. -/
def Obligations.TransformDecimatesInTimeForEveryRoot : Prop :=
  (∀ (m : Nat) (root : Residue) (xs : List Residue), xs.length = 2 ^ (m + 1) → DecimatesInTime baseOps root m xs) ∧
  (∀ (c : Config) (m : Nat) (root : List Residue) (xs : List (List Residue)), c.Admissible →
    root.length = c.degree → (∀ x ∈ xs, x.length = c.degree) → xs.length = 2 ^ (m + 1) →
    DecimatesInTime (extOps c) root m xs)

/-- Linearity, the constant sequence and the round trip (R109), over the extension field: the scale factor is the inverse
of `n` "as a field element", and `root^(n/2) = −1` is meant modulo `m(x)`. -/
def Obligations.ExtensionTransformIsLinearAndInvertible : Prop :=
  (∀ (c : Config) (m : Nat) (root : List Residue) (xs ys : List (List Residue)), c.Admissible →
    root.length = c.degree → (∀ x ∈ xs, x.length = c.degree) → (∀ y ∈ ys, y.length = c.degree) →
    xs.length = 2 ^ m → ys.length = 2 ^ m →
    List.zipWith eadd (transform (extOps c) root xs) (transform (extOps c) root ys) =
      transform (extOps c) root (List.zipWith eadd xs ys)) ∧
  (∀ (c : Config) (m : Nat) (root : List Residue), c.Admissible → root.length = c.degree →
    (polyOf root ^ (2 ^ m)) %ₘ modulus c = -1 →
    transform (extOps c) root (List.replicate (2 ^ (m + 1)) (extOne c)) =
      lift c (reduce (2 ^ (m + 1))) :: List.replicate (2 ^ (m + 1) - 1) (extZero c)) ∧
  (∀ (c : Config) (m : Nat) (root inverse scale : List Residue) (xs : List (List Residue)), c.Admissible →
    root.length = c.degree → (∀ x ∈ xs, x.length = c.degree) → xs.length = 2 ^ (m + 1) →
    (polyOf root ^ (2 ^ m)) %ₘ modulus c = -1 → einv c root = .ok inverse →
    einv c (lift c (reduce (2 ^ (m + 1)))) = .ok scale →
    (transform (extOps c) inverse (transform (extOps c) root xs)).map (emul c scale) = xs)
end

