-- ==== Sys2Proof/Laws/State.lean ====
section
/-! SUPPORT. One lemma per field per update of the state, true by rfl, so that no proof unfolds a record
update. -/

namespace Sys2Proof.Machine

@[simp] theorem State.complete_hw (s : State) (st : Status) : (s.complete st).hw = s.hw := rfl
@[simp] theorem State.complete_mem (s : State) (st : Status) : (s.complete st).mem = s.mem := rfl
@[simp] theorem State.complete_status (s : State) (st : Status) : (s.complete st).status = st.code := rfl
@[simp] theorem State.complete_inputs (s : State) (st : Status) : (s.complete st).inputs = s.inputs := rfl
@[simp] theorem State.complete_responses (s : State) (st : Status) :
    (s.complete st).responses = s.responses ++ [.status st.code] := rfl

@[simp] theorem State.fail_hw (s : State) (st : Status) : (s.fail st).hw = s.hw := rfl
@[simp] theorem State.fail_mem (s : State) (st : Status) : (s.fail st).mem = s.mem := rfl
@[simp] theorem State.fail_status (s : State) (st : Status) : (s.fail st).status = st.code := rfl
@[simp] theorem State.fail_inputs (s : State) (st : Status) : (s.fail st).inputs = s.inputs := rfl
@[simp] theorem State.fail_responses (s : State) (st : Status) :
    (s.fail st).responses = s.responses ++ [.status st.code] := rfl

@[simp] theorem State.commit_hw (s : State) (d : Nat) (ws : List Word) : (s.commit d ws).hw = s.hw := rfl
@[simp] theorem State.commit_mem (s : State) (d : Nat) (ws : List Word) :
    (s.commit d ws).mem = s.mem.writeWords d ws := rfl
@[simp] theorem State.commit_status (s : State) (d : Nat) (ws : List Word) : (s.commit d ws).status = 0 := rfl
@[simp] theorem State.commit_inputs (s : State) (d : Nat) (ws : List Word) :
    (s.commit d ws).inputs = s.inputs := rfl
@[simp] theorem State.commit_responses (s : State) (d : Nat) (ws : List Word) :
    (s.commit d ws).responses = s.responses ++ [.status 0] := rfl

@[simp] theorem State.hostReadStatus_hw (s : State) : s.hostReadStatus.hw = s.hw := rfl
@[simp] theorem State.hostReadStatus_mem (s : State) : s.hostReadStatus.mem = s.mem := rfl
@[simp] theorem State.hostReadStatus_status (s : State) : s.hostReadStatus.status = s.status := rfl
@[simp] theorem State.hostReadStatus_inputs (s : State) : s.hostReadStatus.inputs = s.inputs := rfl
@[simp] theorem State.hostReadStatus_responses (s : State) :
    s.hostReadStatus.responses = s.responses ++ [.statusRead s.status] := rfl

@[simp] theorem State.hostReset_hw (s : State) (image : Nat) : (s.hostReset image).hw = s.hw := rfl
@[simp] theorem State.hostReset_mem (s : State) (image : Nat) :
    (s.hostReset image).mem = { powerOn := image, cells := [] } := rfl
@[simp] theorem State.hostReset_status (s : State) (image : Nat) : (s.hostReset image).status = 0 := rfl
@[simp] theorem State.hostReset_inputs (s : State) (image : Nat) : (s.hostReset image).inputs = s.inputs := rfl
@[simp] theorem State.hostReset_responses (s : State) (image : Nat) :
    (s.hostReset image).responses = s.responses := rfl

@[simp] theorem State.withFetchWord_hw (s : State) (n w : Nat) : (s.withFetchWord n w).hw = s.hw := rfl
@[simp] theorem State.withFetchWord_mem (s : State) (n w : Nat) : (s.withFetchWord n w).mem = s.mem := rfl
@[simp] theorem State.withFetchWord_status (s : State) (n w : Nat) :
    (s.withFetchWord n w).status = s.status := rfl
@[simp] theorem State.withFetchWord_inputs (s : State) (n w : Nat) :
    (s.withFetchWord n w).inputs = .command (BitVec.ofNat 128 (w % 2 ^ n)) :: s.inputs := rfl
@[simp] theorem State.withFetchWord_responses (s : State) (n w : Nat) :
    (s.withFetchWord n w).responses = s.responses := rfl

@[simp] theorem State.reset_hw : State.reset.hw = Config.hardware := rfl
@[simp] theorem State.reset_mem : State.reset.mem = { powerOn := Config.powerOnImage, cells := [] } := rfl
@[simp] theorem State.reset_status : State.reset.status = 0 := rfl
@[simp] theorem State.reset_inputs : State.reset.inputs = [] := rfl
@[simp] theorem State.reset_responses : State.reset.responses = [] := rfl

@[simp] theorem baseFormat_width : baseFormat.width = 1 := rfl
@[simp] theorem extFormat_width (c : Config) : (extFormat c).width = c.degree := rfl
@[simp] theorem baseFormat_words (r : Residue) : baseFormat.words r = [r.toWord] := rfl
@[simp] theorem extFormat_words (c : Config) (rs : List Residue) :
    (extFormat c).words rs = rs.map Residue.toWord := rfl

end Sys2Proof.Machine
end

