-- ==== Sys2Proof/Laws/Encoding.lean ====
section
/-! SUPPORT. The fields of an assembled command word (spec/30_encoding.md R40). -/

namespace Sys2Proof

/-- A command word from its fields, as `encode` lays them out (R40). -/
def assemble (s2 s1 d : BitVec 32) (o : BitVec 8) : CommandWord := s2 ++ s1 ++ d ++ 0#24 ++ o

theorem encode_eq_assemble (i : Instr) :
    encode i = assemble (BitVec.ofNat 32 (i.src2?.getD 0)) (BitVec.ofNat 32 i.src1) (BitVec.ofNat 32 i.dst)
      i.opcode := rfl

@[simp] theorem opc_assemble (s2 s1 d : BitVec 32) (o : BitVec 8) : CommandWord.opc (assemble s2 s1 d o) = o := by
  apply BitVec.eq_of_getLsbD_eq
  intro i hi
  simp only [CommandWord.opc, assemble, BitVec.getLsbD_extractLsb', BitVec.getLsbD_append]
  simp [hi]

@[simp] theorem rsv_assemble (s2 s1 d : BitVec 32) (o : BitVec 8) : CommandWord.rsv (assemble s2 s1 d o) = 0 := by
  apply BitVec.eq_of_getLsbD_eq
  intro i hi
  simp only [CommandWord.rsv, assemble, BitVec.getLsbD_extractLsb', BitVec.getLsbD_append]
  simp [hi]

@[simp] theorem dst_assemble (s2 s1 d : BitVec 32) (o : BitVec 8) : CommandWord.dst (assemble s2 s1 d o) = d := by
  apply BitVec.eq_of_getLsbD_eq
  intro i hi
  simp only [CommandWord.dst, assemble, BitVec.getLsbD_extractLsb', BitVec.getLsbD_append]
  rw [if_neg (by omega), if_neg (by omega), if_pos (by omega)]
  simp [hi, show 32 + i - 8 - 24 = i by omega]

@[simp] theorem src1_assemble (s2 s1 d : BitVec 32) (o : BitVec 8) :
    CommandWord.src1 (assemble s2 s1 d o) = s1 := by
  apply BitVec.eq_of_getLsbD_eq
  intro i hi
  simp only [CommandWord.src1, assemble, BitVec.getLsbD_extractLsb', BitVec.getLsbD_append]
  rw [if_neg (by omega), if_neg (by omega), if_neg (by omega), if_pos (by omega)]
  simp [hi, show 64 + i - 8 - 24 - 32 = i by omega]

@[simp] theorem src2_assemble (s2 s1 d : BitVec 32) (o : BitVec 8) :
    CommandWord.src2 (assemble s2 s1 d o) = s2 := by
  apply BitVec.eq_of_getLsbD_eq
  intro i hi
  simp only [CommandWord.src2, assemble, BitVec.getLsbD_extractLsb', BitVec.getLsbD_append]
  rw [if_neg (by omega), if_neg (by omega), if_neg (by omega), if_neg (by omega)]
  simp [hi, show 96 + i - 8 - 24 - 32 - 32 = i by omega]

end Sys2Proof
end

