-- ==== Sys2Proof/Laws/Memory.lean ====
section
/-! SUPPORT. The laws of `MEM` (spec/20_memory.md R32, R36): a read gives the latest write, a write leaves every
other word alone, and every operation keeps the canonical form. -/

namespace Sys2Proof.Machine

@[simp] theorem Memory.write_powerOnWord (m : Memory) (a : Nat) (v : Word) (b : Nat) :
    (m.write a v).powerOnWord b = m.powerOnWord b := rfl

theorem findCell_putCell_same (a : Nat) (v : Word) (cs : List (Nat × Word)) :
    findCell a (putCell a v cs) = some v := by
  induction cs with
  | nil => simp [putCell, findCell]
  | cons c cs ih =>
    obtain ⟨b, u⟩ := c
    simp only [putCell]
    split
    · simp [findCell]
    · split
      · simp [findCell]
      · rename_i h1 h2
        simp [findCell, ih, Ne.symm h2]

theorem findCell_putCell_other {a b : Nat} (v : Word) (cs : List (Nat × Word)) (h : b ≠ a) :
    findCell b (putCell a v cs) = findCell b cs := by
  induction cs with
  | nil => simp [putCell, findCell, Ne.symm h]
  | cons c cs ih =>
    obtain ⟨k, u⟩ := c
    simp only [putCell]
    split
    · simp [findCell, Ne.symm h]
    · split
      · rename_i _ hk
        subst hk
        simp [findCell, Ne.symm h]
      · simp [findCell, ih]

theorem findCell_none_of_lt {a : Nat} (cs : List (Nat × Word)) (h : ∀ c ∈ cs, a < c.1) :
    findCell a cs = none := by
  induction cs with
  | nil => rfl
  | cons c cs ih =>
    have hc := h c (by simp)
    rw [findCell, if_neg (by omega), ih (fun d hd => h d (by simp [hd]))]

theorem findCell_eraseCell_same (a : Nat) (cs : List (Nat × Word))
    (h : cs.Pairwise fun c d => c.1 < d.1) : findCell a (eraseCell a cs) = none := by
  induction cs with
  | nil => rfl
  | cons c cs ih =>
    rw [List.pairwise_cons] at h
    by_cases hc : c.1 = a
    · rw [eraseCell, if_pos hc]
      exact findCell_none_of_lt cs (fun d hd => hc ▸ h.1 d hd)
    · rw [eraseCell, if_neg hc, findCell, if_neg hc, ih h.2]

theorem findCell_eraseCell_other {a b : Nat} (cs : List (Nat × Word)) (h : b ≠ a) :
    findCell b (eraseCell a cs) = findCell b cs := by
  induction cs with
  | nil => rfl
  | cons c cs ih =>
    by_cases hc : c.1 = a
    · rw [eraseCell, if_pos hc, findCell, if_neg (by omega)]
    · rw [eraseCell, if_neg hc, findCell, findCell, ih]

theorem mem_putCell {a : Nat} {v : Word} {cs : List (Nat × Word)} {c : Nat × Word}
    (h : c ∈ putCell a v cs) : c = (a, v) ∨ c ∈ cs := by
  induction cs with
  | nil => simpa [putCell] using h
  | cons d cs ih =>
    simp only [putCell] at h
    split at h
    · simpa using h
    · split at h
      · rcases List.mem_cons.1 h with h | h
        · exact .inl h
        · exact .inr (by simp [h])
      · rcases List.mem_cons.1 h with h | h
        · exact .inr (by simp [h])
        · rcases ih h with h | h
          · exact .inl h
          · exact .inr (by simp [h])

theorem mem_eraseCell {a : Nat} {cs : List (Nat × Word)} {c : Nat × Word}
    (h : c ∈ eraseCell a cs) : c ∈ cs := by
  induction cs with
  | nil => exact h
  | cons d cs ih =>
    simp only [eraseCell] at h
    split at h
    · simp [h]
    · rcases List.mem_cons.1 h with h | h
      · simp [h]
      · simp [ih h]

theorem putCell_sorted (a : Nat) (v : Word) {cs : List (Nat × Word)}
    (h : cs.Pairwise fun c d => c.1 < d.1) : (putCell a v cs).Pairwise fun c d => c.1 < d.1 := by
  induction cs with
  | nil => simp [putCell]
  | cons d cs ih =>
    have hd := List.pairwise_cons.1 h
    simp only [putCell]
    split
    · rename_i hlt
      refine List.pairwise_cons.2 ⟨fun c hc => ?_, h⟩
      rcases List.mem_cons.1 hc with hc | hc
      · simpa [hc] using hlt
      · have := hd.1 c hc
        show a < c.1
        omega
    · split
      · rename_i _ heq
        refine List.pairwise_cons.2 ⟨fun c hc => ?_, hd.2⟩
        have := hd.1 c hc
        show a < c.1
        omega
      · refine List.pairwise_cons.2 ⟨fun c hc => ?_, ih hd.2⟩
        rcases mem_putCell hc with hc | hc
        · subst hc
          show d.1 < a
          omega
        · exact hd.1 c hc

theorem eraseCell_sorted (a : Nat) {cs : List (Nat × Word)}
    (h : cs.Pairwise fun c d => c.1 < d.1) : (eraseCell a cs).Pairwise fun c d => c.1 < d.1 := by
  induction cs with
  | nil => exact h
  | cons d cs ih =>
    have hd := List.pairwise_cons.1 h
    simp only [eraseCell]
    split
    · exact hd.2
    · exact List.pairwise_cons.2 ⟨fun c hc => hd.1 c (mem_eraseCell hc), ih hd.2⟩

/-- A write keeps the canonical form. -/
theorem Memory.write_wf {m : Memory} (h : m.Wf) (a : Nat) (v : Word) : (m.write a v).Wf := by
  unfold Memory.write
  split
  · exact ⟨eraseCell_sorted a h.1, fun c hc => h.2 c (mem_eraseCell hc)⟩
  · rename_i hv
    refine ⟨putCell_sorted a v h.1, fun c hc => ?_⟩
    rcases mem_putCell hc with hc | hc
    · subst hc; exact hv
    · exact h.2 c hc

/-- A read gives the latest write to the word. -/
theorem Memory.read_write_same {m : Memory} (h : m.Wf) (a : Nat) (v : Word) : (m.write a v).read a = v := by
  unfold Memory.write Memory.read
  split
  · rename_i hv
    rw [findCell_eraseCell_same a _ h.1]
    exact hv.symm
  · rw [findCell_putCell_same]
    rfl

/-- A write leaves every other word alone. -/
theorem Memory.read_write_other (m : Memory) {a b : Nat} (v : Word) (h : b ≠ a) :
    (m.write a v).read b = m.read b := by
  unfold Memory.write Memory.read
  split
  · rw [findCell_eraseCell_other _ h]
    rfl
  · rw [findCell_putCell_other v _ h]
    rfl

/-- A write adds an entry at most at its own address. -/
theorem Memory.write_cells {m : Memory} {a : Nat} {v : Word} {c : Nat × Word}
    (h : c ∈ (m.write a v).cells) : c.1 = a ∨ c ∈ m.cells := by
  unfold Memory.write at h
  split at h
  · exact .inr (mem_eraseCell h)
  · rcases mem_putCell h with h | h
    · exact .inl (by rw [h])
    · exact .inr h

@[simp] theorem Memory.writeWords_powerOn (m : Memory) (a : Nat) (ws : List Word) :
    (m.writeWords a ws).powerOn = m.powerOn := by
  induction ws generalizing m a with
  | nil => rfl
  | cons v vs ih => rw [Memory.writeWords, ih]; rfl

theorem Memory.writeWords_wf {m : Memory} (h : m.Wf) (a : Nat) (ws : List Word) : (m.writeWords a ws).Wf := by
  induction ws generalizing m a with
  | nil => exact h
  | cons v vs ih => exact ih (Memory.write_wf h a v) (a + 1)

theorem Memory.read_writeWords_outside (m : Memory) (a : Nat) (ws : List Word) {b : Nat}
    (h : b < a ∨ a + ws.length ≤ b) : (m.writeWords a ws).read b = m.read b := by
  induction ws generalizing m a with
  | nil => rfl
  | cons v vs ih =>
    rw [List.length_cons] at h
    rw [Memory.writeWords, ih _ _ (by omega), Memory.read_write_other m v (by omega)]

theorem Memory.read_writeWords_inside {m : Memory} (h : m.Wf) (a : Nat) (ws : List Word) (i : Nat)
    (hi : i < ws.length) : (m.writeWords a ws).read (a + i) = ws[i] := by
  induction ws generalizing m a i with
  | nil => simp at hi
  | cons v vs ih =>
    rw [Memory.writeWords]
    cases i with
    | zero =>
      rw [Memory.read_writeWords_outside _ _ _ (by omega), Nat.add_zero, Memory.read_write_same h]
      rfl
    | succ i =>
      have := ih (Memory.write_wf h a v) (a + 1) i (by simpa using hi)
      rw [show a + (i + 1) = a + 1 + i by omega, this]
      rfl

theorem Memory.writeWords_cells {m : Memory} {a : Nat} {ws : List Word} {c : Nat × Word}
    (h : c ∈ (m.writeWords a ws).cells) : (a ≤ c.1 ∧ c.1 < a + ws.length) ∨ c ∈ m.cells := by
  induction ws generalizing m a with
  | nil => exact .inr h
  | cons v vs ih =>
    rw [List.length_cons]
    rcases ih h with h | h
    · exact .inl (by omega)
    · rcases Memory.write_cells h with h | h
      · exact .inl (by omega)
      · exact .inr h

@[simp] theorem Memory.readWords_length (m : Memory) (a n : Nat) : (m.readWords a n).length = n := by
  induction n generalizing a with
  | zero => rfl
  | succ n ih => simp [Memory.readWords, ih]

theorem Memory.readWords_getElem (m : Memory) (a n i : Nat) (h : i < (m.readWords a n).length) :
    (m.readWords a n)[i] = m.read (a + i) := by
  induction n generalizing a i with
  | zero => simp at h
  | succ n ih =>
    cases i with
    | zero => rfl
    | succ i =>
      simp only [Memory.readWords, List.getElem_cons_succ]
      rw [ih, show a + 1 + i = a + (i + 1) by omega]

/-- What a command wrote is what is read back. -/
theorem Memory.readWords_writeWords {m : Memory} (h : m.Wf) (a : Nat) (ws : List Word) :
    (m.writeWords a ws).readWords a ws.length = ws := by
  apply List.ext_getElem (by simp)
  intro i h1 h2
  rw [Memory.readWords_getElem, Memory.read_writeWords_inside h a ws i h2]

/-- The memory after reset, and after a later reset, is in canonical form. -/
theorem Memory.empty_wf (image : Nat) : ({ powerOn := image, cells := [] } : Memory).Wf := by
  simp [Memory.Wf]

theorem State.reset_mem_wf : State.reset.mem.Wf := Memory.empty_wf _

theorem findCell_of_mem {cs : List (Nat × Word)} (h : cs.Pairwise fun c d => c.1 < d.1)
    {c : Nat × Word} (hc : c ∈ cs) : findCell c.1 cs = some c.2 := by
  induction cs with
  | nil => simp at hc
  | cons d cs ih =>
    have hd := List.pairwise_cons.1 h
    rcases List.mem_cons.1 hc with hc | hc
    · subst hc; simp [findCell]
    · have := hd.1 c hc
      rw [findCell, if_neg (by omega), ih hd.2 hc]

theorem mem_of_findCell {a : Nat} {v : Word} {cs : List (Nat × Word)} (h : findCell a cs = some v) :
    (a, v) ∈ cs := by
  induction cs with
  | nil => simp [findCell] at h
  | cons d cs ih =>
    rw [findCell] at h
    split at h
    · rename_i hd
      cases h
      subst hd
      simp
    · simp [ih h]

theorem Memory.mem_cells_iff {m : Memory} (h : m.Wf) (a : Nat) (v : Word) :
    (a, v) ∈ m.cells ↔ m.read a = v ∧ v ≠ m.powerOnWord a := by
  constructor
  · intro hc
    refine ⟨?_, h.2 _ hc⟩
    rw [Memory.read, findCell_of_mem h.1 hc]
    rfl
  · rintro ⟨hr, hv⟩
    rw [Memory.read] at hr
    cases hf : findCell a m.cells with
    | none => rw [hf] at hr; exact absurd hr.symm hv
    | some u =>
      rw [hf] at hr
      cases hr
      exact mem_of_findCell hf

/-- Two memories in canonical form with the same reset content and the same words are the same data. -/
theorem Memory.eq_of_read_eq {m n : Memory} (hm : m.Wf) (hn : n.Wf) (hp : m.powerOn = n.powerOn)
    (h : ∀ a, m.read a = n.read a) : m = n := by
  have hmem : ∀ c : Nat × Word, c ∈ m.cells ↔ c ∈ n.cells := by
    rintro ⟨a, v⟩
    rw [Memory.mem_cells_iff hm, Memory.mem_cells_iff hn, h a, Memory.powerOnWord, Memory.powerOnWord, hp]
  have nodup : ∀ {k : Memory}, k.Wf → k.cells.Nodup := fun hk =>
    hk.1.imp (fun {c d} hcd heq => absurd hcd (by rw [heq]; exact Nat.lt_irrefl _))
  have hperm := (List.perm_ext_iff_of_nodup (nodup hm) (nodup hn)).2 hmem
  have hcells : m.cells = n.cells :=
    hperm.eq_of_pairwise (fun c d _ _ h1 h2 => absurd h1 (by omega)) hm.1 hn.1
  cases m; cases n
  simp_all

end Sys2Proof.Machine
end

