-- ==== Sys2Proof/Laws/Operands.lean ====
section
/-! SUPPORT. One lemma per shared operation that says once what it can do; proofs about commands cite these and
do not unfold the operations. -/

namespace Sys2Proof.Machine

/-! ## Residues and words -/

theorem Residue.toWord_toNat (r : Residue) : r.toWord.toNat = r.val := by
  have h1 := r.isLt
  have h2 := P_lt_two_pow
  rw [Residue.toWord, BitVec.toNat_ofNat, Nat.mod_eq_of_lt (by omega)]

/-- The word of a residue is canonical (R14). -/
theorem Residue.toWord_canonical (r : Residue) : Word.Canonical r.toWord := by
  rw [Word.Canonical, Residue.toWord_toNat]
  exact r.isLt

theorem Residue.ofWord?_eq_some {w : Word} {r : Residue} : Residue.ofWord? w = some r ↔ w = r.toWord := by
  rw [Residue.ofWord?]
  constructor
  · intro h
    split at h
    · cases h
      apply BitVec.eq_of_toNat_eq
      rw [Residue.toWord_toNat]
    · cases h
  · rintro rfl
    rw [dif_pos (Residue.toWord_canonical r)]
    congr 1
    apply Fin.ext
    exact Residue.toWord_toNat r

theorem Residue.ofWord?_eq_none {w : Word} : Residue.ofWord? w = none ↔ ¬ Word.Canonical w := by
  rw [Residue.ofWord?]
  split <;> simp_all

@[simp] theorem Residue.ofWord?_toWord (r : Residue) : Residue.ofWord? r.toWord = some r :=
  Residue.ofWord?_eq_some.2 rfl

/-! ## Ranges and fetches -/

theorem State.checkRange_ok {s : State} {a n : Nat} (h : a + n ≤ s.hw.memWords) :
    s.checkRange a n = .ok () := by
  rw [State.checkRange, if_neg (by omega)]

theorem State.checkRange_bad {s : State} {a n : Nat} (h : s.hw.memWords < a + n) :
    s.checkRange a n = .error (.status .badAddress) := by
  rw [State.checkRange, if_pos (by omega)]

/-- A range check passes or raises `BAD_ADDRESS`; nothing else. -/
theorem State.checkRange_cases (s : State) (a n : Nat) :
    (a + n ≤ s.hw.memWords ∧ s.checkRange a n = .ok ()) ∨
    (s.hw.memWords < a + n ∧ s.checkRange a n = .error (.status .badAddress)) := by
  rcases Nat.lt_or_ge s.hw.memWords (a + n) with h | h
  · exact .inr ⟨h, State.checkRange_bad h⟩
  · exact .inl ⟨h, State.checkRange_ok h⟩

theorem State.fetchResidue_ok {s : State} {a : Nat} {r : Residue} (h : s.mem.read a = r.toWord) :
    s.fetchResidue a = .ok r := by
  rw [State.fetchResidue, h, Residue.ofWord?_toWord]

theorem State.fetchResidue_refused {s : State} {a : Nat} (h : ¬ Word.Canonical (s.mem.read a)) :
    s.fetchResidue a = .error (.refuse (.nonCanonicalOperand a)) := by
  rw [State.fetchResidue, Residue.ofWord?_eq_none.2 h]

/-- A residue fetch gives the residue, or refuses the word that is none; it never raises a status. -/
theorem State.fetchResidue_cases (s : State) (a : Nat) :
    (∃ r : Residue, s.mem.read a = r.toWord ∧ s.fetchResidue a = .ok r) ∨
    (¬ Word.Canonical (s.mem.read a) ∧ s.fetchResidue a = .error (.refuse (.nonCanonicalOperand a))) := by
  by_cases h : Word.Canonical (s.mem.read a)
  · refine .inl ⟨⟨_, h⟩, ?_, ?_⟩
    · exact Residue.ofWord?_eq_some.1 (by rw [Residue.ofWord?, dif_pos h])
    · rw [State.fetchResidue, Residue.ofWord?, dif_pos h]
  · exact .inr ⟨h, State.fetchResidue_refused h⟩

theorem State.fetchResidues_ok {s : State} {a : Nat} {rs : List Residue}
    (h : s.mem.readWords a rs.length = rs.map Residue.toWord) : s.fetchResidues a rs.length = .ok rs := by
  induction rs generalizing a with
  | nil => rfl
  | cons r rs ih =>
    simp only [List.length_cons, Memory.readWords, List.map_cons, List.cons.injEq] at h
    simp only [List.length_cons, State.fetchResidues, State.fetchResidue_ok h.1, ih h.2]

/-- Fetching `n` residues gives them all, or refuses one of the words; it never raises a status. -/
theorem State.fetchResidues_cases (s : State) (a n : Nat) :
    (∃ rs : List Residue, rs.length = n ∧ s.mem.readWords a n = rs.map Residue.toWord ∧
      s.fetchResidues a n = .ok rs) ∨
    (∃ b, a ≤ b ∧ b < a + n ∧ ¬ Word.Canonical (s.mem.read b) ∧
      s.fetchResidues a n = .error (.refuse (.nonCanonicalOperand b))) := by
  induction n generalizing a with
  | zero => exact .inl ⟨[], rfl, rfl, rfl⟩
  | succ n ih =>
    rcases s.fetchResidue_cases a with ⟨r, hr, hf⟩ | ⟨hc, hf⟩
    · rcases ih (a + 1) with ⟨rs, hl, hw, hs⟩ | ⟨b, h1, h2, hb, hs⟩
      · exact .inl ⟨r :: rs, by simp [hl], by simp [Memory.readWords, hr, hw],
          by simp [State.fetchResidues, hf, hs]⟩
      · exact .inr ⟨b, by omega, by omega, hb, by simp [State.fetchResidues, hf, hs]⟩
    · exact .inr ⟨a, by omega, by omega, hc, by simp [State.fetchResidues, hf]⟩

/-- The words of an element are as many as its type's width. -/
def ElementFormat.Fits {α : Type} (F : ElementFormat α) (x : α) : Prop :=
  (F.residues x).length = F.width ∧ F.ofResidues (F.residues x) = x

theorem baseFormat_fits (r : Residue) : baseFormat.Fits r := ⟨rfl, rfl⟩

theorem extFormat_fits {c : Config} {rs : List Residue} (h : rs.length = c.degree) : (extFormat c).Fits rs :=
  ⟨h, rfl⟩

/-- A format that reads back what it lays out. -/
structure ElementFormat.Lawful {α : Type} (F : ElementFormat α) : Prop where
  residues_ofResidues : ∀ rs : List Residue, rs.length = F.width → F.residues (F.ofResidues rs) = rs

theorem baseFormat_lawful : baseFormat.Lawful where
  residues_ofResidues rs h := by
    match rs, h with
    | [r], _ => rfl

theorem extFormat_lawful (c : Config) : (extFormat c).Lawful where
  residues_ofResidues _ _ := rfl

/-- The element whose words stand at `a` is what a fetch gives. -/
theorem State.fetchElement_ok {α : Type} {s : State} {F : ElementFormat α} {x : α} {a : Nat} (hx : F.Fits x)
    (h : s.mem.readWords a F.width = F.words x) : s.fetchElement F a = .ok x := by
  rw [← hx.1] at h
  rw [State.fetchElement, ← hx.1, State.fetchResidues_ok h]
  exact congrArg Except.ok hx.2

/-- An element fetch gives an element whose words stand there, or refuses one of the words. -/
theorem State.fetchElement_cases {α : Type} (s : State) {F : ElementFormat α} (hF : F.Lawful) (a : Nat) :
    (∃ x, F.Fits x ∧ s.mem.readWords a F.width = F.words x ∧ s.fetchElement F a = .ok x) ∨
    (∃ b, a ≤ b ∧ b < a + F.width ∧ ¬ Word.Canonical (s.mem.read b) ∧
      s.fetchElement F a = .error (.refuse (.nonCanonicalOperand b))) := by
  rcases s.fetchResidues_cases a F.width with ⟨rs, hl, hw, hs⟩ | ⟨b, h1, h2, hb, hs⟩
  · have hrs := hF.residues_ofResidues rs hl
    exact .inl ⟨F.ofResidues rs, ⟨by rw [hrs, hl], by rw [hrs]⟩, by rw [ElementFormat.words, hrs, hw],
      by rw [State.fetchElement, hs]; rfl⟩
  · exact .inr ⟨b, h1, h2, hb, by rw [State.fetchElement, hs]; rfl⟩

/-- A base fetch reads one word. -/
theorem State.fetchElement_base {s : State} {a : Nat} {r : Residue} (h : s.mem.read a = r.toWord) :
    s.fetchElement baseFormat a = .ok r :=
  State.fetchElement_ok (baseFormat_fits r) (by simp [Memory.readWords, h])

theorem Memory.readWords_append (m : Memory) (a n k : Nat) :
    m.readWords a (n + k) = m.readWords a n ++ m.readWords (a + n) k := by
  induction n generalizing a with
  | zero => simp [Memory.readWords]
  | succ n ih =>
    rw [show n + 1 + k = (n + k) + 1 by omega, Memory.readWords, ih, Memory.readWords, List.cons_append,
      show a + 1 + n = a + (n + 1) by omega]

/-- The sequence whose words stand at `a`, element after element, is what a fetch gives. -/
theorem State.fetchSeq_ok {α : Type} {s : State} {F : ElementFormat α} {xs : List α} {a : Nat}
    (hx : ∀ x ∈ xs, F.Fits x) (h : s.mem.readWords a (xs.length * F.width) = F.flatten xs) :
    s.fetchSeq F a xs.length = .ok xs := by
  induction xs generalizing a with
  | nil => rfl
  | cons x xs ih =>
    have hw : (F.words x).length = F.width := by
      rw [ElementFormat.words, List.length_map, (hx x (by simp)).1]
    rw [List.length_cons, Nat.succ_mul, Nat.add_comm, Memory.readWords_append,
      ElementFormat.flatten, List.flatMap_cons] at h
    obtain ⟨h1, h2⟩ := List.append_inj h (by simp [hw])
    rw [List.length_cons, State.fetchSeq, State.fetchElement_ok (hx x (by simp)) h1,
      ih (fun y hy => hx y (by simp [hy])) h2]

/-- A sequence fetch gives the sequence that stands there, or refuses one of its words. -/
theorem State.fetchSeq_cases {α : Type} (s : State) {F : ElementFormat α} (hF : F.Lawful) (a n : Nat) :
    (∃ xs : List α, xs.length = n ∧ (∀ x ∈ xs, F.Fits x) ∧
      s.mem.readWords a (n * F.width) = F.flatten xs ∧ s.fetchSeq F a n = .ok xs) ∨
    (∃ b, a ≤ b ∧ b < a + n * F.width ∧ ¬ Word.Canonical (s.mem.read b) ∧
      s.fetchSeq F a n = .error (.refuse (.nonCanonicalOperand b))) := by
  induction n generalizing a with
  | zero => exact .inl ⟨[], rfl, by simp, by simp [Memory.readWords, ElementFormat.flatten], rfl⟩
  | succ n ih =>
    have hm : (n + 1) * F.width = F.width + n * F.width := by rw [Nat.succ_mul, Nat.add_comm]
    rcases s.fetchElement_cases hF a with ⟨x, hx, hw, hf⟩ | ⟨b, h1, h2, hb, hf⟩
    · rcases ih (a + F.width) with ⟨xs, hl, hxs, hws, hs⟩ | ⟨b, h1, h2, hb, hs⟩
      · refine .inl ⟨x :: xs, by simp [hl], ?_, ?_, by simp [State.fetchSeq, hf, hs]⟩
        · intro y hy
          rcases List.mem_cons.1 hy with rfl | hy
          · exact hx
          · exact hxs y hy
        · rw [hm, Memory.readWords_append, hw, hws]
          rfl
      · exact .inr ⟨b, by omega, by omega, hb, by simp [State.fetchSeq, hf, hs]⟩
    · exact .inr ⟨b, h1, by omega, hb, by simp [State.fetchSeq, hf]⟩

/-! ## The end of a command -/

/-- All that the end of a command can be: the staged words are committed; or a status is raised and nothing
else changes; or the spec gives the command no meaning. It is never a fault. -/
theorem State.finish_cases (s : State) (d : Nat) (r : Except Stop (List Word)) :
    (∃ ws, r = .ok ws ∧ s.finish d r = .next (s.commit d ws)) ∨
    (∃ st, r = .error (.status st) ∧ s.finish d r = .next (s.fail st)) ∨
    (∃ e, r = .error (.refuse e) ∧ s.finish d r = .refused e) := by
  match r with
  | .ok ws => exact .inl ⟨ws, rfl, rfl⟩
  | .error (.status st) => exact .inr (.inl ⟨st, rfl, rfl⟩)
  | .error (.refuse e) => exact .inr (.inr ⟨e, rfl, rfl⟩)

@[simp] theorem State.finish_ok (s : State) (d : Nat) (ws : List Word) :
    s.finish d (.ok ws) = .next (s.commit d ws) := rfl

@[simp] theorem State.finish_status (s : State) (d : Nat) (st : Status) :
    s.finish d (.error (.status st)) = .next (s.fail st) := rfl

@[simp] theorem State.finish_refuse (s : State) (d : Nat) (e : Refusal) :
    s.finish d (.error (.refuse e)) = .refused e := rfl

/-! ## The shapes of the commands, when every range is inside `MEM` and every operand an element -/

@[simp] theorem Except.ok_bind {ε α β : Type} (x : α) (f : α → Except ε β) :
    ((Except.ok x : Except ε α) >>= f) = f x := rfl

@[simp] theorem Except.error_bind {ε α β : Type} (e : ε) (f : α → Except ε β) :
    ((Except.error e : Except ε α) >>= f) = .error e := rfl

theorem State.binaryWords_eq {α : Type} {s : State} {F : ElementFormat α} (f : α → α → Except Stop α)
    {d a b : Nat} {x y : α} (hd : d + F.width ≤ s.hw.memWords) (ha : a + F.width ≤ s.hw.memWords)
    (hb : b + F.width ≤ s.hw.memWords) (hx : s.fetchElement F a = .ok x) (hy : s.fetchElement F b = .ok y) :
    s.binaryWords F f d a b = (f x y).map F.words := by
  simp only [State.binaryWords, State.checkRange_ok hd, State.checkRange_ok ha, State.checkRange_ok hb, hx, hy,
    Except.ok_bind]
  cases f x y <;> rfl

theorem State.unaryWords_eq {α : Type} {s : State} {F : ElementFormat α} (f : α → Except Stop α)
    {d a : Nat} {x : α} (hd : d + F.width ≤ s.hw.memWords) (ha : a + F.width ≤ s.hw.memWords)
    (hx : s.fetchElement F a = .ok x) : s.unaryWords F f d a = (f x).map F.words := by
  simp only [State.unaryWords, State.checkRange_ok hd, State.checkRange_ok ha, hx, Except.ok_bind]
  cases f x <;> rfl

theorem State.powerWords_eq {α : Type} {s : State} {F : ElementFormat α} (f : α → Nat → Except Stop α)
    {d a e : Nat} {x : α} (hd : d + F.width ≤ s.hw.memWords) (ha : a + F.width ≤ s.hw.memWords)
    (he : e + 1 ≤ s.hw.memWords) (hx : s.fetchElement F a = .ok x) :
    s.powerWords F f d a e = (f x (s.fetchRaw e)).map F.words := by
  simp only [State.powerWords, State.checkRange_ok hd, State.checkRange_ok ha, State.checkRange_ok he, hx,
    Except.ok_bind]
  cases f x (s.fetchRaw e) <;> rfl

theorem State.rootWords_eq {s : State} (f : Nat → Except Stop Residue) {d a : Nat}
    (hd : d + 1 ≤ s.hw.memWords) (ha : a + 1 ≤ s.hw.memWords) :
    s.rootWords f d a = (f (s.fetchRaw a)).map baseFormat.words := by
  have hd' : d + baseFormat.width ≤ s.hw.memWords := hd
  simp only [State.rootWords, State.checkRange_ok hd', State.checkRange_ok ha, Except.ok_bind]
  cases f (s.fetchRaw a) <;> rfl

theorem ispow2_two_pow (k : Nat) : ispow2 (2 ^ k) = true := by
  have h := Nat.two_pow_pos k
  simp only [ispow2, Bool.and_eq_true, bne_iff_ne, beq_iff_eq]
  refine ⟨by omega, ?_⟩
  rw [Nat.and_two_pow_sub_one_eq_mod, Nat.mod_self]

/-- `ispow2` says what its name says: `n = 2^k` for some `k` (R10). -/
theorem ispow2_iff {n : Nat} : ispow2 n = true ↔ ∃ k, n = 2 ^ k := by
  constructor
  · intro h
    simp only [ispow2, Bool.and_eq_true, bne_iff_ne, beq_iff_eq] at h
    refine ⟨n.log2, ?_⟩
    by_contra hne
    have hlow : 2 ^ n.log2 ≤ n := Nat.log2_self_le h.1
    have hhigh : n < 2 ^ (n.log2 + 1) := Nat.lt_log2_self
    have h1 : n.testBit n.log2 = true := by
      rw [Nat.testBit_eq_decide_div_mod_eq]
      have : n / 2 ^ n.log2 = 1 := Nat.div_eq_of_lt_le (by omega) (by rw [pow_succ] at hhigh; omega)
      simp [this]
    have h2 : (n - 1).testBit n.log2 = true := by
      rw [Nat.testBit_eq_decide_div_mod_eq]
      have : (n - 1) / 2 ^ n.log2 = 1 := Nat.div_eq_of_lt_le (by omega) (by rw [pow_succ] at hhigh; omega)
      simp [this]
    have h3 := congrArg (fun x => x.testBit n.log2) h.2
    simp [Nat.testBit_and, h1, h2] at h3
  · rintro ⟨k, rfl⟩
    exact ispow2_two_pow k

/-- The test of R10, as the claims write it. -/
theorem not_ispow2_iff {n : Nat} : ispow2 n = false ↔ ∀ k, n ≠ 2 ^ k := by
  rw [← Bool.not_eq_true, ispow2_iff]
  simp

theorem checkLength_ok {n : Nat} (h : ispow2 n) : checkLength n = .ok () := by
  rw [checkLength, if_pos]
  refine ⟨?_, h⟩
  rintro rfl
  exact absurd h (by decide)

theorem checkLength_bad {n : Nat} (h : ¬ ispow2 n) : checkLength n = .error (.status .invalidLength) := by
  rw [checkLength, if_neg (fun h' => h h'.2)]

theorem State.transformWords_eq {α : Type} {s : State} {F : ElementFormat α} {rootRange : Except Stop Unit}
    {root : Nat → Except Stop α} (f : α → List α → List α) {d a : Nat} {r : α} {xs : List α}
    (ha : a + 1 ≤ s.hw.memWords) (hr : rootRange = .ok ()) (hp : ispow2 (s.fetchRaw a))
    (hd : d + s.fetchRaw a * F.width ≤ s.hw.memWords) (hroot : root (s.fetchRaw a) = .ok r)
    (hxs : s.fetchSeq F d (s.fetchRaw a) = .ok xs) :
    s.transformWords F rootRange root f d a = .ok (F.flatten (f r xs)) := by
  simp only [State.transformWords, State.checkRange_ok ha, hr, checkLength_ok hp, State.checkRange_ok hd, hroot,
    hxs, Except.ok_bind]
  rfl

end Sys2Proof.Machine
end

