-- ==== Sys2Proof/Laws/Field.lean ====
section
/-! SUPPORT. The base-field functions are the operations of the field of integers modulo `P`
(spec/40_modular_adder.md R56, spec/41_modular_multiplier.md R60), and `pow_T` is the power of any
multiplication that an element type's `mul` represents (spec/42_powering_engine.md R61). -/

namespace Sys2Proof.Machine

/-- `P` is prime (R7), in the form type class search takes from the context. -/
theorem P_fact : Fact (Nat.Prime P) := ⟨P_prime⟩

theorem reduce_val (x : Int) : ((reduce x).val : Int) = x % (P : Int) :=
  Int.toNat_of_nonneg (Int.emod_nonneg x (by decide))

theorem Residue.toField_injective {a b : Residue} (h : Residue.toField a = Residue.toField b) : a = b := by
  apply Fin.ext
  have h' := (ZMod.natCast_eq_natCast_iff' a.val b.val P).1 h
  rwa [Nat.mod_eq_of_lt a.isLt, Nat.mod_eq_of_lt b.isLt] at h'

@[simp] theorem toField_reduce (x : Int) : Residue.toField (reduce x) = (x : ZMod P) := by
  have h : (((reduce x).val : Int) : ZMod P) = ((x % (P : Int) : Int) : ZMod P) :=
    congrArg Int.cast (reduce_val x)
  rw [ZMod.intCast_mod] at h
  rw [Residue.toField, ← h, Int.cast_natCast]

@[simp] theorem toField_zero : Residue.toField Residue.zero = 0 := Nat.cast_zero

@[simp] theorem toField_one : Residue.toField Residue.one = 1 := Nat.cast_one

@[simp] theorem toField_badd (a b : Residue) :
    Residue.toField (badd a b) = Residue.toField a + Residue.toField b := by
  rw [badd, toField_reduce]
  push_cast
  rfl

@[simp] theorem toField_bsub (a b : Residue) :
    Residue.toField (bsub a b) = Residue.toField a - Residue.toField b := by
  rw [bsub, toField_reduce]
  push_cast
  rfl

@[simp] theorem toField_bneg (a : Residue) : Residue.toField (bneg a) = -Residue.toField a := by
  rw [bneg, toField_reduce]
  push_cast
  rw [zero_sub]
  rfl

@[simp] theorem toField_bmul (a b : Residue) :
    Residue.toField (bmul a b) = Residue.toField a * Residue.toField b := by
  rw [bmul, toField_reduce]
  push_cast
  rfl

theorem toField_eq_zero {a : Residue} : Residue.toField a = 0 ↔ a = Residue.zero := by
  rw [← toField_zero]
  exact ⟨Residue.toField_injective, fun h => h ▸ rfl⟩

/-- A multiplication that an element type's `mul` represents: `f` carries `mul` and `one` to those of a monoid,
on the elements that `ok` holds of. -/
structure FieldOps.Represents {α M : Type} [Monoid M] (T : FieldOps α) (ok : α → Prop) (f : α → M) : Prop where
  one_ok : ok T.one
  mul_ok : ∀ a b, ok a → ok b → ok (T.mul a b)
  map_one : f T.one = 1
  map_mul : ∀ a b, ok a → ok b → f (T.mul a b) = f a * f b

theorem powLoop_represents {α M : Type} [Monoid M] {T : FieldOps α} {ok : α → Prop} {f : α → M}
    (h : T.Represents ok f) (fuel : Nat) {acc base : α} {e : Nat} (hacc : ok acc) (hbase : ok base)
    (he : e < 2 ^ fuel) :
    ok (powLoop T fuel acc base e) ∧ f (powLoop T fuel acc base e) = f acc * f base ^ e := by
  induction fuel generalizing acc base e with
  | zero =>
    have : e = 0 := by simpa using he
    subst this
    exact ⟨hacc, by rw [powLoop, pow_zero, mul_one]⟩
  | succ fuel ih =>
    rw [powLoop]
    split
    · rename_i h0
      subst h0
      exact ⟨hacc, by rw [pow_zero, mul_one]⟩
    · have hsq := h.mul_ok base base hbase hbase
      have hlt : e >>> 1 < 2 ^ fuel := by
        rw [Nat.shiftRight_eq_div_pow, pow_one]
        rw [pow_succ] at he
        omega
      have hdiv : e >>> 1 = e / 2 := by rw [Nat.shiftRight_eq_div_pow, pow_one]
      have hpow : f (T.mul base base) ^ (e >>> 1) = f base ^ (2 * (e / 2)) := by
        rw [h.map_mul base base hbase hbase, hdiv, ← pow_two, ← pow_mul]
      rcases Nat.mod_two_eq_zero_or_one e with hm | hm
      · have := ih (acc := acc) hacc hsq hlt
        rw [if_neg (by omega)]
        refine ⟨this.1, ?_⟩
        rw [this.2, hpow, show 2 * (e / 2) = e by omega]
      · have := ih (h.mul_ok acc base hacc hbase) hsq hlt
        rw [if_pos hm]
        refine ⟨this.1, ?_⟩
        rw [this.2, hpow, h.map_mul acc base hacc hbase, mul_assoc, ← pow_succ',
          show 2 * (e / 2) + 1 = e by omega]

/-- `pow_T(x, n)` is the `n`-fold product (R61). -/
theorem pow_represents {α M : Type} [Monoid M] {T : FieldOps α} {ok : α → Prop} {f : α → M}
    (h : T.Represents ok f) {x : α} (hx : ok x) (n : Nat) :
    ok (pow T x n) ∧ f (pow T x n) = f x ^ n := by
  have := powLoop_represents h (n.log2 + 1) h.one_ok hx (Nat.lt_log2_self (n := n))
  rw [pow]
  exact ⟨this.1, by rw [this.2, h.map_one, one_mul]⟩

theorem baseOps_represents : baseOps.Represents (fun _ => True) Residue.toField where
  one_ok := trivial
  mul_ok _ _ _ _ := trivial
  map_one := toField_one
  map_mul a b _ _ := toField_bmul a b

@[simp] theorem toField_pow (x : Residue) (n : Nat) :
    Residue.toField (pow baseOps x n) = Residue.toField x ^ n :=
  (pow_represents baseOps_represents trivial n).2

end Sys2Proof.Machine
end

