-- ==== Sys2Proof/Laws/Extension.lean ====
section
/-! SUPPORT. The extension-field functions are the operations on polynomials modulo `m(x)`
(spec/45_field_extension.md R77 to R83). -/

namespace Sys2Proof.Machine

open Polynomial

theorem coeff_polyOf (d : List Residue) (i : Nat) :
    (polyOf d).coeff i = Residue.toField (coeff d i) := by
  induction d generalizing i with
  | nil => simp [polyOf, coeff]
  | cons r rs ih =>
    cases i with
    | zero => simp [polyOf, coeff]
    | succ i =>
      rw [polyOf, coeff_add, coeff_X_mul, coeff_C_succ, zero_add, ih]
      simp [coeff]

theorem coeff_of_length_le {d : List Residue} {i : Nat} (h : d.length ≤ i) : coeff d i = Residue.zero := by
  rw [coeff, List.getD_eq_getElem?_getD, List.getElem?_eq_none h]
  rfl

theorem degree_polyOf_lt (d : List Residue) : (polyOf d).degree < d.length := by
  rw [degree_lt_iff_coeff_zero]
  intro m hm
  rw [coeff_polyOf, coeff_of_length_le hm, toField_zero]

/-- A list of coefficients is known by its length and its polynomial. -/
theorem polyOf_injective {a b : List Residue} (hl : a.length = b.length) (h : polyOf a = polyOf b) : a = b := by
  apply List.ext_getElem hl
  intro i h1 h2
  have := congrArg (fun p => p.coeff i) h
  simp only [coeff_polyOf] at this
  have := Residue.toField_injective this
  simpa [coeff, h1, h2] using this

theorem coeff_set (d : List Residue) (k i : Nat) (x : Residue) (hk : k < d.length) :
    coeff (d.set k x) i = if i = k then x else coeff d i := by
  rw [coeff, coeff, List.getD_eq_getElem?_getD, List.getD_eq_getElem?_getD, List.getElem?_set]
  split
  · rename_i h; subst h; simp
  · rename_i h; rw [if_neg (Ne.symm h)]

theorem polyOf_set {d : List Residue} {k : Nat} (x : Residue) (hk : k < d.length) :
    polyOf (d.set k x) = polyOf d + C (Residue.toField x - Residue.toField (coeff d k)) * X ^ k := by
  ext i
  rw [coeff_polyOf, coeff_set d k i x hk, coeff_add, coeff_polyOf, coeff_C_mul, coeff_X_pow]
  split
  · rename_i h; subst h; ring
  · ring

theorem polyOf_addAt {d : List Residue} {k : Nat} (x : Residue) (hk : k < d.length) :
    polyOf (addAt d k x) = polyOf d + C (Residue.toField x) * X ^ k := by
  rw [addAt, polyOf_set _ hk, toField_badd, add_sub_cancel_left]

theorem polyOf_subAt {d : List Residue} {k : Nat} (x : Residue) (hk : k < d.length) :
    polyOf (subAt d k x) = polyOf d - C (Residue.toField x) * X ^ k := by
  rw [subAt, polyOf_set _ hk, toField_bsub, sub_sub_cancel_left, C_neg, neg_mul, sub_eq_add_neg]

@[simp] theorem addAt_length (d : List Residue) (k : Nat) (x : Residue) : (addAt d k x).length = d.length := by
  simp [addAt]

@[simp] theorem subAt_length (d : List Residue) (k : Nat) (x : Residue) : (subAt d k x).length = d.length := by
  simp [subAt]

theorem polyOf_replicate_zero (n : Nat) : polyOf (List.replicate n Residue.zero) = 0 := by
  induction n with
  | zero => rfl
  | succ n ih => rw [List.replicate_succ, polyOf, ih, toField_zero, C_0, mul_zero, zero_add]

/-- A polynomial from the coefficients of its list. -/
theorem polyOf_eq_sum (d : List Residue) (n : Nat) (h : d.length ≤ n) :
    polyOf d = ∑ i ∈ Finset.range n, C (Residue.toField (coeff d i)) * X ^ i := by
  ext i
  rw [coeff_polyOf, finsetSum_coeff]
  simp only [coeff_C_mul, coeff_X_pow, mul_ite, mul_one, mul_zero]
  rw [Finset.sum_ite_eq]
  split
  · rfl
  · rename_i hi
    rw [coeff_of_length_le (by simp at hi; omega), toField_zero]

/-- The rounds of an accumulation into a list of coefficients, each adding `C (g i) * X ^ (pos i)`. -/
theorem polyOf_foldl_range (step : List Residue → Nat → List Residue) (g : Nat → Polynomial (ZMod P))
    (len n : Nat) (hstep : ∀ d i, d.length = len → i < n →
      (step d i).length = len ∧ polyOf (step d i) = polyOf d + g i)
    (d : List Residue) (hd : d.length = len) :
    ((List.range n).foldl step d).length = len ∧
      polyOf ((List.range n).foldl step d) = polyOf d + ∑ i ∈ Finset.range n, g i := by
  induction n with
  | zero => exact ⟨hd, by simp⟩
  | succ n ih =>
    have h := ih fun d i hd hi => hstep d i hd (by omega)
    rw [List.range_succ, List.foldl_append, List.foldl_cons, List.foldl_nil, Finset.sum_range_succ, ← add_assoc,
      ← h.2]
    exact hstep _ n h.1 (by omega)

/-- The convolution is the product of polynomials (R80). -/
theorem convolve_spec {k : Nat} {a b : List Residue} (ha : a.length = k) (hb : b.length = k) :
    (convolve k a b).length = 2 * k - 1 ∧ polyOf (convolve k a b) = polyOf a * polyOf b := by
  have inner : ∀ i, i < k → ∀ d : List Residue, d.length = 2 * k - 1 →
      ((List.range k).foldl (fun d j => addAt d (i + j) (bmul (coeff a i) (coeff b j))) d).length = 2 * k - 1 ∧
      polyOf ((List.range k).foldl (fun d j => addAt d (i + j) (bmul (coeff a i) (coeff b j))) d) =
        polyOf d + C (Residue.toField (coeff a i)) * X ^ i * polyOf b := by
    intro i hi d hd
    have h := polyOf_foldl_range (fun d j => addAt d (i + j) (bmul (coeff a i) (coeff b j)))
      (fun j => C (Residue.toField (coeff a i)) * X ^ i * (C (Residue.toField (coeff b j)) * X ^ j))
      (2 * k - 1) k (fun d j hd hj => ⟨by simp [hd], by
        rw [polyOf_addAt _ (by omega), toField_bmul, C_mul, pow_add]
        ring⟩) d hd
    refine ⟨h.1, ?_⟩
    rw [h.2, ← Finset.mul_sum, ← polyOf_eq_sum b k (by omega)]
  have h := polyOf_foldl_range
    (fun d i => (List.range k).foldl (fun d j => addAt d (i + j) (bmul (coeff a i) (coeff b j))) d)
    (fun i => C (Residue.toField (coeff a i)) * X ^ i * polyOf b) (2 * k - 1) k
    (fun d i hd hi => inner i hi d hd) (List.replicate (2 * k - 1) Residue.zero) (by simp)
  refine ⟨h.1, ?_⟩
  rw [convolve, h.2, polyOf_replicate_zero, zero_add, ← Finset.sum_mul, ← polyOf_eq_sum a k (by omega)]

theorem list_sum_map_range {M : Type} [AddCommMonoid M] (f : Nat → M) (n : Nat) :
    ((List.range n).map f).sum = ∑ i ∈ Finset.range n, f i := by
  induction n with
  | zero => rfl
  | succ n ih => rw [List.range_succ, List.map_append, List.sum_append, ih, Finset.sum_range_succ]; simp

theorem modulus_eq (c : Config) :
    modulus c = X ^ c.degree + ∑ i ∈ Finset.range c.degree, C (Residue.toField (coeff c.poly i)) * X ^ i := by
  rw [modulus, list_sum_map_range]
  rfl

theorem modulus_monic (c : Config) : (modulus c).Monic := by
  rw [modulus_eq]
  apply monic_X_pow_add
  apply lt_of_le_of_lt (degree_sum_le _ _)
  rw [Finset.sup_lt_iff (by exact_mod_cast WithBot.bot_lt_coe c.degree)]
  intro i hi
  exact lt_of_le_of_lt (degree_C_mul_X_pow_le i _) (by exact_mod_cast Finset.mem_range.1 hi)

theorem modulus_degree (c : Config) : (modulus c).degree = c.degree := by
  have := P_fact
  rw [modulus_eq, degree_add_eq_left_of_degree_lt]
  · rw [degree_X_pow]
  · rw [degree_X_pow]
    apply lt_of_le_of_lt (degree_sum_le _ _)
    rw [Finset.sup_lt_iff (by exact_mod_cast WithBot.bot_lt_coe c.degree)]
    intro i hi
    exact lt_of_le_of_lt (degree_C_mul_X_pow_le i _) (by exact_mod_cast Finset.mem_range.1 hi)

theorem modulusIrreducible_iff (c : Config) : c.ModulusIrreducible ↔ Irreducible (modulus c) := Iff.rfl

/-- One round of the reduction subtracts a multiple of `m(x)`, clears its own coefficient and leaves the higher
ones (R80). -/
theorem reduceRound_spec (c : Config) {d : List Residue} {t : Nat} (hK : c.degree ≤ t) (ht : t < d.length) :
    (reduceRound c d t).length = d.length ∧
    polyOf (reduceRound c d t) =
      polyOf d - C (Residue.toField (coeff d t)) * X ^ (t - c.degree) * modulus c ∧
    (∀ i, t < i → coeff (reduceRound c d t) i = coeff d i) ∧ coeff (reduceRound c d t) t = Residue.zero := by
  have h := polyOf_foldl_range
    (fun e i => subAt e (t - c.degree + i) (bmul (coeff d t) (coeff c.poly i)))
    (fun i => - (C (Residue.toField (coeff d t)) * X ^ (t - c.degree) *
      (C (Residue.toField (coeff c.poly i)) * X ^ i))) d.length c.degree
    (fun e i he hi => ⟨by simp [he], by
      rw [polyOf_subAt _ (by omega), toField_bmul, C_mul, pow_add]
      ring⟩) (d.set t Residue.zero) (by simp)
  have high : ∀ n, n ≤ c.degree → ∀ i, t ≤ i →
      coeff ((List.range n).foldl
        (fun e i => subAt e (t - c.degree + i) (bmul (coeff d t) (coeff c.poly i))) (d.set t Residue.zero)) i
        = coeff (d.set t Residue.zero) i ∧
      ((List.range n).foldl
        (fun e i => subAt e (t - c.degree + i) (bmul (coeff d t) (coeff c.poly i))) (d.set t Residue.zero)).length
        = d.length := by
    intro n
    induction n with
    | zero => intro _ i _; exact ⟨rfl, by simp⟩
    | succ n ih =>
      intro hn i hi
      have := ih (by omega) i hi
      rw [List.range_succ, List.foldl_append, List.foldl_cons, List.foldl_nil]
      refine ⟨?_, by simp [this.2]⟩
      rw [subAt, coeff_set _ _ _ _ (by omega), if_neg (by omega), this.1]
  refine ⟨h.1, ?_, ?_, ?_⟩
  · rw [reduceRound, h.2, polyOf_set _ ht, Finset.sum_neg_distrib, ← Finset.mul_sum, modulus_eq, mul_add, toField_zero,
      mul_assoc (C _) (X ^ (t - c.degree)) (X ^ c.degree), ← pow_add, Nat.sub_add_cancel hK, zero_sub, C_neg]
    ring
  · intro i hi
    rw [reduceRound, (high c.degree le_rfl i (by omega)).1, coeff_set _ _ _ _ ht, if_neg (by omega)]
  · rw [reduceRound, (high c.degree le_rfl t le_rfl).1, coeff_set _ _ _ _ ht, if_pos rfl]

theorem polyOf_take {d : List Residue} {k : Nat} (h : ∀ i, k ≤ i → coeff d i = Residue.zero) :
    polyOf (d.take k) = polyOf d := by
  ext i
  rw [coeff_polyOf, coeff_polyOf]
  congr 1
  by_cases hi : i < k
  · simp [coeff, hi]
  · rw [h i (by omega), coeff_of_length_le]
    simp
    omega

/-- The reduction takes `2K − 1` coefficients to the remainder modulo `m(x)` (R80). -/
theorem reduceModulus_spec (c : Config) (hc : 1 ≤ c.degree) {d : List Residue} (hd : d.length = 2 * c.degree - 1) :
    (reduceModulus c d).length = c.degree ∧ polyOf (reduceModulus c d) = polyOf d %ₘ modulus c := by
  have loop : ∀ n, n ≤ c.degree - 1 →
      ∃ e : List Residue, (List.range n).foldl (fun d u => reduceRound c d (2 * c.degree - 2 - u)) d = e ∧
        e.length = 2 * c.degree - 1 ∧ (∃ q, polyOf e = polyOf d - q * modulus c) ∧
        ∀ i, 2 * c.degree - 2 - n < i → coeff e i = Residue.zero := by
    intro n
    induction n with
    | zero =>
      intro _
      exact ⟨d, rfl, hd, ⟨0, by simp⟩, fun i hi => coeff_of_length_le (by omega)⟩
    | succ n ih =>
      intro hn
      obtain ⟨e, he, hl, ⟨q, hq⟩, hz⟩ := ih (by omega)
      have hr := reduceRound_spec c (d := e) (t := 2 * c.degree - 2 - n) (by omega) (by omega)
      rw [List.range_succ, List.foldl_append, List.foldl_cons, List.foldl_nil, he]
      refine ⟨_, rfl, by rw [hr.1, hl], ⟨q + C (Residue.toField (coeff e (2 * c.degree - 2 - n))) *
        X ^ (2 * c.degree - 2 - n - c.degree), ?_⟩, ?_⟩
      · rw [hr.2.1, hq]; ring
      · intro i hi
        rcases Nat.lt_or_ge (2 * c.degree - 2 - n) i with h | h
        · rw [hr.2.2.1 i h, hz i h]
        · rw [show i = 2 * c.degree - 2 - n by omega]
          exact hr.2.2.2
  obtain ⟨e, he, hl, ⟨q, hq⟩, hz⟩ := loop (c.degree - 1) le_rfl
  have htake : polyOf (reduceModulus c d) = polyOf e := by
    rw [reduceModulus, he]
    exact polyOf_take fun i hi => hz i (by omega)
  have hlen : (reduceModulus c d).length = c.degree := by
    rw [reduceModulus, he, List.length_take]
    omega
  refine ⟨hlen, ?_⟩
  have hdeg : (polyOf (reduceModulus c d)).degree < (modulus c).degree := by
    have := degree_polyOf_lt (reduceModulus c d)
    rwa [hlen, ← modulus_degree] at this
  have := P_fact
  rw [← (modByMonic_eq_self_iff (modulus_monic c)).2 hdeg, htake, hq, sub_modByMonic,
    (modByMonic_eq_zero_iff_dvd (modulus_monic c)).2 (dvd_mul_left _ q), sub_zero]

/-- `emul` is the product modulo `m(x)` (R80). -/
theorem emul_spec (c : Config) (hc : 1 ≤ c.degree) {a b : List Residue} (ha : a.length = c.degree)
    (hb : b.length = c.degree) :
    (emul c a b).length = c.degree ∧ polyOf (emul c a b) = (polyOf a * polyOf b) %ₘ modulus c := by
  have h := convolve_spec ha hb
  have h2 := reduceModulus_spec c hc h.1
  exact ⟨h2.1, by rw [emul, h2.2, h.2]⟩

theorem polyOf_lift (c : Config) (r : Residue) : polyOf (lift c r) = C (Residue.toField r) := by
  rw [lift, polyOf, polyOf_replicate_zero, mul_zero, add_zero]

theorem lift_length (c : Config) (hc : 1 ≤ c.degree) (r : Residue) : (lift c r).length = c.degree := by
  simp [lift]
  omega

/-- `emul` and `ONE_E` are the multiplication and the identity of the polynomials modulo `m(x)`. -/
theorem extOps_represents (c : Config) (hc : 1 ≤ c.degree) :
    (extOps c).Represents (fun a => a.length = c.degree) (fun a => AdjoinRoot.mk (modulus c) (polyOf a)) where
  one_ok := lift_length c hc _
  mul_ok a b ha hb := (emul_spec c hc ha hb).1
  map_one := by
    show AdjoinRoot.mk (modulus c) (polyOf (lift c Residue.one)) = 1
    rw [polyOf_lift, toField_one, C_1, map_one]
  map_mul a b ha hb := by
    show AdjoinRoot.mk (modulus c) (polyOf (emul c a b)) = _
    rw [(emul_spec c hc ha hb).2, ← map_mul, AdjoinRoot.mk_eq_mk]
    have := modByMonic_add_div (polyOf a * polyOf b) (modulus c)
    exact ⟨-((polyOf a * polyOf b) /ₘ modulus c), by rw [mul_neg]; linear_combination this⟩

theorem eadd_spec {a b : List Residue} (h : a.length = b.length) :
    (eadd a b).length = a.length ∧ polyOf (eadd a b) = polyOf a + polyOf b := by
  refine ⟨by simp [eadd, h], ?_⟩
  induction a generalizing b with
  | nil => cases b with
    | nil => simp [eadd, polyOf]
    | cons => simp at h
  | cons x xs ih => cases b with
    | nil => simp at h
    | cons y ys =>
      have := ih (b := ys) (by simpa using h)
      rw [eadd] at this ⊢
      rw [List.zipWith_cons_cons, polyOf, this, polyOf, polyOf, toField_badd, C_add]
      ring

theorem esub_spec {a b : List Residue} (h : a.length = b.length) :
    (esub a b).length = a.length ∧ polyOf (esub a b) = polyOf a - polyOf b := by
  refine ⟨by simp [esub, h], ?_⟩
  induction a generalizing b with
  | nil => cases b with
    | nil => simp [esub, polyOf]
    | cons => simp at h
  | cons x xs ih => cases b with
    | nil => simp at h
    | cons y ys =>
      have := ih (b := ys) (by simpa using h)
      rw [esub] at this ⊢
      rw [List.zipWith_cons_cons, polyOf, this, polyOf, polyOf, toField_bsub, C_sub]
      ring

theorem eneg_spec (a : List Residue) : (eneg a).length = a.length ∧ polyOf (eneg a) = -polyOf a := by
  refine ⟨by simp [eneg], ?_⟩
  induction a with
  | nil => simp [eneg, polyOf]
  | cons x xs ih =>
    rw [eneg] at ih ⊢
    rw [List.map_cons, polyOf, ih, polyOf, toField_bneg, C_neg]
    ring

end Sys2Proof.Machine
end

