-- ==== Sys2Proof/Laws/PerInstr.lean ====
section
/-! SUPPORT. Statements made of every command as syntax, one lemma per constructor. -/

namespace Sys2Proof.Laws

/-- The command word of a command has its `OPC` value, `RSV` zero, its addresses in their fields, and `SRC2` zero
where the command has none (spec/30_encoding.md R40, R42, R43, R47). -/
def EncodedFields.Statement (i : Instr) : Prop :=
  CommandWord.opc (encode i) = i.opcode ∧ CommandWord.rsv (encode i) = 0 ∧
  CommandWord.dst (encode i) = BitVec.ofNat 32 i.dst ∧ CommandWord.src1 (encode i) = BitVec.ofNat 32 i.src1 ∧
  CommandWord.src2 (encode i) = BitVec.ofNat 32 (i.src2?.getD 0)

theorem EncodedFields.all (i : Instr) : EncodedFields.Statement i := by
  simp [EncodedFields.Statement, encode_eq_assemble]

theorem EncodedFields.badd (d a b : Nat) : EncodedFields.Statement (.badd d a b) := EncodedFields.all _
theorem EncodedFields.bsub (d a b : Nat) : EncodedFields.Statement (.bsub d a b) := EncodedFields.all _
theorem EncodedFields.bneg (d a : Nat) : EncodedFields.Statement (.bneg d a) := EncodedFields.all _
theorem EncodedFields.bmul (d a b : Nat) : EncodedFields.Statement (.bmul d a b) := EncodedFields.all _
theorem EncodedFields.bpow (d a b : Nat) : EncodedFields.Statement (.bpow d a b) := EncodedFields.all _
theorem EncodedFields.binv (d a : Nat) : EncodedFields.Statement (.binv d a) := EncodedFields.all _
theorem EncodedFields.bdiv (d a b : Nat) : EncodedFields.Statement (.bdiv d a b) := EncodedFields.all _
theorem EncodedFields.broot (d a : Nat) : EncodedFields.Statement (.broot d a) := EncodedFields.all _
theorem EncodedFields.eadd (d a b : Nat) : EncodedFields.Statement (.eadd d a b) := EncodedFields.all _
theorem EncodedFields.esub (d a b : Nat) : EncodedFields.Statement (.esub d a b) := EncodedFields.all _
theorem EncodedFields.eneg (d a : Nat) : EncodedFields.Statement (.eneg d a) := EncodedFields.all _
theorem EncodedFields.emul (d a b : Nat) : EncodedFields.Statement (.emul d a b) := EncodedFields.all _
theorem EncodedFields.epow (d a b : Nat) : EncodedFields.Statement (.epow d a b) := EncodedFields.all _
theorem EncodedFields.einv (d a : Nat) : EncodedFields.Statement (.einv d a) := EncodedFields.all _
theorem EncodedFields.ediv (d a b : Nat) : EncodedFields.Statement (.ediv d a b) := EncodedFields.all _
theorem EncodedFields.ntt (d a : Nat) : EncodedFields.Statement (.ntt d a) := EncodedFields.all _
theorem EncodedFields.nttr (d a b : Nat) : EncodedFields.Statement (.nttr d a b) := EncodedFields.all _
theorem EncodedFields.entt (d a : Nat) : EncodedFields.Statement (.entt d a) := EncodedFields.all _
theorem EncodedFields.enttr (d a b : Nat) : EncodedFields.Statement (.enttr d a b) := EncodedFields.all _

end Sys2Proof.Laws
end

