-- ==== Sys2Proof/Tests/Slice0.lean ====
section
/-! SUPPORT. The model's own tests. Expected results come from spec/95_test_vectors.md and
spec/96_test_programs.md (the section is named at each), never from the model. After them, for every
statement that has hypotheses, a concrete state and operands that meet the hypotheses of each of its clauses. -/

namespace Sys2Proof.Tests

open Sys2Proof.Machine Sys2Proof.Claims

set_option Elab.async false

/-- H_REF and K_REF of spec/95_test_vectors.md, with `MEM_WORDS = 64`. -/
def refConfig : Config where
  generator := ⟨0x4AA1A0DA9, by decide⟩
  degree := 3
  poly := [⟨1, by decide⟩, ⟨0xFFFFFFFF00000000, by decide⟩, ⟨0, by decide⟩]
  memWords := 64

/-- A state of an instance with the given words in `MEM`, every other word 0. -/
def stateOf (c : Config) (cells : List (Nat × Word)) : State where
  hw := c
  mem := { powerOn := 0, cells := cells }
  status := 0
  inputs := []
  responses := []

/-- The reference instance. -/
def ref (cells : List (Nat × Word)) : State := stateOf refConfig cells

/-- The instance `K = 2`, `m(x) = x^2 − 7` of spec/95 section 2.5, which is admissible. -/
def quad (cells : List (Nat × Word)) : State := stateOf Config.quadratic cells

theorem quad_admissible (cells : List (Nat × Word)) : (quad cells).hw.Admissible := Config.quadratic_admissible

/-- The next state, where there is one. -/
def next? : Host.Outcome State Fault Refusal → Option State
  | .next t => some t
  | .fault _ => none
  | .refused _ => none

/-- The refusal, where there is one. -/
def refusal? : Host.Outcome State Fault Refusal → Option Refusal
  | .next _ => none
  | .fault _ => none
  | .refused r => some r

/-- The code in `STATUS` and the `n` words at `a` after a step. -/
def after (o : Host.Outcome State Fault Refusal) (a n : Nat) : Option (Nat × List Word) :=
  (next? o).map fun t => (t.status.toNat, t.mem.readWords a n)

theorem eq_next {o : Host.Outcome State Fault Refusal} {t : State} (h : next? o = some t) : o = .next t := by
  cases o with
  | next u => exact congrArg _ (Option.some.inj h)
  | fault f => cases h
  | refused r => cases h

theorem eq_refused {o : Host.Outcome State Fault Refusal} {r : Refusal} (h : refusal? o = some r) :
    o = .refused r := by
  cases o with
  | next u => cases h
  | fault f => cases h
  | refused q => exact congrArg _ (Option.some.inj h)

theorem exists_next {o : Host.Outcome State Fault Refusal} {c : BitVec 8}
    (h : (next? o).map State.status = some c) : ∃ t, o = .next t ∧ t.status = c := by
  cases o with
  | next u => exact ⟨u, rfl, Option.some.inj h⟩
  | fault f => cases h
  | refused r => cases h

/-- A residue written as a number. -/
abbrev res (n : Nat) (h : n < P := by decide) : Residue := ⟨n, h⟩

/-- The word of `P − k`. -/
abbrev minus (k : Nat) : Word := BitVec.ofNat 64 (P - k)

/-! ## WellFormed: each operand of a command as written fits its field (R40, R47) -/

theorem test_wellFormed_accepts : (Instr.badd 0xFFFFFFFF 0xFFFFFFFE 0xFFFFFFFD).wellFormed = true := by decide
theorem test_wellFormed_refuses_dst : (Instr.badd 0x100000000 0 0).wellFormed = false := by decide
theorem test_wellFormed_refuses_src1 : (Instr.bneg 0 0x100000000).wellFormed = false := by decide
theorem test_wellFormed_refuses_src2 : (Instr.enttr 0 0 0x100000000).wellFormed = false := by decide

/-! ## Decode: the words of spec/95 section 2.10 -/

theorem test_decode_badd : decode 0x00000030000000200000001000000010 = .ok (.badd 16 32 48) := by decide +kernel
theorem test_decode_bsub : decode 0x00000031000000210000001100000011 = .ok (.bsub 17 33 49) := by decide +kernel
theorem test_decode_bneg : decode 0x00000000000000220000001200000012 = .ok (.bneg 18 34) := by decide +kernel
theorem test_decode_bmul : decode 0x00000033000000230000001300000013 = .ok (.bmul 19 35 51) := by decide +kernel
theorem test_decode_bpow : decode 0x00000034000000240000001400000014 = .ok (.bpow 20 36 52) := by decide +kernel
theorem test_decode_binv : decode 0x00000000000000250000001500000015 = .ok (.binv 21 37) := by decide +kernel
theorem test_decode_bdiv : decode 0x00000036000000260000001600000016 = .ok (.bdiv 22 38 54) := by decide +kernel
theorem test_decode_broot : decode 0x00000000000000270000001700000017 = .ok (.broot 23 39) := by decide +kernel
theorem test_decode_eadd : decode 0x00000038000000280000001800000020 = .ok (.eadd 24 40 56) := by decide +kernel
theorem test_decode_esub : decode 0x00000039000000290000001900000021 = .ok (.esub 25 41 57) := by decide +kernel
theorem test_decode_eneg : decode 0x000000000000002A0000001A00000022 = .ok (.eneg 26 42) := by decide +kernel
theorem test_decode_emul : decode 0x0000003B0000002B0000001B00000023 = .ok (.emul 27 43 59) := by decide +kernel
theorem test_decode_epow : decode 0x0000003C0000002C0000001C00000024 = .ok (.epow 28 44 60) := by decide +kernel
theorem test_decode_einv : decode 0x000000000000002D0000001D00000025 = .ok (.einv 29 45) := by decide +kernel
theorem test_decode_ediv : decode 0x0000003E0000002E0000001E00000026 = .ok (.ediv 30 46 62) := by decide +kernel
theorem test_decode_ntt : decode 0x000000000000002F0000001F00000030 = .ok (.ntt 31 47) := by decide +kernel
theorem test_decode_nttr : decode 0x00000040000000300000002000000031 = .ok (.nttr 32 48 64) := by decide +kernel
theorem test_decode_entt : decode 0x00000000000000310000002100000032 = .ok (.entt 33 49) := by decide +kernel
theorem test_decode_enttr : decode 0x00000042000000320000002200000033 = .ok (.enttr 34 50 66) := by decide +kernel

theorem test_decode_unassigned_opcodes :
    decode 0x0 = .error .unassignedOpcode ∧
    decode 0x0000000100000000000000020000000F = .error .unassignedOpcode ∧
    decode 0x00000001000000000000000200000018 = .error .unassignedOpcode ∧
    decode 0x0000000100000000000000020000001F = .error .unassignedOpcode ∧
    decode 0x00000001000000000000000200000027 = .error .unassignedOpcode ∧
    decode 0x0000000100000000000000020000002F = .error .unassignedOpcode ∧
    decode 0x00000001000000000000000200000034 = .error .unassignedOpcode ∧
    decode 0x00000001000000000000000200000040 = .error .unassignedOpcode ∧
    decode 0x000000010000000000000002000000FF = .error .unassignedOpcode := by decide +kernel

theorem test_decode_reserved_fields :
    decode 0x00000001000000000000000200000110 = .error .reservedNonzero ∧
    decode 0x00000001000000000000000280000010 = .error .reservedNonzero ∧
    decode 0x00000001000000000000000200000012 = .error .unusedSrc2Nonzero ∧
    decode 0x00000009000000080000001000000030 = .error .unusedSrc2Nonzero := by decide +kernel

theorem test_encode : encode (.enttr 34 50 66) = 0x00000042000000320000002200000033 ∧
    encode (.ntt 31 47) = 0x000000000000002F0000001F00000030 := by decide +kernel

/-- `nbits` is the row's width; every bit above it is 0. -/
theorem test_decodeTableWord :
    decodeTableWord 128 0x00000030000000200000001000000010 = some (.badd 16 32 48) ∧
    decodeTableWord 8 0xFFFFFF10 = some (.badd 0 0 0) ∧ decodeTableWord 128 0 = none := by decide +kernel

/-- The row's word runs as the very next step. -/
theorem test_withFetchWord_runs :
    after (step ((ref [(0, 1), (1, 2), (2, 3)]).withFetchWord 128 0x00000000000000000000000800000022)) 8 3
      = some (0, [minus 1, minus 2, minus 3]) := by decide +kernel

/-! ## The commands: vectors of spec/95 sections 2.1 to 2.8 -/

theorem test_badd_sum_over_two_pow_64 :
    after (exec (.badd 2 0 1) (ref [(0, minus 1), (1, minus 1)])) 2 1 = some (0, [minus 2]) := by decide +kernel
/-- spec/95 program 3.1, command 9: all three operands the same word. -/
theorem test_badd_in_place : after (exec (.badd 0 0 0) (ref [(0, 5)])) 0 1 = some (0, [10]) := by decide +kernel
theorem test_bsub_borrow :
    after (exec (.bsub 2 0 1) (ref [(0, 0x891087B8E3B70CB1), (1, 0xAB54A98CEB1F0AD2)])) 2 1
      = some (0, [0xDDBBDE2AF89801E0]) := by decide +kernel
theorem test_bneg_zero : after (exec (.bneg 2 0) (ref [(2, 9)])) 2 1 = some (0, [0]) := by decide +kernel
theorem test_bneg_word :
    after (exec (.bneg 2 0) (ref [(0, 0xAB54A98CEB1F0AD2)])) 2 1 = some (0, [0x54AB567214E0F52F]) := by
  decide +kernel
theorem test_bmul_low_word_zero :
    after (exec (.bmul 2 0 1) (ref [(0, 0x100000000), (1, 0x100000000)])) 2 1 = some (0, [0xFFFFFFFF]) := by
  decide +kernel
theorem test_bmul_general :
    after (exec (.bmul 2 0 1) (ref [(0, 0xAB54A98CEB1F0AD2), (1, 0x891087B8E3B70CB1)])) 2 1
      = some (0, [0x67250489360EE3F9]) := by decide +kernel
theorem test_bpow_zero_to_the_zero : after (exec (.bpow 2 0 1) (ref [])) 2 1 = some (0, [1]) := by decide +kernel
theorem test_bpow_top_exponent_bit :
    after (exec (.bpow 2 0 1) (ref [(0, 0xAB54A98CEB1F0AD2), (1, 0x8000000000000000)])) 2 1
      = some (0, [0xDBC54B22FDC04769]) := by decide +kernel
theorem test_binv_word :
    after (exec (.binv 2 0) (ref [(0, 0xAB54A98CEB1F0AD2)])) 2 1 = some (0, [0xE2CF25BAA73C5126]) := by
  decide +kernel
theorem test_binv_zero : after (exec (.binv 2 0) (ref [(2, 9)])) 2 1 = some (1, [9]) := by decide +kernel
theorem test_bdiv_words :
    after (exec (.bdiv 2 0 1) (ref [(0, 0xAB54A98CEB1F0AD2), (1, 0x891087B8E3B70CB1)])) 2 1
      = some (0, [0xA089AD8F1760CC30]) := by decide +kernel
theorem test_bdiv_zero_by_zero : after (exec (.bdiv 2 0 1) (ref [(2, 9)])) 2 1 = some (1, [9]) := by decide +kernel
/-- H_REF. -/
theorem test_broot_order_2_pow_20 :
    after (exec (.broot 2 0) (ref [(0, 0x100000)])) 2 1 = some (0, [0x66D86D6FEF5AC626]) := by decide +kernel
theorem test_broot_order_2_pow_33 :
    after (exec (.broot 2 0) (ref [(0, 0x200000000), (2, 9)])) 2 1 = some (2, [9]) := by decide +kernel

/-- The elements `[1, 2, 3]` at 0 and `[4, 5, 6]` at 3, as in spec/96 program 3.4. -/
def elements : List (Nat × Word) := [(0, 1), (1, 2), (2, 3), (3, 4), (4, 5), (5, 6)]

theorem test_eadd_wraps_each_coefficient :
    after (exec (.eadd 16 0 3)
      (ref [(0, minus 1), (1, minus 1), (2, minus 1), (3, 1), (4, 1), (5, 1)])) 16 3 = some (0, [0, 0, 0]) := by
  decide +kernel
theorem test_esub : after (exec (.esub 16 0 3) (ref elements)) 16 3 = some (0, [minus 3, minus 3, minus 3]) := by
  decide +kernel
theorem test_eneg_keeps_zero_coefficients :
    after (exec (.eneg 16 0) (ref [(1, 5)])) 16 3 = some (0, [0, minus 5, 0]) := by decide +kernel
theorem test_emul : after (exec (.emul 16 0 3) (ref elements)) 16 3 = some (0, [minus 23, 22, 46]) := by
  decide +kernel
/-- spec/96 program 3.4, command 10: the destination overlaps both sources. -/
theorem test_emul_overlap : after (exec (.emul 1 0 3) (ref elements)) 0 6
    = some (0, [1, minus 23, 22, 46, 5, 6]) := by decide +kernel
theorem test_epow_largest_exponent :
    after (exec (.epow 16 0 9) (ref [(0, 1), (1, 2), (2, 3), (9, 0xFFFFFFFFFFFFFFFF)])) 16 3
      = some (0, [0xF03E1145C97DC0CD, 0xC89731EE65857271, 0xC012E18C9B0197ED]) := by decide +kernel
theorem test_epow_zero_to_the_zero : after (exec (.epow 16 0 9) (ref [])) 16 3 = some (0, [1, 0, 0]) := by
  decide +kernel
/-- The instance `K = 2` of spec/95 section 2.5. -/
theorem test_einv_quadratic :
    after (exec (.einv 16 0) (quad [(0, 1), (1, 2)])) 16 2
      = some (0, [0x425ED09771C71C72, 0x7B425ED01C71C71D]) := by decide +kernel
theorem test_einv_zero : after (exec (.einv 16 0) (ref [(16, 9)])) 16 3 = some (1, [9, 0, 0]) := by decide +kernel
theorem test_ediv :
    after (exec (.ediv 16 0 3) (ref elements)) 16 3
      = some (0, [0x0D79435E435E50D8, 0x64171905622A588B, 0x2C454B11267F09A0]) := by decide +kernel
theorem test_ediv_zero :
    after (exec (.ediv 16 0 3) (ref [(0, 1), (1, 2), (2, 3), (16, 9)])) 16 3 = some (1, [9, 0, 0]) := by
  decide +kernel

/-- H_REF. -/
theorem test_ntt_length_8 :
    after (exec (.ntt 16 0) (ref [(0, 8), (16, 1), (17, 2), (18, 3), (19, 4), (20, 5), (21, 6), (22, 7), (23, 8)]))
      16 8 = some (0, [36, 0x0003FBFFFC0003FC, 0x0003FFFFFFFFFFFC, 0xFFFBFBFEFC0003FD, minus 4,
        0x0004040003FFFBFC, 0xFFFBFFFEFFFFFFFD, 0xFFFC03FF03FFFBFD]) := by decide +kernel
theorem test_ntt_length_3 :
    after (exec (.ntt 16 0) (ref [(0, 3), (16, 1), (17, 2), (18, 3)])) 16 3 = some (3, [1, 2, 3]) := by
  decide +kernel
/-- spec/96 program 3.6, command 1: the length and the root are words of the sequence. -/
theorem test_nttr_operands_inside_the_sequence :
    after (exec (.nttr 16 16 17) (ref [(16, 4), (17, 0x1000000000000), (18, 3), (19, 4)])) 16 4
      = some (0, [0x000100000000000B, 0xFFFBFFFF00000001, 0xFFFEFFFF00000004, 0x0004000000000002]) := by
  decide +kernel
theorem test_nttr_root_not_checked :
    after (exec (.nttr 16 0 1) (ref [(0, 4), (1, 3), (16, 1), (17, 2), (18, 3), (19, 4)])) 16 4
      = some (0, [10, minus 8, minus 2, 4]) := by decide +kernel
theorem test_entt_length_2 :
    after (exec (.entt 32 0)
      (ref [(0, 2), (32, 1), (33, 2), (34, 3), (35, 4), (36, 5), (37, 6)])) 32 6
      = some (0, [5, 7, 9, minus 3, minus 3, minus 3]) := by decide +kernel
theorem test_entt_range :
    after (exec (.entt 32 0) (ref [(0, 16)])) 32 1 = some (5, [0]) := by decide +kernel
theorem test_enttr_root_not_a_constant :
    after (exec (.enttr 32 0 1)
      (ref [(0, 4), (2, 1), (32, 1), (36, 1), (40, 1), (41, 1), (42, 1), (43, 1)])) 32 12
      = some (0, [2, 2, 2, 2, minus 2, minus 1, 0, minus 2, 0, 0, 2, minus 1]) := by decide +kernel
/-- R118: length 3, and the root element at 62 to 64 out of range: `BAD_ADDRESS` comes first. -/
theorem test_enttr_root_range_before_length :
    after (exec (.enttr 32 0 62) (ref [(0, 3)])) 32 1 = some (5, [0]) := by decide +kernel

/-! ## The ports -/

/-- spec/95 program 3.3, command 19: illegal word, bad address and zero divisor together. -/
theorem test_illegal_word_comes_first :
    after (step ((ref [(0, 7)]).withFetchWord 128 0x00000001000000000000004000000116)) 0 2
      = some (6, [7, 0]) := by decide +kernel
theorem test_bad_address : after (exec (.bsub 64 0 0) (ref [(0, 7)])) 0 1 = some (5, [7]) := by decide +kernel
theorem test_non_canonical_operand_refused :
    refusal? (exec (.eadd 6 0 3) (ref [(5, 0xFFFFFFFF00000001)])) = some (.nonCanonicalOperand 5) := by
  decide +kernel
theorem test_host_write :
    after (step { ref [] with inputs := [.write 63 0xFFFFFFFFFFFFFFFF] }) 63 1
      = some (0, [0xFFFFFFFFFFFFFFFF]) := by decide +kernel
theorem test_host_write_outside :
    refusal? (step { ref [] with inputs := [.write 64 1] }) = some (.hostAddressOutOfRange 64) := by decide +kernel
theorem test_host_read :
    (next? (step { ref [(63, 9)] with inputs := [.read 63] })).map State.responses = some [.word 9] := by
  decide +kernel
theorem test_host_reads_status :
    (next? (step { ref [] with status := 3, inputs := [.readStatus] })).map State.responses
      = some [.statusRead 3] := by decide +kernel
/-- The draw of the reset is in every word; nothing is returned for the abandoned command (R127, R128). -/
theorem test_reset_during_a_command :
    (next? (step { ref [(0, 5)] with status := 3, inputs := [.reset (some 0x10) (7 + 11 * 2 ^ 64)] })).map
      (fun t => (t.status, t.mem.readWords 0 3, t.responses)) = some (0, [7, 11, 0], []) := by decide +kernel
/-- Writing back what the reset left removes the entry. -/
theorem test_canonical_memory :
    ((⟨7, []⟩ : Memory).write 0 8).cells = [(0, 8)] ∧ (((⟨7, []⟩ : Memory).write 0 8).write 0 7).cells = [] := by
  decide +kernel

/-! ## The textual form (R47, R48) -/

theorem test_parse_command :
    parseLine "NTTR 32, 0x30, 64 ; a transform".toList = some (.command (.nttr 32 48 64)) := by decide +kernel
theorem test_parse_directive :
    parseLine ".word  2, 0xFFFFFFFF00000000    ; c".toList = some (.word 2 0xFFFFFFFF00000000) := by decide +kernel
theorem test_parse_refuses :
    parseLine "BNEG 1, 2, 3".toList = none ∧ parseLine "badd 1, 2, 3".toList = none ∧
    parseLine "BADD 0x100000000, 0, 0".toList = none := by decide +kernel

/-- A raw word may stand in a program (log 21); an `.expect` outside `MEM` is not met (R35). -/
theorem test_program_events_and_expects :
    Program.events ⟨[(0, 7)], [0x18], []⟩ = [.write 0 7, .command 0x18] ∧
    Program.metBy ⟨[], [], [(63, 0)]⟩ (ref []) = true ∧ Program.metBy ⟨[], [], [(63, 1)]⟩ (ref []) = false ∧
    Program.metBy ⟨[], [], [(64, 0)]⟩ (ref []) = false := by decide +kernel

/-! ## Witnesses: the hypotheses of every statement can be met

One theorem for each statement that has hypotheses, one part for each of its clauses, at the ends of the
ranges: the last address of `MEM` is 63, the first outside is 64. -/

/-- Words that meet the two hypotheses of a three-operand encoding. -/
abbrev ThreeMet (o : BitVec 8) (good bad : CommandWord) : Prop :=
  (CommandWord.opc good = o ∧ CommandWord.rsv good = 0) ∧ (CommandWord.opc bad = o ∧ CommandWord.rsv bad ≠ 0)

/-- Words that meet the hypotheses of a two-operand encoding, the second in both ways. -/
abbrev TwoMet (o : BitVec 8) (good bad₁ bad₂ : CommandWord) : Prop :=
  (CommandWord.opc good = o ∧ CommandWord.rsv good = 0 ∧ CommandWord.src2 good = 0) ∧
  (CommandWord.opc bad₁ = o ∧ CommandWord.rsv bad₁ ≠ 0) ∧ (CommandWord.opc bad₂ = o ∧ CommandWord.src2 bad₂ ≠ 0)

/-- A three-operand word of an opcode, every address field all ones. -/
def wordThree (o : BitVec 8) : CommandWord := 0xFFFFFFFFFFFFFFFFFFFFFFFF00000000 ||| o.setWidth 128
/-- A two-operand word of an opcode. -/
def wordTwo (o : BitVec 8) : CommandWord := 0xFFFFFFFFFFFFFFFF00000000 ||| o.setWidth 128
/-- The top reserved bit set. -/
def reservedSet (w : CommandWord) : CommandWord := w ||| 0x80000000
/-- The low bit of `SRC2` set. -/
def src2Set (w : CommandWord) : CommandWord := w ||| (1 <<< 96)

theorem witness_encodings_three : ∀ o : BitVec 8,
    o ∈ [0x10, 0x11, 0x13, 0x14, 0x16, 0x20, 0x21, 0x23, 0x24, 0x26, 0x31, 0x33] →
    ThreeMet o (wordThree o) (reservedSet (wordThree o)) := by decide +kernel

theorem witness_encodings_two : ∀ o : BitVec 8, o ∈ [0x12, 0x15, 0x17, 0x22, 0x25, 0x30, 0x32] →
    TwoMet o (wordTwo o) (reservedSet (wordTwo o)) (src2Set (wordTwo o)) := by decide +kernel

/-- A range that leaves `MEM` by one word, and one that just fits. -/
abbrev RangesMet (s : State) (out ins : List (Nat × Nat)) : Prop := ¬ s.InRange out ∧ s.InRange ins

theorem not_two_pow {n : Nat} (h : ispow2 n = false) : ∀ k, n ≠ 2 ^ k := not_ispow2_iff.1 h

theorem witness_DecodingAnEncodedCommandGivesItBack :
    (Instr.enttr (2 ^ 32 - 1) 0 (2 ^ 32 - 1)).wellFormed = true := by decide
theorem witness_EncodingADecodedWordGivesItBack :
    decode 0xFFFFFFFDFFFFFFFEFFFFFFFF00000010 = .ok (.badd 0xFFFFFFFF 0xFFFFFFFE 0xFFFFFFFD) := by decide +kernel
theorem witness_DecodingFollowsTheOpcodeTable :
    ((⟨"ENTTR", maskThree, 0x33⟩ : OpcodeRow) ∈ opcodeTable ∧
      (⟨"ENTTR", maskThree, 0x33⟩ : OpcodeRow).fits 0x00000042000000320000002200000033 = true) ∧
    decode 0x00000042000000320000002200000033 = .ok (.enttr 34 50 66) := by decide +kernel
theorem witness_IllegalWordsRaiseIllegalCommand :
    (decode 0x34 = .error .unassignedOpcode) ∧ (decode 0x80000010 = .error .reservedNonzero) ∧
    decode 0x00000001000000000000000000000012 = .error .unusedSrc2Nonzero := by decide +kernel
theorem witness_PrintedCommandsAreReadBack : (Instr.bneg 0 (2 ^ 32 - 1)).wellFormed = true := by decide

theorem witness_StepRunsTheDecodedCommand :
    ({ ref [] with inputs := [.command 0x10] } : State).inputs = .command 0x10 :: [] ∧
    decode 0x10 = .ok (.badd 0 0 0) := by decide +kernel
theorem witness_IdleStepChangesNothing : (ref []).inputs = [] := rfl
theorem witness_HostPortReadsAndWritesOneWord :
    (ref [(63, 9)]).mem.Wf ∧ 63 < (ref [(63, 9)]).hw.memWords ∧ ¬ 64 < (ref [(63, 9)]).hw.memWords ∧
    ({ ref [(63, 9)] with inputs := [.write 63 1] } : State).inputs = .write 63 1 :: [] ∧
    ({ ref [(63, 9)] with inputs := [.read 64] } : State).inputs = .read 64 :: [] ∧
    ({ ref [(63, 9)] with status := 6, inputs := [.readStatus] } : State).inputs = .readStatus :: [] := by
  decide +kernel
theorem witness_HostReadSeesCommittedResults :
    (ref [(63, 9)]).mem.Wf ∧ 62 + [1#64, 2#64].length ≤ (ref [(63, 9)]).hw.memWords ∧ 1 < [1#64, 2#64].length ∧
    ({ ref [(63, 9)] with inputs := [.read (62 + 1)] } : State).inputs = .read (62 + 1) :: [] := by decide +kernel
theorem witness_ResetInputClearsStatusAndRedrawsMemory :
    ({ ref [] with inputs := [.reset none 5, .readStatus] } : State).inputs = .reset none 5 :: [.readStatus] := rfl

/-! ### The base field -/

/-- The three ranges of a base-field command with two sources. -/
theorem witness_base_ranges :
    RangesMet (quad []) [(64, 1), (0, 1), (0, 1)] [(63, 1), (63, 1), (0, 1)] ∧
    RangesMet (quad []) [(0, 1), (64, 1)] [(63, 1), (63, 1)] := by decide +kernel

theorem witness_BaddAddsModuloP_and_Bsub_Bmul :
    (quad [(62, minus 1), (63, 1)]).InRange [(63, 1), (62, 1), (63, 1)] ∧
    ResidueAt (quad [(62, minus 1), (63, 1)]) 62 (res 0xFFFFFFFF00000000) ∧
    ResidueAt (quad [(62, minus 1), (63, 1)]) 63 (res 1) := by decide +kernel
theorem witness_BnegNegatesModuloP :
    (quad [(62, minus 1)]).InRange [(63, 1), (62, 1)] ∧
    ResidueAt (quad [(62, minus 1)]) 62 (res 0xFFFFFFFF00000000) := by decide +kernel
theorem witness_BpowRaisesToTheRawExponent :
    (quad [(62, minus 1), (63, 0xFFFFFFFFFFFFFFFF)]).InRange [(63, 1), (62, 1), (63, 1)] ∧
    ResidueAt (quad [(62, minus 1), (63, 0xFFFFFFFFFFFFFFFF)]) 62 (res 0xFFFFFFFF00000000) := by decide +kernel
theorem witness_BinvInvertsOrRaisesZeroDivisor :
    ((quad []).InRange [(63, 1), (63, 1)] ∧ (quad []).mem.read 63 = 0) ∧
    ((quad [(63, 1)]).InRange [(63, 1), (63, 1)] ∧ ResidueAt (quad [(63, 1)]) 63 (res 1) ∧ (res 1).val ≠ 0) := by
  decide +kernel
theorem witness_BdivDividesOrRaisesZeroDivisor :
    ((quad []).InRange [(63, 1), (63, 1), (0, 1)] ∧ ResidueAt (quad []) 63 (res 0) ∧ (quad []).mem.read 0 = 0) ∧
    ((quad [(63, 2)]).InRange [(63, 1), (0, 1), (63, 1)] ∧ ResidueAt (quad [(63, 2)]) 0 (res 0) ∧
      ResidueAt (quad [(63, 2)]) 63 (res 2) ∧ (res 2).val ≠ 0) := by decide +kernel
theorem witness_BrootDerivesTheRootOrRaisesOrderedRootError :
    ((quad []).InRange [(63, 1), (63, 1)] ∧ ∀ k, k ≤ 32 → ((quad []).mem.read 63).toNat ≠ 2 ^ k) ∧
    ((quad [(63, 0x200000000)]).InRange [(0, 1), (63, 1)] ∧
      ∀ k, k ≤ 32 → ((quad [(63, 0x200000000)]).mem.read 63).toNat ≠ 2 ^ k) ∧
    ((quad [(63, 0x100000000)]).InRange [(0, 1), (63, 1)] ∧ 32 ≤ 32 ∧
      ((quad [(63, 0x100000000)]).mem.read 63).toNat = 2 ^ 32) := by decide +kernel

/-! ### The extension field -/

/-- The elements `[1, 2]` at 60 and `[3, 4]` at 62: the last words of `MEM`. -/
def lastElements : State := quad [(60, 1), (61, 2), (62, 3), (63, 4)]

theorem witness_extension_ranges :
    RangesMet lastElements [(0, 2), (0, 2), (63, 2)] [(62, 2), (60, 2), (62, 2)] ∧
    RangesMet lastElements [(63, 2), (0, 2)] [(62, 2), (62, 2)] ∧
    RangesMet lastElements [(0, 2), (0, 2), (64, 1)] [(62, 2), (60, 2), (63, 1)] := by decide +kernel

theorem lastElements_operands :
    lastElements.hw.degree = 2 ∧ lastElements.InRange [(62, 2), (60, 2), (62, 2)] ∧
    [res 1, res 2].length = lastElements.hw.degree ∧ [res 3, res 4].length = lastElements.hw.degree ∧
    ResiduesAt lastElements 60 [res 1, res 2] ∧ ResiduesAt lastElements 62 [res 3, res 4] := by decide +kernel

theorem witness_EaddAddsComponentwise_and_Esub :
    lastElements.InRange [(62, lastElements.hw.degree), (60, lastElements.hw.degree), (62, lastElements.hw.degree)] ∧
    [res 1, res 2].length = lastElements.hw.degree ∧ [res 3, res 4].length = lastElements.hw.degree ∧
    ResiduesAt lastElements 60 [res 1, res 2] ∧ ResiduesAt lastElements 62 [res 3, res 4] := by decide +kernel
theorem witness_EnegNegatesComponentwise :
    lastElements.InRange [(62, lastElements.hw.degree), (62, lastElements.hw.degree)] ∧
    [res 3, res 4].length = lastElements.hw.degree ∧ ResiduesAt lastElements 62 [res 3, res 4] := by decide +kernel
theorem witness_EmulMultipliesModuloThePolynomial :
    lastElements.hw.Admissible ∧
    lastElements.InRange [(62, lastElements.hw.degree), (60, lastElements.hw.degree), (62, lastElements.hw.degree)] ∧
    [res 1, res 2].length = lastElements.hw.degree ∧ [res 3, res 4].length = lastElements.hw.degree ∧
    ResiduesAt lastElements 60 [res 1, res 2] ∧ ResiduesAt lastElements 62 [res 3, res 4] :=
  ⟨quad_admissible _, by decide +kernel⟩
theorem witness_EpowRaisesToTheRawExponent :
    lastElements.hw.Admissible ∧
    lastElements.InRange [(62, lastElements.hw.degree), (60, lastElements.hw.degree), (63, 1)] ∧
    [res 1, res 2].length = lastElements.hw.degree ∧ ResiduesAt lastElements 60 [res 1, res 2] :=
  ⟨quad_admissible _, by decide +kernel⟩
theorem witness_EinvInvertsOrRaisesZeroDivisor :
    (lastElements.InRange [(62, lastElements.hw.degree), (58, lastElements.hw.degree)] ∧
      ∀ i, i < lastElements.hw.degree → lastElements.mem.read (58 + i) = 0) ∧
    lastElements.hw.Admissible ∧
    (lastElements.InRange [(62, lastElements.hw.degree), (62, lastElements.hw.degree)] ∧
      [res 3, res 4].length = lastElements.hw.degree ∧ ResiduesAt lastElements 62 [res 3, res 4] ∧
      ∃ x ∈ [res 3, res 4], x.val ≠ 0) :=
  ⟨by decide +kernel, quad_admissible _, by decide +kernel, by decide +kernel, by decide +kernel,
    res 3, by decide, by decide⟩
theorem witness_EdivDividesOrRaisesZeroDivisor :
    (lastElements.InRange
        [(62, lastElements.hw.degree), (60, lastElements.hw.degree), (58, lastElements.hw.degree)] ∧
      [res 1, res 2].length = lastElements.hw.degree ∧ ResiduesAt lastElements 60 [res 1, res 2] ∧
      ∀ i, i < lastElements.hw.degree → lastElements.mem.read (58 + i) = 0) ∧
    lastElements.hw.Admissible ∧
    (lastElements.InRange
        [(62, lastElements.hw.degree), (60, lastElements.hw.degree), (62, lastElements.hw.degree)] ∧
      [res 1, res 2].length = lastElements.hw.degree ∧ [res 3, res 4].length = lastElements.hw.degree ∧
      ResiduesAt lastElements 60 [res 1, res 2] ∧ ResiduesAt lastElements 62 [res 3, res 4] ∧
      ∃ y ∈ [res 3, res 4], y.val ≠ 0) :=
  ⟨by decide +kernel, quad_admissible _, by decide +kernel, by decide +kernel, by decide +kernel,
    by decide +kernel, by decide +kernel, res 3, by decide, by decide⟩

/-! ### The transforms -/

/-- The largest base-field sequence of a memory of 64 words that has a length word of its own: 32 words at 32. -/
def fullSequence : State := quad [(0, 32), (1, 0x40), (2, 6), (63, 7)]

/-- The same memory in an instance with room for `2^33` elements (which R8 does not admit: with `MEM_WORDS ≤ 2^32`
the range check comes first, R113). -/
def hugeMemory : State := stateOf { Config.quadratic with memWords := 2 ^ 40 } [(0, 0x200000000)]

/-- A power in the field, read as a remainder. -/
theorem eq_pow_mod {g e : Nat} {r : Residue} (h : (g : ZMod P) ^ e = ((r.val : Nat) : ZMod P)) :
    r.val = g ^ e % P := by
  have h' : ((r.val : Nat) : ZMod P) = ((g ^ e : Nat) : ZMod P) := by rw [Nat.cast_pow, h]
  have := (ZMod.natCast_eq_natCast_iff' _ _ _).1 h'
  rwa [Nat.mod_eq_of_lt r.isLt] at this

theorem generator_pow_32 :
    (1753635133440165772 : ZMod 18446744069414584321) ^ 134217728 = 70368744161280 := by reduce_mod_char

theorem generator_pow_2 :
    (1753635133440165772 : ZMod 18446744069414584321) ^ 2147483648 = 18446744069414584320 := by
  reduce_mod_char

/-- The root that NTT derives for 32 elements (spec/95 section 2.9, `k = 5`). -/
theorem derived_root_32 : (res 0x3FFFFFFFC000).val = fullSequence.hw.generator.val ^ (2 ^ (32 - 5)) % P := by
  apply eq_pow_mod
  rw [show fullSequence.hw.generator = Config.quadratic.generator from rfl, Config.quadratic_generator,
    show 2 ^ (32 - 5) = 134217728 from rfl]
  exact generator_pow_32.trans (Nat.cast_ofNat (n := 70368744161280)).symm

theorem witness_NttTransformsInPlaceWithTheDerivedRoot :
    RangesMet fullSequence [(64, 1)] [(63, 1)] ∧
    (fullSequence.InRange [(2, 1)] ∧ ∀ k, (fullSequence.mem.read 2).toNat ≠ 2 ^ k) ∧
    (fullSequence.InRange [(3, 1)] ∧ ∀ k, (fullSequence.mem.read 3).toNat ≠ 2 ^ k) ∧
    (fullSequence.InRange [(0, 1)] ∧ (fullSequence.mem.read 0).toNat = 2 ^ 5 ∧
      ¬ fullSequence.InRange [(33, 2 ^ 5)]) ∧
    (hugeMemory.InRange [(0, 1), (0, 2 ^ 33)] ∧ (hugeMemory.mem.read 0).toNat = 2 ^ 33 ∧ 32 < 33) ∧
    (fullSequence.InRange [(0, 1), (32, 2 ^ 5)] ∧ (fullSequence.mem.read 0).toNat = 2 ^ 5 ∧ 5 ≤ 32 ∧
      (res 0x3FFFFFFFC000).val = fullSequence.hw.generator.val ^ (2 ^ (32 - 5)) % P ∧
      (List.replicate 31 (res 0) ++ [res 7]).length = 2 ^ 5 ∧
      ResiduesAt fullSequence 32 (List.replicate 31 (res 0) ++ [res 7])) :=
  ⟨by decide +kernel, ⟨by decide +kernel, not_two_pow (by decide +kernel)⟩,
    ⟨by decide +kernel, not_two_pow (by decide +kernel)⟩, by decide +kernel, by decide +kernel,
    by decide +kernel, by decide +kernel, by decide, derived_root_32, by decide, by decide +kernel⟩

theorem witness_NttrTransformsInPlaceWithTheSuppliedRoot :
    RangesMet fullSequence [(0, 1), (64, 1)] [(0, 1), (63, 1)] ∧
    (fullSequence.InRange [(2, 1), (63, 1)] ∧ ∀ k, (fullSequence.mem.read 2).toNat ≠ 2 ^ k) ∧
    (fullSequence.InRange [(0, 1), (63, 1)] ∧ (fullSequence.mem.read 0).toNat = 2 ^ 5 ∧
      ¬ fullSequence.InRange [(33, 2 ^ 5)]) ∧
    (fullSequence.InRange [(0, 1), (63, 1), (32, 2 ^ 5)] ∧ (fullSequence.mem.read 0).toNat = 2 ^ 5 ∧
      ResidueAt fullSequence 63 (res 7) ∧ (List.replicate 31 (res 0) ++ [res 7]).length = 2 ^ 5 ∧
      ResiduesAt fullSequence 32 (List.replicate 31 (res 0) ++ [res 7])) :=
  ⟨by decide +kernel, ⟨by decide +kernel, not_two_pow (by decide +kernel)⟩, by decide +kernel, by decide +kernel⟩

/-- A length of 1 with the root word at the given value, the sequence in the last word. -/
def oneElement (root : Word) : State := quad [(0, 1), (1, root), (63, 7)]

/-- The hypotheses that do not speak of the root. -/
abbrev OneElementMet (s : State) : Prop :=
  s.InRange [(0, 1), (1, 1), (63, 1)] ∧ (s.mem.read 0).toNat = 1 ∧ ResidueAt s 63 (res 7)

theorem witness_NttrOfLengthOneLeavesTheSequence :
    (OneElementMet (oneElement 0xFFFFFFFF00000000) ∧
      ResidueAt (oneElement 0xFFFFFFFF00000000) 1 (res 0xFFFFFFFF00000000)) ∧
    (OneElementMet (oneElement 0xFFFFFFFF00000001) ∧
      ¬ Word.Canonical ((oneElement 0xFFFFFFFF00000001).mem.read 1)) := by decide +kernel

/-- Two elements of two words at 60, the length at 0, the root element `[0, 1]` at 2. -/
def twoElements : State := quad [(0, 2), (1, 3), (3, 1), (60, 1), (61, 2), (62, 3), (63, 4)]

theorem derived_root_2 :
    (res 0xFFFFFFFF00000000).val = twoElements.hw.generator.val ^ (2 ^ (32 - 1)) % P := by
  apply eq_pow_mod
  rw [show twoElements.hw.generator = Config.quadratic.generator from rfl, Config.quadratic_generator,
    show 2 ^ (32 - 1) = 2147483648 from rfl]
  exact generator_pow_2.trans (Nat.cast_ofNat (n := 18446744069414584320)).symm

theorem witness_EnttTransformsInPlaceWithTheLiftedRoot :
    RangesMet twoElements [(64, 1)] [(63, 1)] ∧
    (twoElements.InRange [(1, 1)] ∧ ∀ k, (twoElements.mem.read 1).toNat ≠ 2 ^ k) ∧
    (twoElements.InRange [(0, 1)] ∧ (twoElements.mem.read 0).toNat = 2 ^ 1 ∧
      ¬ twoElements.InRange [(61, 2 ^ 1 * twoElements.hw.degree)]) ∧
    (hugeMemory.InRange [(0, 1), (0, 2 ^ 33 * hugeMemory.hw.degree)] ∧
      (hugeMemory.mem.read 0).toNat = 2 ^ 33 ∧ 32 < 33) ∧
    (twoElements.InRange [(0, 1), (60, 2 ^ 1 * twoElements.hw.degree)] ∧
      (twoElements.mem.read 0).toNat = 2 ^ 1 ∧ 1 ≤ 32 ∧
      (res 0xFFFFFFFF00000000).val = twoElements.hw.generator.val ^ (2 ^ (32 - 1)) % P ∧
      [[res 1, res 2], [res 3, res 4]].length = 2 ^ 1 ∧
      ElementsAt twoElements 60 [[res 1, res 2], [res 3, res 4]]) :=
  ⟨by decide +kernel, ⟨by decide +kernel, not_two_pow (by decide +kernel)⟩, by decide +kernel, by decide +kernel,
    by decide +kernel, by decide +kernel, by decide, derived_root_2, by decide, by decide +kernel⟩

theorem witness_EnttrTransformsInPlaceWithTheSuppliedRoot :
    RangesMet twoElements [(0, 1), (63, twoElements.hw.degree)] [(0, 1), (62, twoElements.hw.degree)] ∧
    (twoElements.InRange [(1, 1), (2, twoElements.hw.degree)] ∧ ∀ k, (twoElements.mem.read 1).toNat ≠ 2 ^ k) ∧
    (twoElements.InRange [(0, 1), (2, twoElements.hw.degree)] ∧ (twoElements.mem.read 0).toNat = 2 ^ 1 ∧
      ¬ twoElements.InRange [(61, 2 ^ 1 * twoElements.hw.degree)]) ∧
    (twoElements.InRange [(0, 1), (2, twoElements.hw.degree), (60, 2 ^ 1 * twoElements.hw.degree)] ∧
      (twoElements.mem.read 0).toNat = 2 ^ 1 ∧ [res 0, res 1].length = twoElements.hw.degree ∧
      ResiduesAt twoElements 2 [res 0, res 1] ∧ [[res 1, res 2], [res 3, res 4]].length = 2 ^ 1 ∧
      ElementsAt twoElements 60 [[res 1, res 2], [res 3, res 4]]) :=
  ⟨by decide +kernel, ⟨by decide +kernel, not_two_pow (by decide +kernel)⟩, by decide +kernel, by decide +kernel⟩

/-! ### Rules of the whole machine -/

theorem witness_FailuresAreReportedInPriorityOrder :
    decode 0 = .error .unassignedOpcode ∧
    ¬ twoElements.InRange (wordRanges twoElements (.ediv 0 0 63)) ∧
    ((twoElements.InRange (wordRanges twoElements (.nttr 64 1 63)) ∧ lengthWord? (.nttr 64 1 63) = some 1) ∧
      ∀ k, (twoElements.mem.read 1).toNat ≠ 2 ^ k) ∧
    (twoElements.InRange (wordRanges twoElements (.entt 61 0)) ∧ lengthWord? (.entt 61 0) = some 0 ∧
      (twoElements.mem.read 0).toNat = 2 ^ 1 ∧
      ¬ twoElements.InRange [((Instr.entt 61 0).dst, writtenCount twoElements (.entt 61 0))]) ∧
    (twoElements.InRange (wordRanges twoElements (.broot 63 1)) ∧
      ∀ k, k ≤ 32 → (twoElements.mem.read 1).toNat ≠ 2 ^ k) ∧
    ((Instr.entt 0 0).mnemonic ∈ ["NTT", "ENTT"] ∧ hugeMemory.InRange (wordRanges hugeMemory (.entt 0 0)) ∧
      lengthWord? (.entt 0 0) = some 0 ∧ (hugeMemory.mem.read 0).toNat = 2 ^ 33 ∧ 32 < 33 ∧
      hugeMemory.InRange [((Instr.entt 0 0).dst, writtenCount hugeMemory (.entt 0 0))]) ∧
    ((Instr.einv 62 58).mnemonic ∈ ["BINV", "EINV"] ∧
      twoElements.InRange (wordRanges twoElements (.einv 62 58)) ∧
      ∀ j, j < writtenCount twoElements (.einv 62 58) → twoElements.mem.read ((Instr.einv 62 58).src1 + j) = 0) ∧
    ((Instr.ediv 62 60 58).mnemonic ∈ ["BDIV", "EDIV"] ∧ (Instr.ediv 62 60 58).src2? = some 58 ∧
      twoElements.InRange (wordRanges twoElements (.ediv 62 60 58)) ∧
      twoElements.OperandsCanonical (.ediv 62 60 58) ∧
      ∀ j, j < writtenCount twoElements (.ediv 62 60 58) → twoElements.mem.read (58 + j) = 0) :=
  ⟨by decide +kernel, by decide +kernel, ⟨by decide +kernel, not_two_pow (by decide +kernel)⟩, by decide +kernel,
    by decide +kernel, by decide +kernel, by decide +kernel, by decide +kernel⟩

theorem witness_FailedCommandLeavesOnlyItsCode :
    ∃ t, runCommand 0x80000010 twoElements = .next t ∧ t.status = 6 := exists_next (by decide +kernel)

theorem witness_CommandsReturnOnlyTheirCodes :
    twoElements.hw.Admissible ∧
    (∃ t, exec (.badd 0 60 61) twoElements = .next t ∧ t.status = 0) ∧
    (∃ t, exec (.badd 64 60 61) twoElements = .next t ∧ t.status = 5) ∧
    (∃ t, exec (.ediv 0 60 58) twoElements = .next t ∧ t.status = 1) ∧
    (∃ t, exec (.broot 0 1) twoElements = .next t ∧ t.status = 2) ∧
    (∃ t, exec (.enttr 0 1 2) twoElements = .next t ∧ t.status = 3) :=
  ⟨quad_admissible _, exists_next (by decide +kernel), exists_next (by decide +kernel),
    exists_next (by decide +kernel), exists_next (by decide +kernel), exists_next (by decide +kernel)⟩

theorem witness_CommandsWriteOnlyTheirDestination_and_ResultsAreCanonical :
    twoElements.hw.Admissible ∧ twoElements.mem.Wf ∧
    (∃ t, exec (.enttr 60 0 2) twoElements = .next t ∧ t.status = 0) ∧
    (59 < (Instr.enttr 60 0 2).dst ∧
      (Instr.enttr 60 0 2).dst + writtenCount twoElements (.enttr 60 0 2) ≤ 64 ∧
      3 < writtenCount twoElements (.enttr 60 0 2)) :=
  ⟨quad_admissible _, by decide +kernel, exists_next (by decide +kernel), by decide +kernel⟩

/-- `twoElements` and a state that differs from it in a word ENTTR does not read, in `STATUS` and in the draw. -/
def twoElementsElsewhere : State :=
  { stateOf Config.quadratic [(0, 2), (1, 3), (3, 1), (10, 9), (60, 1), (61, 2), (62, 3), (63, 4)] with
    mem := { powerOn := 5 * 2 ^ (64 * 20)
             cells := [(0, 2), (1, 3), (3, 1), (10, 9), (60, 1), (61, 2), (62, 3), (63, 4)] }
    status := 3 }

theorem witness_CommandSeesOnlyTheWordsItReads :
    twoElements.hw.Admissible ∧ twoElementsElsewhere.hw = twoElements.hw ∧ twoElements.mem.Wf ∧
    twoElementsElsewhere.mem.Wf ∧
    (∀ a ∈ rawReads (.enttr 60 0 2) ++ residueReads twoElements (.enttr 60 0 2),
      twoElementsElsewhere.mem.read a = twoElements.mem.read a) ∧
    (∃ t, exec (.enttr 60 0 2) twoElements = .next t ∧ t.status = 0) ∧ twoElementsElsewhere ≠ twoElements :=
  ⟨quad_admissible _, by decide +kernel, by decide +kernel, by decide +kernel, by decide +kernel,
    exists_next (by decide +kernel), by decide +kernel⟩
/-- Its last clause: both states refuse. -/
theorem witness_CommandSeesOnlyTheWordsItReads_refused :
    exec (.bneg 0 63) (quad [(63, 0xFFFFFFFF00000001)]) = .refused (.nonCanonicalOperand 63) ∧
    (∀ a ∈ rawReads (.bneg 0 63) ++ residueReads (quad [(63, 0xFFFFFFFF00000001)]) (.bneg 0 63),
      (quad [(9, 9), (63, 0xFFFFFFFF00000001)]).mem.read a = (quad [(63, 0xFFFFFFFF00000001)]).mem.read a) :=
  ⟨eq_refused (by decide +kernel), by decide +kernel⟩

theorem witness_ConstantsNeverChange :
    ∃ t, step { twoElements with inputs := [.reset (some 0x10) 3] } = .next t ∧ t.status = 0 :=
  exists_next (by decide +kernel)
theorem witness_OnlyNonCanonicalOperandsAreRefused :
    exec (.nttr 60 0 1) (quad [(0, 2), (1, 0xFFFFFFFFFFFFFFFF)]) = .refused (.nonCanonicalOperand 1) :=
  eq_refused (by decide +kernel)

theorem witness_NonCanonicalOperandsHaveNoMeaning :
    (quad [(0, 2), (63, 0xFFFFFFFF00000001)]).hw.Admissible ∧
    (quad [(0, 2), (63, 0xFFFFFFFF00000001)]).InRange
      (wordRanges (quad [(0, 2), (63, 0xFFFFFFFF00000001)]) (.ntt 62 0)) ∧
    (∀ a, lengthWord? (.ntt 62 0) = some a →
      (∃ k, ((quad [(0, 2), (63, 0xFFFFFFFF00000001)]).mem.read a).toNat = 2 ^ k) ∧
      (quad [(0, 2), (63, 0xFFFFFFFF00000001)]).InRange
        [((Instr.ntt 62 0).dst, writtenCount (quad [(0, 2), (63, 0xFFFFFFFF00000001)]) (.ntt 62 0))]) ∧
    ¬ (quad [(0, 2), (63, 0xFFFFFFFF00000001)]).OperandsCanonical (.ntt 62 0) := by
  refine ⟨quad_admissible _, by decide +kernel, ?_, by decide +kernel⟩
  intro a h
  obtain rfl : 0 = a := Option.some.inj h
  exact ⟨⟨1, by decide +kernel⟩, by decide +kernel⟩

/-- Each kind of event. -/
theorem witness_DutifulHostAlwaysGetsAStep :
    State.HostDuties { twoElements with inputs := [.command (encode (.enttr 60 0 2))] } ∧
    State.HostDuties { twoElements with inputs := [.command 0] } ∧
    State.HostDuties { twoElements with inputs := [.write 63 0xFFFFFFFFFFFFFFFF] } ∧
    State.HostDuties { twoElements with inputs := [.read 63] } ∧
    State.HostDuties { twoElements with inputs := [.readStatus] } ∧
    State.HostDuties { twoElements with inputs := [.reset none 0] } ∧
    State.HostDuties { twoElements with inputs := [] } := by
  refine ⟨?_, trivial, ?_, ?_, trivial, trivial, trivial⟩
  · have h : decode (encode (.enttr 60 0 2)) = .ok (.enttr 60 0 2) := by decide +kernel
    simp only [State.HostDuties, h]
    decide +kernel
  · show 63 < 64; decide
  · show 63 < 64; decide

theorem twoElements_inv : twoElements.Inv where
  hw_admissible := quad_admissible _
  mem_wf := by decide +kernel
  mem_in_space := by decide +kernel
  status_produced := by decide +kernel

theorem witness_StepKeepsTheMachineInvariant :
    State.Inv { twoElements with inputs := [.command (encode (.enttr 60 0 2))] } ∧
    ∃ t, step { twoElements with inputs := [.command (encode (.enttr 60 0 2))] } = .next t ∧ t.status = 0 :=
  ⟨⟨twoElements_inv.1, twoElements_inv.2, twoElements_inv.3, twoElements_inv.4⟩, exists_next (by decide +kernel)⟩

/-! ### The mathematics -/

theorem witness_MultiplicationAndInverseLawsHold : res 2 ≠ Residue.zero := by decide
theorem witness_PowerLawsHold : Config.quadratic.Admissible ∧ [res 1, res 2].length = Config.quadratic.degree :=
  ⟨Config.quadratic_admissible, by decide⟩
theorem witness_DerivedRootsHaveExactOrder :
    Config.quadratic.Admissible ∧ 32 ≤ 32 ∧ 31 + 1 ≤ 32 ∧ (2 ^ 33 = 0 ∨ 2 ^ 33 = 3 ∨ 2 ^ 33 = 2 ^ 33) :=
  ⟨Config.quadratic_admissible, by decide, by decide, .inr (.inr rfl)⟩
theorem witness_ExtensionFieldLawsHold :
    Config.quadratic.Admissible ∧ [res 1, res 2].length = Config.quadratic.degree ∧
    [res 3, res 4].length = Config.quadratic.degree ∧ [res 0, res 5].length = Config.quadratic.degree ∧
    [res 3, res 4] ≠ extZero Config.quadratic :=
  ⟨Config.quadratic_admissible, by decide, by decide, by decide, by decide⟩
theorem witness_LiftIsARingHomomorphism : Config.quadratic.Admissible := Config.quadratic_admissible
/-- The last stage of four elements, the last offset of its one block, and a position outside it. -/
theorem witness_RunningTwiddleIsAPowerOfTheRoot :
    Config.quadratic.Admissible ∧ [res 0, res 1].length = Config.quadratic.degree ∧
    2 ≤ 2 ∧ (1 + 1 ≤ 2 ∧ 2 ≤ 2 ^ 1) ∧
    (1 < 2 ^ 1 ∧ [res 1, res 2, res 3, res 4][0 + 1]? = some (res 2) ∧
      [res 1, res 2, res 3, res 4][0 + 1 + 2 ^ 1]? = some (res 4)) ∧
    0 + 2 ^ (1 + 1) ≤ 4 :=
  ⟨Config.quadratic_admissible, by decide, by decide, by decide, by decide, by decide⟩
theorem witness_BitReversalLoopReversesIndexBits :
    [10, 11, 12, 13].length = 2 ^ 2 ∧ 3 < 2 ^ 2 := by decide

theorem witness_DerivedAndSuppliedRootsAgree :
    (quad [(0, 2), (63, minus 1)]).hw.Admissible ∧
    ((quad [(0, 2), (63, minus 1)]).InRange [(63, 1)] ∧
      orderedRoot Config.quadratic ((quad [(0, 2), (63, minus 1)]).mem.read 0).toNat
        = .ok (res 0xFFFFFFFF00000000) ∧
      ResidueAt (quad [(0, 2), (63, minus 1)]) 63 (res 0xFFFFFFFF00000000)) ∧
    ((quad [(0, 2), (62, minus 1)]).InRange [(62, (quad [(0, 2), (62, minus 1)]).hw.degree)] ∧
      orderedRoot Config.quadratic ((quad [(0, 2), (62, minus 1)]).mem.read 0).toNat
        = .ok (res 0xFFFFFFFF00000000) ∧
      ResiduesAt (quad [(0, 2), (62, minus 1)]) 62 (lift Config.quadratic (res 0xFFFFFFFF00000000))) :=
  ⟨quad_admissible _, by decide +kernel, by decide +kernel⟩

/-- `2^48` has order 4: its square is `−1` (spec/95 section 1.6). -/
theorem root_of_order_4 : Residue.toField (res 0x1000000000000) ^ (2 ^ 1) = -1 := by
  show ((281474976710656 : Nat) : ZMod 18446744069414584321) ^ 2 = -1
  decide +kernel

theorem witness_BaseTransformEvaluatesAtTheRootPowers :
    [res 1, res 2, res 3, res 4].length = 2 ^ (1 + 1) ∧
    Residue.toField (res 0x1000000000000) ^ (2 ^ 1) = -1 ∧ 3 < 2 ^ (1 + 1) :=
  ⟨by decide, root_of_order_4, by decide⟩

/-- The same root, lifted. -/
def liftedRoot : List Residue := lift Config.quadratic (res 0x1000000000000)

theorem lifted_root_of_order_4 : (polyOf liftedRoot ^ (2 ^ 1)) %ₘ modulus Config.quadratic = -1 := by
  have : Fact (Nat.Prime P) := P_fact
  have e : polyOf liftedRoot ^ (2 ^ 1) = -1 := by
    rw [liftedRoot, polyOf_lift, ← Polynomial.C_pow, root_of_order_4, Polynomial.C_neg, Polynomial.C_1]
  have hlt : (-1 : Polynomial (ZMod P)).degree < (modulus Config.quadratic).degree := by
    rw [modulus_degree, Polynomial.degree_neg]
    exact lt_of_le_of_lt Polynomial.degree_one_le (by decide)
  rw [e]
  exact (Polynomial.modByMonic_eq_self_iff (modulus_monic _)).2 hlt

/-- Four elements of the quadratic extension. -/
def fourElements : List (List Residue) := [[res 1, res 2], [res 3, res 4], [res 5, res 6], [res 7, res 8]]

theorem witness_ExtensionTransformEvaluatesAtTheRootPowers :
    Config.quadratic.Admissible ∧ liftedRoot.length = Config.quadratic.degree ∧
    (∀ x ∈ fourElements, x.length = Config.quadratic.degree) ∧ fourElements.length = 2 ^ (1 + 1) ∧
    (polyOf liftedRoot ^ (2 ^ 1)) %ₘ modulus Config.quadratic = -1 ∧ 3 < 2 ^ (1 + 1) :=
  ⟨Config.quadratic_admissible, by decide, by decide, by decide, lifted_root_of_order_4, by decide⟩

/-- A root that is no root of unity of order 4, in each field. -/
theorem witness_TransformDecimatesInTimeForEveryRoot :
    ([res 1, res 2, res 3, res 4].length = 2 ^ (1 + 1) ∧ 1 < 2 ^ 1) ∧
    Config.quadratic.Admissible ∧ [res 0, res 1].length = Config.quadratic.degree ∧
    (∀ x ∈ fourElements, x.length = Config.quadratic.degree) ∧ fourElements.length = 2 ^ (1 + 1) :=
  ⟨by decide, Config.quadratic_admissible, by decide, by decide, by decide⟩

theorem witness_ExtensionTransformIsLinearAndInvertible :
    Config.quadratic.Admissible ∧ liftedRoot.length = Config.quadratic.degree ∧
    (∀ x ∈ fourElements, x.length = Config.quadratic.degree) ∧ fourElements.length = 2 ^ (1 + 1) ∧
    (polyOf liftedRoot ^ (2 ^ 1)) %ₘ modulus Config.quadratic = -1 ∧
    einv Config.quadratic liftedRoot = .ok [res 0xFFFEFFFF00000001, res 0] ∧
    einv Config.quadratic (lift Config.quadratic (reduce (2 ^ (1 + 1)))) = .ok [res 0xBFFFFFFF40000001, res 0] :=
  ⟨Config.quadratic_admissible, by decide, by decide, by decide, lifted_root_of_order_4, by decide +kernel,
    by decide +kernel⟩

theorem witness_LiftedTransformActsOnEachCoefficient :
    Config.quadratic.Admissible ∧
    (∀ x ∈ [[res 1, res 2], [res 3, res 4]], x.length = Config.quadratic.degree) ∧
    [[res 1, res 2], [res 3, res 4]].length = 2 ^ 1 ∧ 1 < Config.quadratic.degree :=
  ⟨Config.quadratic_admissible, by decide, by decide, by decide⟩

/-- The row `n = 4` of spec/95 section 1.8. -/
theorem witness_TransformIsLinearAndInvertible :
    [res 1, res 2, res 3, res 4].length = 2 ^ (1 + 1) ∧
    Residue.toField (res 0x1000000000000) ^ (2 ^ 1) = -1 ∧
    binv (res 0x1000000000000) = .ok (res 0xFFFEFFFF00000001) ∧
    binv (reduce (2 ^ (1 + 1))) = .ok (res 0xBFFFFFFF40000001) :=
  ⟨by decide, root_of_order_4, by decide +kernel, by decide +kernel⟩

end Sys2Proof.Tests
end

section
/-! PROOFS. Which command words are illegal, and what running one does (spec/30_encoding.md R42, R44). -/

namespace Sys2Proof

/-- The `OPC` values of R42, in the table's order. -/
def assignedOpcodes : List (BitVec 8) :=
  [0x10, 0x11, 0x12, 0x13, 0x14, 0x15, 0x16, 0x17, 0x20, 0x21, 0x22, 0x23, 0x24, 0x25, 0x26, 0x30, 0x31, 0x32, 0x33]

/-- The `OPC` values of the commands with no second source (R44 (c)). -/
def twoOperandOpcodes : List (BitVec 8) := [0x12, 0x15, 0x17, 0x22, 0x25, 0x30, 0x32]

/-- The `OPC` values of the commands that use all three address fields. -/
def threeOperandOpcodes : List (BitVec 8) :=
  [0x10, 0x11, 0x13, 0x14, 0x16, 0x20, 0x21, 0x23, 0x24, 0x26, 0x31, 0x33]

theorem mem_threeOperandOpcodes_of_assigned :
    ∀ o ∈ assignedOpcodes, o ∉ twoOperandOpcodes → o ∈ threeOperandOpcodes := by decide

theorem decodeThree_fails_iff {mk : Nat → Nat → Nat → Instr} {w : CommandWord} :
    (∃ e, decodeThree mk w = .error e) ↔ CommandWord.rsv w ≠ 0 := by
  unfold decodeThree
  split <;> simp_all

theorem decodeTwo_fails_iff {mk : Nat → Nat → Instr} {w : CommandWord} :
    (∃ e, decodeTwo mk w = .error e) ↔ CommandWord.rsv w ≠ 0 ∨ CommandWord.src2 w ≠ 0 := by
  unfold decodeTwo
  split_ifs <;> simp_all

/-- R44 (a). -/
theorem decode_of_opc_unassigned {w : CommandWord} (h : CommandWord.opc w ∉ assignedOpcodes) :
    decode w = .error .unassignedOpcode := by
  simp only [assignedOpcodes, List.mem_cons, List.not_mem_nil, or_false] at h
  unfold decode
  split
  case h_20 => rfl
  all_goals bv_omega

theorem decode_of_opc_twoOperand {w : CommandWord} (h : CommandWord.opc w ∈ twoOperandOpcodes) :
    ∃ mk, decode w = decodeTwo mk w := by
  simp only [twoOperandOpcodes, List.mem_cons, List.not_mem_nil, or_false] at h
  unfold decode
  rcases h with h | h | h | h | h | h | h <;> rw [h] <;> exact ⟨_, rfl⟩

theorem decode_of_opc_threeOperand {w : CommandWord} (h : CommandWord.opc w ∈ threeOperandOpcodes) :
    ∃ mk, decode w = decodeThree mk w := by
  simp only [threeOperandOpcodes, List.mem_cons, List.not_mem_nil, or_false] at h
  unfold decode
  rcases h with h | h | h | h | h | h | h | h | h | h | h | h <;> rw [h] <;> exact ⟨_, rfl⟩

/-- The three conditions of R44, as `decode` tells them apart. -/
theorem decode_fails_iff (w : CommandWord) :
    (∃ e, decode w = .error e) ↔
      CommandWord.opc w ∉ assignedOpcodes ∨ CommandWord.rsv w ≠ 0 ∨
        (CommandWord.opc w ∈ twoOperandOpcodes ∧ CommandWord.src2 w ≠ 0) := by
  by_cases hassigned : CommandWord.opc w ∈ assignedOpcodes
  · by_cases htwo : CommandWord.opc w ∈ twoOperandOpcodes
    · obtain ⟨mk, hdecode⟩ := decode_of_opc_twoOperand htwo
      rw [hdecode, decodeTwo_fails_iff]
      simp [hassigned, htwo]
    · obtain ⟨mk, hdecode⟩ := decode_of_opc_threeOperand (mem_threeOperandOpcodes_of_assigned _ hassigned htwo)
      rw [hdecode, decodeThree_fails_iff]
      simp [hassigned, htwo]
  · simp [decode_of_opc_unassigned hassigned, hassigned]

namespace Machine

theorem runCommand_of_decode_error {w : CommandWord} {e : IllegalCommand} (h : decode w = .error e) (s : State) :
    runCommand w s = .next (s.fail .illegalCommand) := by
  simp [runCommand, h]

/-- Settles O5: the illegal words by `decode_fails_iff`, their effect by the error branch of `runCommand` and R117. -/
theorem illegalWordsRaiseIllegalCommand : Obligations.IllegalWordsRaiseIllegalCommand := by
  unfold Obligations.IllegalWordsRaiseIllegalCommand
  intro w
  refine ⟨decode_fails_iff w, ?_⟩
  rintro ⟨e, he⟩ s
  exact runCommand_of_decode_error he s

end Machine

end Sys2Proof
end

section
/-! PROOFS. The encoding of a command, from the arm of `decode` its opcode selects (spec/30_encoding.md R40, R41,
R44). -/

namespace Sys2Proof

open Sys2Proof.Machine Sys2Proof.Claims

theorem decodeThree_ok {mk : Nat → Nat → Nat → Instr} {w : CommandWord} (h : CommandWord.rsv w = 0) :
    decodeThree mk w =
      .ok (mk (CommandWord.dst w).toNat (CommandWord.src1 w).toNat (CommandWord.src2 w).toNat) := by
  rw [decodeThree, if_neg (not_not.2 h)]

theorem decodeTwo_ok {mk : Nat → Nat → Instr} {w : CommandWord} (hrsv : CommandWord.rsv w = 0)
    (hsrc2 : CommandWord.src2 w = 0) :
    decodeTwo mk w = .ok (mk (CommandWord.dst w).toNat (CommandWord.src1 w).toNat) := by
  rw [decodeTwo, if_neg (not_not.2 hrsv), if_neg (not_not.2 hsrc2)]

theorem threeOperandEncoding_of_decode {opcode : BitVec 8} {mk : Nat → Nat → Nat → Instr}
    (h : ∀ w, CommandWord.opc w = opcode → decode w = decodeThree mk w) : ThreeOperandEncoding opcode mk := by
  intro w hopc
  rw [h w hopc]
  refine ⟨decodeThree_ok, fun hrsv s => ?_⟩
  obtain ⟨e, he⟩ := decodeThree_fails_iff.2 hrsv
  exact runCommand_of_decode_error ((h w hopc).trans he) s

theorem twoOperandEncoding_of_decode {opcode : BitVec 8} {mk : Nat → Nat → Instr}
    (h : ∀ w, CommandWord.opc w = opcode → decode w = decodeTwo mk w) : TwoOperandEncoding opcode mk := by
  intro w hopc
  rw [h w hopc]
  refine ⟨decodeTwo_ok, fun hnonzero s => ?_⟩
  obtain ⟨e, he⟩ := decodeTwo_fails_iff.2 hnonzero
  exact runCommand_of_decode_error ((h w hopc).trans he) s

end Sys2Proof
end

section
/-! PROOFS. The two shapes of command that read one or two elements: a range outside `MEM` raises `BAD_ADDRESS`
(spec/20_memory.md R27), and over the base field the command ends as its operation on the residues read does
(spec/30_encoding.md R49). -/

namespace Sys2Proof.Machine

open Sys2Proof.Claims

theorem State.inRange_cons {s : State} {a n : Nat} {ranges : List (Nat × Nat)} :
    s.InRange ((a, n) :: ranges) ↔ a + n ≤ s.hw.memWords ∧ s.InRange ranges :=
  List.forall_mem_cons

theorem State.inRange_singleton {s : State} {a n : Nat} : s.InRange [(a, n)] ↔ a + n ≤ s.hw.memWords :=
  List.forall_mem_singleton

theorem State.binaryWords_bad {α : Type} {s : State} {F : ElementFormat α} (f : α → α → Except Stop α)
    {d a b : Nat} (h : ¬ s.InRange [(d, F.width), (a, F.width), (b, F.width)]) :
    s.binaryWords F f d a b = .error (.status .badAddress) := by
  rw [State.inRange_cons, State.inRange_cons, State.inRange_singleton] at h
  rw [State.binaryWords]
  rcases s.checkRange_cases d F.width with ⟨hd, hcheck⟩ | ⟨_, hcheck⟩
  · rw [hcheck, Except.ok_bind]
    rcases s.checkRange_cases a F.width with ⟨ha, hcheck⟩ | ⟨_, hcheck⟩
    · have hb : s.hw.memWords < b + F.width := Nat.lt_of_not_le fun hb => h ⟨hd, ha, hb⟩
      rw [hcheck, Except.ok_bind, State.checkRange_bad hb, Except.error_bind]
    · rw [hcheck, Except.error_bind]
  · rw [hcheck, Except.error_bind]

theorem State.unaryWords_bad {α : Type} {s : State} {F : ElementFormat α} (f : α → Except Stop α)
    {d a : Nat} (h : ¬ s.InRange [(d, F.width), (a, F.width)]) :
    s.unaryWords F f d a = .error (.status .badAddress) := by
  rw [State.inRange_cons, State.inRange_singleton] at h
  rw [State.unaryWords]
  rcases s.checkRange_cases d F.width with ⟨hd, hcheck⟩ | ⟨_, hcheck⟩
  · have ha : s.hw.memWords < a + F.width := Nat.lt_of_not_le fun ha => h ⟨hd, ha⟩
    rw [hcheck, Except.ok_bind, State.checkRange_bad ha, Except.error_bind]
  · rw [hcheck, Except.error_bind]

theorem State.binaryWords_base {s : State} (f : Residue → Residue → Except Stop Residue) {d a b : Nat}
    {x y : Residue} (h : s.InRange [(d, 1), (a, 1), (b, 1)]) (hx : ResidueAt s a x) (hy : ResidueAt s b y) :
    s.binaryWords baseFormat f d a b = (f x y).map baseFormat.words := by
  rw [State.inRange_cons, State.inRange_cons, State.inRange_singleton] at h
  obtain ⟨hd, ha, hb⟩ := h
  exact State.binaryWords_eq f hd ha hb (State.fetchElement_base hx) (State.fetchElement_base hy)

theorem State.unaryWords_base {s : State} (f : Residue → Except Stop Residue) {d a : Nat} {x : Residue}
    (h : s.InRange [(d, 1), (a, 1)]) (hx : ResidueAt s a x) :
    s.unaryWords baseFormat f d a = (f x).map baseFormat.words := by
  rw [State.inRange_cons, State.inRange_singleton] at h
  obtain ⟨hd, ha⟩ := h
  exact State.unaryWords_eq f hd ha (State.fetchElement_base hx)

end Sys2Proof.Machine
end

section
/-! PROOFS. The unit modular_adder_64b: BADD, BSUB and BNEG (spec/40_modular_adder.md R53 to R55). -/

namespace Sys2Proof.Machine

open Sys2Proof.Claims

/-! ## The three functions, as the rules write their values -/

theorem badd_val (x y : Residue) : (badd x y).val = (x.val + y.val) % P := by
  have h : ((badd x y).val : Int) = ((x.val : Int) + y.val) % P := reduce_val _
  exact_mod_cast h

/-- One addition of `P` makes up for the borrow: a difference of residues lies between `-P` and `P` (R54, R57). -/
theorem bsub_val (x y : Residue) :
    (bsub x y).val = if y.val ≤ x.val then x.val - y.val else x.val + P - y.val := by
  have hx := x.isLt
  have hy := y.isLt
  have h : ((bsub x y).val : Int) = ((x.val : Int) - y.val) % P := reduce_val _
  split
  · rw [Int.emod_eq_of_lt (by omega) (by omega)] at h
    omega
  · rw [← Int.add_emod_right, Int.emod_eq_of_lt (by omega) (by omega)] at h
    omega

/-- The subtraction from zero borrows for every residue but 0 (R55, R57). -/
theorem bneg_val (x : Residue) : (bneg x).val = if x.val = 0 then 0 else P - x.val := by
  have hsub : bneg x = bsub Residue.zero x := rfl
  have hzero : Residue.zero.val = 0 := rfl
  rw [hsub, bsub_val, hzero]
  split_ifs <;> omega

/-! ## The three commands -/

theorem exec_badd (d a b : Nat) (s : State) :
    exec (.badd d a b) s = s.finish d (s.binaryWords baseFormat (fun x y => .ok (badd x y)) d a b) := rfl

theorem exec_bsub (d a b : Nat) (s : State) :
    exec (.bsub d a b) s = s.finish d (s.binaryWords baseFormat (fun x y => .ok (bsub x y)) d a b) := rfl

theorem exec_bneg (d a : Nat) (s : State) :
    exec (.bneg d a) s = s.finish d (s.unaryWords baseFormat (fun x => .ok (bneg x)) d a) := rfl

theorem badd_encoding : ThreeOperandEncoding 0x10 .badd :=
  threeOperandEncoding_of_decode fun w hopc => by rw [decode, hopc]; rfl

theorem bsub_encoding : ThreeOperandEncoding 0x11 .bsub :=
  threeOperandEncoding_of_decode fun w hopc => by rw [decode, hopc]; rfl

theorem bneg_encoding : TwoOperandEncoding 0x12 .bneg :=
  twoOperandEncoding_of_decode fun w hopc => by rw [decode, hopc]; rfl

/-- Settles O13: the shape of a command with two base-field sources, with the value of `badd`. -/
theorem baddAddsModuloP : Obligations.BaddAddsModuloP := by
  refine ⟨badd_encoding, fun s d a b hbad => ?_, fun s d a b x y hin hx hy => ?_⟩
  · rw [exec_badd, State.binaryWords_bad _ hbad, State.finish_status]
  · rw [exec_badd, State.binaryWords_base _ hin hx hy, ← badd_val]
    rfl

/-- Settles O14: the shape of a command with two base-field sources, with the value of `bsub`. -/
theorem bsubSubtractsModuloP : Obligations.BsubSubtractsModuloP := by
  refine ⟨bsub_encoding, fun s d a b hbad => ?_, fun s d a b x y hin hx hy => ?_⟩
  · rw [exec_bsub, State.binaryWords_bad _ hbad, State.finish_status]
  · rw [exec_bsub, State.binaryWords_base _ hin hx hy, ← bsub_val]
    rfl

/-- Settles O15: the shape of a command with one base-field source, with the value of `bneg`. -/
theorem bnegNegatesModuloP : Obligations.BnegNegatesModuloP := by
  refine ⟨bneg_encoding, fun s d a hbad => ?_, fun s d a x hin hx => ?_⟩
  · rw [exec_bneg, State.unaryWords_bad _ hbad, State.finish_status]
  · rw [exec_bneg, State.unaryWords_base _ hin hx, ← bneg_val]
    rfl

end Sys2Proof.Machine
end

section
/-! PROOFS. The unit modular_multiplier_64b: BMUL (spec/41_modular_multiplier.md R58). -/

namespace Sys2Proof.Machine

open Sys2Proof.Claims

/-- The product is the exact one: no bit of it is lost before the remainder is taken (R58, R59). -/
theorem bmul_val (x y : Residue) : (bmul x y).val = (x.val * y.val) % P := by
  have h : ((bmul x y).val : Int) = ((x.val : Int) * y.val) % P := reduce_val _
  exact_mod_cast h

theorem exec_bmul (d a b : Nat) (s : State) :
    exec (.bmul d a b) s = s.finish d (s.binaryWords baseFormat (fun x y => .ok (bmul x y)) d a b) := rfl

theorem bmul_encoding : ThreeOperandEncoding 0x13 .bmul :=
  threeOperandEncoding_of_decode fun w hopc => by rw [decode, hopc]; rfl

/-- Settles O16: the shape of a command with two base-field sources, with the value of `bmul`. -/
theorem bmulMultipliesModuloP : Obligations.BmulMultipliesModuloP := by
  refine ⟨bmul_encoding, fun s d a b hbad => ?_, fun s d a b x y hin hx hy => ?_⟩
  · rw [exec_bmul, State.binaryWords_bad _ hbad, State.finish_status]
  · rw [exec_bmul, State.binaryWords_base _ hin hx hy, ← bmul_val]
    rfl

end Sys2Proof.Machine
end

section
/-! PROOFS. The shape of a command that raises an element to a raw exponent: a range outside `MEM` raises
`BAD_ADDRESS` (spec/20_memory.md R27), and over the base field the command ends as its operation on the residue and
the exponent word read does (spec/30_encoding.md R49). -/

namespace Sys2Proof.Machine

open Sys2Proof.Claims

/-- A command whose ranges are checked one after another raises `BAD_ADDRESS` when the first check does, or when the
rest does after that check has passed (R27, R49 step 3). -/
theorem State.checkRange_bind_bad {β : Type} {s : State} {a n : Nat} {rest : Except Stop β}
    (h : a + n ≤ s.hw.memWords → rest = .error (.status .badAddress)) :
    (s.checkRange a n >>= fun _ => rest) = .error (.status .badAddress) := by
  rcases s.checkRange_cases a n with ⟨hin, hcheck⟩ | ⟨_, hcheck⟩
  · rw [hcheck, Except.ok_bind, h hin]
  · rw [hcheck, Except.error_bind]

theorem State.powerWords_bad {α : Type} {s : State} {F : ElementFormat α} (f : α → Nat → Except Stop α)
    {d a e : Nat} (h : ¬ s.InRange [(d, F.width), (a, F.width), (e, 1)]) :
    s.powerWords F f d a e = .error (.status .badAddress) := by
  rw [State.inRange_cons, State.inRange_cons, State.inRange_singleton] at h
  exact State.checkRange_bind_bad fun hd => State.checkRange_bind_bad fun ha =>
    State.checkRange_bind_bad fun he => absurd ⟨hd, ha, he⟩ h

theorem State.powerWords_base {s : State} (f : Residue → Nat → Except Stop Residue) {d a e : Nat} {x : Residue}
    (h : s.InRange [(d, 1), (a, 1), (e, 1)]) (hx : ResidueAt s a x) :
    s.powerWords baseFormat f d a e = (f x (s.mem.read e).toNat).map baseFormat.words := by
  rw [State.inRange_cons, State.inRange_cons, State.inRange_singleton] at h
  obtain ⟨hd, ha, he⟩ := h
  exact State.powerWords_eq f hd ha he (State.fetchElement_base hx)

end Sys2Proof.Machine
end

section
/-! PROOFS. The unit powering_engine: BPOW (spec/42_powering_engine.md R62). -/

namespace Sys2Proof.Machine

open Sys2Proof.Claims

/-- The square-and-multiply loop delivers the remainder of the exact power, for every exponent (R61, R62). -/
theorem bpow_val (x : Residue) (n : Nat) : (bpow x n).val = x.val ^ n % P := by
  have hfield : (((bpow x n).val : Nat) : ZMod P) = ((x.val ^ n : Nat) : ZMod P) :=
    (toField_pow x n).trans (Nat.cast_pow x.val n).symm
  have hmod := (ZMod.natCast_eq_natCast_iff' _ _ P).1 hfield
  rwa [Nat.mod_eq_of_lt (bpow x n).isLt] at hmod

theorem exec_bpow (d a e : Nat) (s : State) :
    exec (.bpow d a e) s = s.finish d (s.powerWords baseFormat (fun x n => .ok (bpow x n)) d a e) := rfl

theorem bpow_encoding : ThreeOperandEncoding 0x14 .bpow :=
  threeOperandEncoding_of_decode fun w hopc => by rw [decode, hopc]; rfl

/-- Settles O17: the shape of a command with a base-field source and a raw exponent, with the value of `bpow`. -/
theorem bpowRaisesToTheRawExponent : Obligations.BpowRaisesToTheRawExponent := by
  refine ⟨bpow_encoding, fun s d a e hbad => ?_, fun s d a e x hin hx => ?_⟩
  · rw [exec_bpow, State.powerWords_bad _ hbad, State.finish_status]
  · rw [exec_bpow, State.powerWords_base _ hin hx, ← bpow_val]
    rfl

end Sys2Proof.Machine
end

section
/-! PROOFS. The laws of exponentiation (spec/42_powering_engine.md R63), from the laws of powers in a monoid: `pow_T`
is the power there (`pow_represents`), and an element is known by what represents it. -/

namespace Sys2Proof.Machine

open Polynomial

/-- `pow_T(x, 0) = ONE_T` for every `x`, 0 included (R61). -/
theorem pow_exponent_zero {α : Type} (T : FieldOps α) (x : α) : pow T x 0 = T.one := rfl

/-- Where the representation is faithful, the recurrence of powers holds of `pow_T` itself (R63). -/
theorem pow_exponent_succ {α M : Type} [Monoid M] {T : FieldOps α} {ok : α → Prop} {f : α → M}
    (h : T.Represents ok f) (hinj : Set.InjOn f {a | ok a}) {x : α} (hx : ok x) (m : Nat) :
    pow T x (m + 1) = T.mul (pow T x m) x := by
  obtain ⟨hm, hfm⟩ := pow_represents h hx m
  obtain ⟨hsucc, hfsucc⟩ := pow_represents h hx (m + 1)
  apply hinj hsucc (h.mul_ok _ _ hm hx)
  rw [hfsucc, h.map_mul _ _ hm hx, hfm, pow_succ]

/-- Two elements of the extension whose polynomials agree modulo `m(x)` are the same: both have `K`
coefficients, so `m(x)`, of degree `K`, divides their difference only when it is 0. -/
theorem mk_polyOf_injOn (c : Config) :
    Set.InjOn (fun a => AdjoinRoot.mk (modulus c) (polyOf a)) {a | a.length = c.degree} := by
  have := P_fact
  intro a ha b hb hab
  have hdegree : ∀ d : List Residue, d.length = c.degree → (polyOf d).degree < (modulus c).degree := by
    intro d hd
    rw [modulus_degree, ← hd]
    exact degree_polyOf_lt d
  have hzero : polyOf a - polyOf b = 0 :=
    eq_zero_of_dvd_of_degree_lt (AdjoinRoot.mk_eq_mk.1 hab)
      ((degree_sub_le _ _).trans_lt (max_lt (hdegree a ha) (hdegree b hb)))
  exact polyOf_injective (ha.trans hb.symm) (sub_eq_zero.1 hzero)

/-- Settles O48: the base of the recurrence by computation, its step by `pow_exponent_succ` in each field. -/
theorem powerLawsHold : Obligations.PowerLawsHold := by
  refine ⟨pow_exponent_zero baseOps, fun x m => ?_, fun c => pow_exponent_zero (extOps c), fun c hc x hx m => ?_⟩
  · exact pow_exponent_succ baseOps_represents (fun _ _ _ _ => Residue.toField_injective) trivial m
  · have hdegree : 1 ≤ c.degree := Nat.le_of_succ_le hc.two_le_degree
    exact pow_exponent_succ (extOps_represents c hdegree) (mk_polyOf_injOn c) hx m

end Sys2Proof.Machine
end

section
/-! PROOFS. The unit modular_inverter: BINV and BDIV (spec/43_modular_inverter.md R65, R66). -/

namespace Sys2Proof.Machine

open Sys2Proof.Claims

/-! ## The inverse of a nonzero residue -/

/-- Fermat: `x · x^(P−2) = x^(P−1)`, which is 1 for every nonzero residue (R65). -/
theorem bmul_bpow_P_sub_two {x : Residue} (hx : x ≠ Residue.zero) : bmul x (bpow x (P - 2)) = Residue.one := by
  have := P_fact
  have hfield : Residue.toField x ≠ 0 := mt toField_eq_zero.1 hx
  have hexponent : P - 2 + 1 = P - 1 := by have := P_prime.two_le; omega
  apply Residue.toField_injective
  calc Residue.toField (bmul x (bpow x (P - 2)))
      = Residue.toField x * Residue.toField x ^ (P - 2) := by rw [toField_bmul, bpow, toField_pow]
    _ = Residue.toField x ^ (P - 1) := by rw [← pow_succ', hexponent]
    _ = Residue.toField Residue.one := by rw [ZMod.pow_card_sub_one_eq_one hfield, toField_one]

/-- Multiplication by a nonzero residue loses nothing, so an inverse is the only one (R65). -/
theorem bmul_left_cancel {x c e : Residue} (hx : x ≠ Residue.zero) (h : bmul x e = bmul x c) : e = c := by
  have := P_fact
  have hfield : Residue.toField x ≠ 0 := mt toField_eq_zero.1 hx
  have hproducts : Residue.toField x * Residue.toField e = Residue.toField x * Residue.toField c := by
    rw [← toField_bmul, ← toField_bmul, h]
  exact Residue.toField_injective (mul_left_cancel₀ hfield hproducts)

theorem bmul_eq_one_iff {x c : Residue} : bmul x c = Residue.one ↔ (x.val * c.val) % P = 1 := by
  rw [← bmul_val]
  exact Fin.ext_iff

theorem ne_zero_of_val {x : Residue} (h : x.val ≠ 0) : x ≠ Residue.zero := fun hzero => h (congrArg Fin.val hzero)

/-- A word whose value is 0 is the residue 0 (R14). -/
theorem residueAt_zero {s : State} {a : Nat} (h : s.mem.read a = 0) : ResidueAt s a Residue.zero := h

/-! ## The two functions -/

theorem binv_zero : binv Residue.zero = .error (.status .zeroDivisor) := if_pos rfl

theorem binv_of_ne_zero {x : Residue} (hx : x ≠ Residue.zero) : binv x = .ok (bpow x (P - 2)) := if_neg hx

/-- The divisor decides the failure, whatever the dividend is (R66). -/
theorem bdiv_zero (x : Residue) : bdiv x Residue.zero = .error (.status .zeroDivisor) := by
  rw [bdiv, binv_zero]
  rfl

theorem bdiv_of_ne_zero (x : Residue) {y : Residue} (hy : y ≠ Residue.zero) :
    bdiv x y = .ok (bmul x (bpow y (P - 2))) := by
  rw [bdiv, binv_of_ne_zero hy]
  rfl

/-! ## The two commands -/

theorem exec_binv (d a : Nat) (s : State) :
    exec (.binv d a) s = s.finish d (s.unaryWords baseFormat binv d a) := rfl

theorem exec_bdiv (d a b : Nat) (s : State) :
    exec (.bdiv d a b) s = s.finish d (s.binaryWords baseFormat bdiv d a b) := rfl

theorem binv_encoding : TwoOperandEncoding 0x15 .binv :=
  twoOperandEncoding_of_decode fun w hopc => by rw [decode, hopc]; rfl

theorem bdiv_encoding : ThreeOperandEncoding 0x16 .bdiv :=
  threeOperandEncoding_of_decode fun w hopc => by rw [decode, hopc]; rfl

/-- Settles O18: the shape of a command with one base-field source; the inverse by `bmul_bpow_P_sub_two`, the only
one by `bmul_left_cancel`. -/
theorem binvInvertsOrRaisesZeroDivisor : Obligations.BinvInvertsOrRaisesZeroDivisor := by
  refine ⟨binv_encoding, fun s d a hbad => ?_, fun s d a hin hzero => ?_, fun s d a x hin hx hne => ?_⟩
  · rw [exec_binv, State.unaryWords_bad _ hbad, State.finish_status]
  · rw [exec_binv, State.unaryWords_base _ hin (residueAt_zero hzero), binv_zero]
    rfl
  · have hne := ne_zero_of_val hne
    have hinverse := bmul_bpow_P_sub_two hne
    refine ⟨bpow x (P - 2), bmul_eq_one_iff.1 hinverse, fun e he => ?_, rfl, ?_⟩
    · exact bmul_left_cancel hne ((bmul_eq_one_iff.2 he).trans hinverse.symm)
    · rw [exec_binv, State.unaryWords_base _ hin hx, binv_of_ne_zero hne]
      rfl

/-- Settles O19: the shape of a command with two base-field sources, with the inverse of O18 as a factor. -/
theorem bdivDividesOrRaisesZeroDivisor : Obligations.BdivDividesOrRaisesZeroDivisor := by
  refine ⟨bdiv_encoding, fun s d a b hbad => ?_, fun s d a b x hin hx hzero => ?_,
    fun s d a b x y hin hx hy hne => ?_⟩
  · rw [exec_bdiv, State.binaryWords_bad _ hbad, State.finish_status]
  · rw [exec_bdiv, State.binaryWords_base _ hin hx (residueAt_zero hzero), bdiv_zero]
    rfl
  · have hne := ne_zero_of_val hne
    refine ⟨bpow y (P - 2), bmul_eq_one_iff.1 (bmul_bpow_P_sub_two hne), ?_⟩
    rw [exec_bdiv, State.binaryWords_base _ hin hx hy, bdiv_of_ne_zero x hne, ← bmul_val]
    rfl

end Sys2Proof.Machine
end

section
/-! PROOFS. The unit root_of_unity_generator: `ordered_root` and BROOT (spec/44 R69, R70). -/

namespace Sys2Proof.Machine

open Sys2Proof.Claims

/-! ## The function -/

/-- The 33 orders that have a root, and the power of `H` it is (R69). -/
theorem orderedRoot_two_pow (c : Config) {k : Nat} (hk : k ≤ 32) :
    orderedRoot c (2 ^ k) = .ok (bpow c.generator (2 ^ (32 - k))) := by
  have hbound : ¬ 2 ^ k > 2 ^ twoAdicity := not_lt.2 (Nat.pow_le_pow_right Nat.two_pos hk)
  have hvalid : ¬ (2 ^ k = 0 ∨ ¬ ispow2 (2 ^ k) ∨ 2 ^ k > 2 ^ twoAdicity) :=
    not_or.2 ⟨(Nat.two_pow_pos k).ne', not_or.2 ⟨not_not.2 (ispow2_two_pow k), hbound⟩⟩
  have hexponent : 2 ^ twoAdicity / 2 ^ k = 2 ^ (32 - k) := Nat.pow_div hk Nat.two_pos
  rw [orderedRoot, if_neg hvalid, hexponent, bpow]

/-- Every other order fails: one that passes the three tests is one of the 33 (R69). -/
theorem orderedRoot_fails (c : Config) {n : Nat} (h : ∀ k, k ≤ 32 → n ≠ 2 ^ k) :
    orderedRoot c n = .error (.status .orderedRootError) := by
  refine if_pos ?_
  by_contra hvalid
  obtain ⟨-, hpow2, hbound⟩ : n ≠ 0 ∧ ispow2 n ∧ n ≤ 2 ^ twoAdicity := by
    simpa only [not_or, not_not, not_lt] using hvalid
  obtain ⟨k, rfl⟩ := ispow2_iff.1 hpow2
  exact h k ((Nat.pow_le_pow_iff_right (by decide)).1 hbound) rfl

/-! ## The command -/

theorem State.rootWords_bad {s : State} (f : Nat → Except Stop Residue) {d a : Nat}
    (h : ¬ s.InRange [(d, 1), (a, 1)]) : s.rootWords f d a = .error (.status .badAddress) := by
  rw [State.inRange_cons, State.inRange_singleton] at h
  exact State.checkRange_bind_bad fun hd => State.checkRange_bind_bad fun ha => absurd ⟨hd, ha⟩ h

theorem State.rootWords_inRange {s : State} (f : Nat → Except Stop Residue) {d a : Nat}
    (h : s.InRange [(d, 1), (a, 1)]) :
    s.rootWords f d a = (f (s.mem.read a).toNat).map baseFormat.words := by
  rw [State.inRange_cons, State.inRange_singleton] at h
  obtain ⟨hd, ha⟩ := h
  exact State.rootWords_eq f hd ha

theorem exec_broot (d a : Nat) (s : State) :
    exec (.broot d a) s = s.finish d (s.rootWords (orderedRoot s.hw) d a) := rfl

theorem broot_encoding : TwoOperandEncoding 0x17 .broot :=
  twoOperandEncoding_of_decode fun w hopc => by rw [decode, hopc]; rfl

/-- Settles O20: the shape of a command with a raw order, with the two answers of `orderedRoot` and the value of
`bpow`. -/
theorem brootDerivesTheRootOrRaisesOrderedRootError :
    Obligations.BrootDerivesTheRootOrRaisesOrderedRootError := by
  refine ⟨broot_encoding, fun s d a hbad => ?_, fun s d a hin horder => ?_, fun s d a k hin hk horder => ?_⟩
  · rw [exec_broot, State.rootWords_bad _ hbad, State.finish_status]
  · rw [exec_broot, State.rootWords_inRange _ hin, orderedRoot_fails _ horder]
    rfl
  · rw [exec_broot, State.rootWords_inRange _ hin, horder, orderedRoot_two_pow _ hk, ← bpow_val]
    rfl

end Sys2Proof.Machine
end

section
/-! PROOFS. The properties of the derived roots (spec/44 R71), from the order of `H`
(spec/00_scope.md R8) and the laws of exponents. -/

namespace Sys2Proof.Machine

/-! ## The laws of exponents over the base field -/

@[simp] theorem toField_bpow (x : Residue) (n : Nat) : Residue.toField (bpow x n) = Residue.toField x ^ n :=
  toField_pow x n

theorem bpow_bpow (x : Residue) (m n : Nat) : bpow (bpow x m) n = bpow x (m * n) := by
  apply Residue.toField_injective
  rw [toField_bpow, toField_bpow, toField_bpow, pow_mul]

theorem bmul_bpow_bpow (x : Residue) (m n : Nat) : bmul (bpow x m) (bpow x n) = bpow x (m + n) := by
  apply Residue.toField_injective
  rw [toField_bmul, toField_bpow, toField_bpow, toField_bpow, pow_add]

/-! ## The order of the generator -/

theorem bpow_generator_order {c : Config} (hc : c.Admissible) : bpow c.generator (2 ^ 32) = Residue.one := by
  apply Residue.toField_injective
  rw [toField_bpow, toField_one]
  exact hc.generator_pow_order

/-- `H^(2^31)` is a square root of 1 other than 1, and a field has only one: `-1` (R71). -/
theorem bpow_generator_half {c : Config} (hc : c.Admissible) : bpow c.generator (2 ^ 31) = bneg Residue.one := by
  have := P_fact
  have hsquare : (Residue.toField c.generator ^ 2 ^ 31) ^ 2 = 1 := by
    rw [← pow_mul, ← pow_succ]
    exact hc.generator_pow_order
  apply Residue.toField_injective
  rw [toField_bpow, toField_bneg, toField_one]
  exact (sq_eq_one_iff.1 hsquare).resolve_left hc.generator_pow_half

theorem bneg_one_val : (bneg Residue.one).val = P - 1 := bneg_val Residue.one

theorem bneg_one_ne_one : bneg Residue.one ≠ Residue.one := by decide

/-- Settles O49: each root is a power of `H`, so that its own powers are powers of `H` whose exponents add up to
`2^32` or to half of it. -/
theorem derivedRootsHaveExactOrder : Obligations.DerivedRootsHaveExactOrder := by
  intro c hc
  refine ⟨fun k hk => ⟨_, orderedRoot_two_pow c hk, ?_⟩, fun k hk => ?_, fun n hn => orderedRoot_fails c ?_⟩
  · rw [bpow_bpow, ← pow_add, Nat.sub_add_cancel hk, bpow_generator_order hc]
  · have hhalf : bpow (bpow c.generator (2 ^ (32 - (k + 1)))) (2 ^ k) = bneg Residue.one := by
      rw [bpow_bpow, ← pow_add, show 32 - (k + 1) + k = 31 by omega, bpow_generator_half hc]
    have hnested : 2 ^ (32 - (k + 1)) + 2 ^ (32 - (k + 1)) = 2 ^ (32 - k) := by
      rw [← two_mul, ← pow_succ', show 32 - (k + 1) + 1 = 32 - k by omega]
    refine ⟨_, orderedRoot_two_pow c hk, ?_, ?_, ?_⟩
    · rw [hhalf]
      exact bneg_one_ne_one
    · rw [hhalf, bneg_one_val]
    · rw [bmul_bpow_bpow, hnested, orderedRoot_two_pow c (Nat.le_of_succ_le hk)]
  · rcases hn with rfl | rfl | rfl <;> decide

end Sys2Proof.Machine
end

section
/-! PROOFS. The shapes of the commands over the extension field: with operands of `K` residues inside `MEM` each
command ends as its operation on the elements read does (spec/30_encoding.md R49, spec/20_memory.md R29). -/

namespace Sys2Proof.Machine

open Sys2Proof.Claims

theorem State.fetchElement_ext {s : State} {a : Nat} {xs : List Residue} (hlen : xs.length = s.hw.degree)
    (hxs : ResiduesAt s a xs) : s.fetchElement (extFormat s.hw) a = .ok xs := by
  rw [ResiduesAt, hlen] at hxs
  exact State.fetchElement_ok (extFormat_fits hlen) hxs

theorem State.binaryWords_ext {s : State} (f : List Residue → List Residue → Except Stop (List Residue))
    {d a b : Nat} {xs ys : List Residue}
    (h : s.InRange [(d, s.hw.degree), (a, s.hw.degree), (b, s.hw.degree)])
    (hxlen : xs.length = s.hw.degree) (hylen : ys.length = s.hw.degree)
    (hxs : ResiduesAt s a xs) (hys : ResiduesAt s b ys) :
    s.binaryWords (extFormat s.hw) f d a b = (f xs ys).map (extFormat s.hw).words := by
  rw [State.inRange_cons, State.inRange_cons, State.inRange_singleton] at h
  obtain ⟨hd, ha, hb⟩ := h
  exact State.binaryWords_eq f hd ha hb (State.fetchElement_ext hxlen hxs) (State.fetchElement_ext hylen hys)

theorem State.unaryWords_ext {s : State} (f : List Residue → Except Stop (List Residue)) {d a : Nat}
    {xs : List Residue} (h : s.InRange [(d, s.hw.degree), (a, s.hw.degree)]) (hlen : xs.length = s.hw.degree)
    (hxs : ResiduesAt s a xs) :
    s.unaryWords (extFormat s.hw) f d a = (f xs).map (extFormat s.hw).words := by
  rw [State.inRange_cons, State.inRange_singleton] at h
  obtain ⟨hd, ha⟩ := h
  exact State.unaryWords_eq f hd ha (State.fetchElement_ext hlen hxs)

theorem State.powerWords_ext {s : State} (f : List Residue → Nat → Except Stop (List Residue)) {d a e : Nat}
    {xs : List Residue} (h : s.InRange [(d, s.hw.degree), (a, s.hw.degree), (e, 1)])
    (hlen : xs.length = s.hw.degree) (hxs : ResiduesAt s a xs) :
    s.powerWords (extFormat s.hw) f d a e = (f xs (s.mem.read e).toNat).map (extFormat s.hw).words := by
  rw [State.inRange_cons, State.inRange_cons, State.inRange_singleton] at h
  obtain ⟨hd, ha, he⟩ := h
  exact State.powerWords_eq f hd ha he (State.fetchElement_ext hlen hxs)

/-- `K` words whose value is 0 are the element `ZERO_E` (R14, R75). -/
theorem residuesAt_extZero {s : State} {a : Nat} (h : ∀ i, i < s.hw.degree → s.mem.read (a + i) = 0) :
    ResiduesAt s a (extZero s.hw) := by
  have hwords : (extZero s.hw).map Residue.toWord = List.replicate s.hw.degree 0 := List.map_replicate
  rw [ResiduesAt, hwords, extZero, List.length_replicate, List.eq_replicate_iff]
  refine ⟨s.mem.readWords_length a _, fun w hw => ?_⟩
  obtain ⟨i, hi, rfl⟩ := List.getElem_of_mem hw
  rw [Memory.readWords_getElem]
  rw [Memory.readWords_length] at hi
  exact h i hi

end Sys2Proof.Machine
end

section
/-! PROOFS. The componentwise commands EADD, ESUB and ENEG (spec/45_field_extension.md R77 to R79): each word of the
result is that of the base-field function on one coefficient, as R53 to R55 give its value. -/

namespace Sys2Proof.Machine

open Sys2Proof.Claims

theorem eadd_words (xs ys : List Residue) :
    (eadd xs ys).map Residue.toWord =
      List.zipWith (fun x y : Residue => BitVec.ofNat 64 ((x.val + y.val) % P)) xs ys := by
  rw [eadd, List.map_zipWith]
  simp only [Residue.toWord, badd_val]

theorem esub_words (xs ys : List Residue) :
    (esub xs ys).map Residue.toWord =
      List.zipWith (fun x y : Residue =>
        BitVec.ofNat 64 (if y.val ≤ x.val then x.val - y.val else x.val + P - y.val)) xs ys := by
  rw [esub, List.map_zipWith]
  simp only [Residue.toWord, bsub_val]

theorem eneg_words (xs : List Residue) :
    (eneg xs).map Residue.toWord =
      xs.map fun x => BitVec.ofNat 64 (if x.val = 0 then 0 else P - x.val) := by
  rw [eneg, List.map_map]
  simp only [Function.comp_def, Residue.toWord, bneg_val]

theorem exec_eadd (d a b : Nat) (s : State) :
    exec (.eadd d a b) s = s.finish d (s.binaryWords (extFormat s.hw) (fun x y => .ok (eadd x y)) d a b) := rfl

theorem exec_esub (d a b : Nat) (s : State) :
    exec (.esub d a b) s = s.finish d (s.binaryWords (extFormat s.hw) (fun x y => .ok (esub x y)) d a b) := rfl

theorem exec_eneg (d a : Nat) (s : State) :
    exec (.eneg d a) s = s.finish d (s.unaryWords (extFormat s.hw) (fun x => .ok (eneg x)) d a) := rfl

theorem eadd_encoding : ThreeOperandEncoding 0x20 .eadd :=
  threeOperandEncoding_of_decode fun w hopc => by rw [decode, hopc]; rfl

theorem esub_encoding : ThreeOperandEncoding 0x21 .esub :=
  threeOperandEncoding_of_decode fun w hopc => by rw [decode, hopc]; rfl

theorem eneg_encoding : TwoOperandEncoding 0x22 .eneg :=
  twoOperandEncoding_of_decode fun w hopc => by rw [decode, hopc]; rfl

/-- Settles O21: the shape of a command with two extension-field sources, with the words of `eadd`. -/
theorem eaddAddsComponentwise : Obligations.EaddAddsComponentwise := by
  refine ⟨eadd_encoding, fun s d a b hbad => ?_, fun s d a b xs ys hin hxlen hylen hxs hys => ?_⟩
  · rw [exec_eadd, State.binaryWords_bad _ hbad, State.finish_status]
  · rw [exec_eadd, State.binaryWords_ext _ hin hxlen hylen hxs hys, ← eadd_words]
    rfl

/-- Settles O22: the shape of a command with two extension-field sources, with the words of `esub`. -/
theorem esubSubtractsComponentwise : Obligations.EsubSubtractsComponentwise := by
  refine ⟨esub_encoding, fun s d a b hbad => ?_, fun s d a b xs ys hin hxlen hylen hxs hys => ?_⟩
  · rw [exec_esub, State.binaryWords_bad _ hbad, State.finish_status]
  · rw [exec_esub, State.binaryWords_ext _ hin hxlen hylen hxs hys, ← esub_words]
    rfl

/-- Settles O23: the shape of a command with one extension-field source, with the words of `eneg`. -/
theorem enegNegatesComponentwise : Obligations.EnegNegatesComponentwise := by
  refine ⟨eneg_encoding, fun s d a hbad => ?_, fun s d a xs hin hlen hxs => ?_⟩
  · rw [exec_eneg, State.unaryWords_bad _ hbad, State.finish_status]
  · rw [exec_eneg, State.unaryWords_ext _ hin hlen hxs, ← eneg_words]
    rfl

end Sys2Proof.Machine
end

section
/-! PROOFS. The extension field as the polynomials modulo `m(x)` (spec/45_field_extension.md R74): what an element
stands for there, and that the element functions are the operations there. -/

namespace Sys2Proof

theorem Config.Admissible.degree_pos {c : Config} (hc : c.Admissible) : 1 ≤ c.degree :=
  Nat.le_of_succ_le hc.two_le_degree

namespace Machine

open Polynomial

/-- What the element `a` stands for among the polynomials modulo `m(x)` (R74). -/
noncomputable def toExtension (c : Config) (a : List Residue) : AdjoinRoot (modulus c) :=
  AdjoinRoot.mk (modulus c) (polyOf a)

theorem toExtension_injective {c : Config} {a b : List Residue} (ha : a.length = c.degree)
    (hb : b.length = c.degree) (h : toExtension c a = toExtension c b) : a = b :=
  mk_polyOf_injOn c ha hb h

theorem extZero_length (c : Config) : (extZero c).length = c.degree := List.length_replicate

theorem toExtension_extZero (c : Config) : toExtension c (extZero c) = 0 := by
  rw [toExtension, extZero, polyOf_replicate_zero, map_zero]

theorem toExtension_eq_zero {c : Config} {a : List Residue} (ha : a.length = c.degree) :
    toExtension c a = 0 ↔ a = extZero c := by
  rw [← toExtension_extZero c]
  exact ⟨toExtension_injective ha (extZero_length c), congrArg _⟩

section

variable {c : Config} (hc : c.Admissible)
include hc

theorem extOne_length : (extOne c).length = c.degree := lift_length c hc.degree_pos Residue.one

theorem emul_length {a b : List Residue} (ha : a.length = c.degree) (hb : b.length = c.degree) :
    (emul c a b).length = c.degree := (emul_spec c hc.degree_pos ha hb).1

theorem epow_length {a : List Residue} (ha : a.length = c.degree) (n : Nat) : (epow c a n).length = c.degree :=
  (pow_represents (extOps_represents c hc.degree_pos) ha n).1

theorem toExtension_extOne : toExtension c (extOne c) = 1 := (extOps_represents c hc.degree_pos).map_one

theorem toExtension_emul {a b : List Residue} (ha : a.length = c.degree) (hb : b.length = c.degree) :
    toExtension c (emul c a b) = toExtension c a * toExtension c b :=
  (extOps_represents c hc.degree_pos).map_mul a b ha hb

theorem toExtension_epow {a : List Residue} (ha : a.length = c.degree) (n : Nat) :
    toExtension c (epow c a n) = toExtension c a ^ n :=
  (pow_represents (extOps_represents c hc.degree_pos) ha n).2

end

/-- The `K` coefficients of an element that stands for the polynomial `p` are those of the remainder of `p`: the
degree of `polyOf a` is below that of `m(x)`. -/
theorem polyOf_eq_modByMonic {c : Config} {a : List Residue} (ha : a.length = c.degree) {p : (ZMod P)[X]}
    (h : toExtension c a = AdjoinRoot.mk (modulus c) p) : polyOf a = p %ₘ modulus c := by
  have := P_fact
  have hdegree : (polyOf a).degree < (modulus c).degree := by
    rw [modulus_degree, ← ha]
    exact degree_polyOf_lt a
  rw [← (modByMonic_eq_self_iff (modulus_monic c)).2 hdegree]
  exact modByMonic_eq_of_dvd_sub (modulus_monic c) (AdjoinRoot.mk_eq_mk.1 h)

/-- EPOW's function is the power modulo `m(x)` (R82). -/
theorem polyOf_epow {c : Config} (hc : c.Admissible) {a : List Residue} (ha : a.length = c.degree) (n : Nat) :
    polyOf (epow c a n) = polyOf a ^ n %ₘ modulus c := by
  apply polyOf_eq_modByMonic (epow_length hc ha n)
  rw [toExtension_epow hc ha, map_pow, toExtension]

/-- What the claims ask of an inverse, as an equation of the element functions (R83). -/
theorem emul_eq_extOne_iff {c : Config} (hc : c.Admissible) {a b : List Residue} (ha : a.length = c.degree)
    (hb : b.length = c.degree) : emul c a b = extOne c ↔ (polyOf a * polyOf b) %ₘ modulus c = 1 := by
  have hone : polyOf (extOne c) = 1 := by rw [extOne, polyOf_lift, toField_one, C_1]
  obtain ⟨hlen, hpoly⟩ := emul_spec c hc.degree_pos ha hb
  rw [← hpoly, ← hone]
  exact ⟨congrArg _, polyOf_injective (hlen.trans (extOne_length hc).symm)⟩

end Machine

end Sys2Proof
end

section
/-! PROOFS. EMUL and EPOW (spec/45_field_extension.md R81, R82). -/

namespace Sys2Proof.Machine

open Sys2Proof.Claims

theorem exec_emul (d a b : Nat) (s : State) :
    exec (.emul d a b) s = s.finish d (s.binaryWords (extFormat s.hw) (fun x y => .ok (emul s.hw x y)) d a b) := rfl

theorem exec_epow (d a e : Nat) (s : State) :
    exec (.epow d a e) s = s.finish d (s.powerWords (extFormat s.hw) (fun x n => .ok (epow s.hw x n)) d a e) := rfl

theorem emul_encoding : ThreeOperandEncoding 0x23 .emul :=
  threeOperandEncoding_of_decode fun w hopc => by rw [decode, hopc]; rfl

theorem epow_encoding : ThreeOperandEncoding 0x24 .epow :=
  threeOperandEncoding_of_decode fun w hopc => by rw [decode, hopc]; rfl

/-- Settles O24: the shape of a command with two extension-field sources; the product is `emul_spec`. -/
theorem emulMultipliesModuloThePolynomial : Obligations.EmulMultipliesModuloThePolynomial := by
  refine ⟨emul_encoding, fun s d a b hbad => ?_, fun s d a b xs ys hc hin hxlen hylen hxs hys => ?_⟩
  · rw [exec_emul, State.binaryWords_bad _ hbad, State.finish_status]
  · obtain ⟨hlen, hpoly⟩ := emul_spec s.hw hc.degree_pos hxlen hylen
    refine ⟨emul s.hw xs ys, hlen, hpoly, ?_⟩
    rw [exec_emul, State.binaryWords_ext _ hin hxlen hylen hxs hys]
    rfl

/-- Settles O25: the shape of a command with an extension-field source and a raw exponent; the power is
`polyOf_epow`. -/
theorem epowRaisesToTheRawExponent : Obligations.EpowRaisesToTheRawExponent := by
  refine ⟨epow_encoding, fun s d a e hbad => ?_, fun s d a e xs hc hin hlen hxs => ?_⟩
  · rw [exec_epow, State.powerWords_bad _ hbad, State.finish_status]
  · refine ⟨epow s.hw xs (s.mem.read e).toNat, epow_length hc hlen _, polyOf_epow hc hlen _, ?_⟩
    rw [exec_epow, State.powerWords_ext _ hin hlen hxs]
    rfl

end Sys2Proof.Machine
end

section
/-! PROOFS. EINV and EDIV (spec/45_field_extension.md R83 to R85): the polynomials modulo the irreducible `m(x)` are a
field of `P^K` elements. -/

namespace Sys2Proof.Machine

open Sys2Proof.Claims

/-! ## The inverse of a nonzero element -/

theorem extension_finrank (c : Config) : Module.finrank (ZMod P) (AdjoinRoot (modulus c)) = c.degree := by
  have := P_fact
  rw [(AdjoinRoot.powerBasis' (modulus_monic c)).finrank, AdjoinRoot.powerBasis'_dim,
    Polynomial.natDegree_eq_of_degree_eq_some (modulus_degree c)]

theorem extension_module_finite (c : Config) : Module.Finite (ZMod P) (AdjoinRoot (modulus c)) := by
  have := P_fact
  exact (AdjoinRoot.powerBasis' (modulus_monic c)).finite

/-- Fermat in the field of `P^K` elements (R83). -/
theorem extension_pow_card_sub_one {c : Config} (hc : c.Admissible) {x : AdjoinRoot (modulus c)} (hx : x ≠ 0) :
    x ^ (P ^ c.degree - 1) = 1 := by
  have := P_fact
  have : Fact (Irreducible (modulus c)) := ⟨hc.irreducible⟩
  have := extension_module_finite c
  have : Finite (AdjoinRoot (modulus c)) := Module.finite_of_finite (ZMod P)
  have := Fintype.ofFinite (AdjoinRoot (modulus c))
  have hcard : Fintype.card (AdjoinRoot (modulus c)) = P ^ c.degree := by
    rw [Module.card_eq_pow_finrank (K := ZMod P), ZMod.card, extension_finrank]
  rw [← hcard]
  exact FiniteField.pow_card_sub_one_eq_one x hx

/-- `a · a^(P^K−2) = a^(P^K−1)`, which is 1 for every nonzero element (R83). -/
theorem emul_epow_card_sub_two {c : Config} (hc : c.Admissible) {a : List Residue} (ha : a.length = c.degree)
    (hne : a ≠ extZero c) : emul c a (epow c a (P ^ c.degree - 2)) = extOne c := by
  have hinverse := epow_length hc ha (P ^ c.degree - 2)
  have hexponent : P ^ c.degree - 2 + 1 = P ^ c.degree - 1 := by
    have := P_prime.two_le.trans (Nat.le_self_pow (Nat.ne_of_gt hc.degree_pos) P)
    omega
  apply toExtension_injective (emul_length hc ha hinverse) (extOne_length hc)
  calc toExtension c (emul c a (epow c a (P ^ c.degree - 2)))
      = toExtension c a * toExtension c a ^ (P ^ c.degree - 2) := by
        rw [toExtension_emul hc ha hinverse, toExtension_epow hc ha]
    _ = toExtension c a ^ (P ^ c.degree - 1) := by rw [← pow_succ', hexponent]
    _ = 1 := extension_pow_card_sub_one hc (mt (toExtension_eq_zero ha).1 hne)
    _ = toExtension c (extOne c) := (toExtension_extOne hc).symm

/-- Multiplication by a nonzero element loses nothing, so an inverse is the only one (R83). -/
theorem emul_left_cancel {c : Config} (hc : c.Admissible) {a b e : List Residue} (ha : a.length = c.degree)
    (hb : b.length = c.degree) (he : e.length = c.degree) (hne : a ≠ extZero c) (h : emul c a e = emul c a b) :
    e = b := by
  have := P_fact
  have : Fact (Irreducible (modulus c)) := ⟨hc.irreducible⟩
  have hproducts : toExtension c a * toExtension c e = toExtension c a * toExtension c b := by
    rw [← toExtension_emul hc ha he, ← toExtension_emul hc ha hb, h]
  exact toExtension_injective he hb (mul_left_cancel₀ (mt (toExtension_eq_zero ha).1 hne) hproducts)

theorem ne_extZero_of_exists {c : Config} {a : List Residue} (h : ∃ x ∈ a, x.val ≠ 0) : a ≠ extZero c := by
  rintro rfl
  obtain ⟨x, hx, hne⟩ := h
  exact ne_zero_of_val hne (List.eq_of_mem_replicate hx)

/-! ## The two functions -/

theorem einv_extZero (c : Config) : einv c (extZero c) = .error (.status .zeroDivisor) :=
  if_pos (List.all_eq_true.2 fun _ hx => decide_eq_true (List.eq_of_mem_replicate hx))

theorem einv_of_ne_zero {c : Config} {a : List Residue} (ha : a.length = c.degree) (hne : a ≠ extZero c) :
    einv c a = .ok (epow c a (P ^ c.degree - 2)) :=
  if_neg fun hall => hne (List.eq_replicate_iff.2
    ⟨ha, fun x hx => of_decide_eq_true (List.all_eq_true.1 hall x hx)⟩)

/-- The divisor decides the failure, whatever the dividend is (R85). -/
theorem ediv_extZero (c : Config) (a : List Residue) : ediv c a (extZero c) = .error (.status .zeroDivisor) := by
  rw [ediv, einv_extZero]
  rfl

theorem ediv_of_ne_zero {c : Config} (a : List Residue) {b : List Residue} (hb : b.length = c.degree)
    (hne : b ≠ extZero c) : ediv c a b = .ok (emul c a (epow c b (P ^ c.degree - 2))) := by
  rw [ediv, einv_of_ne_zero hb hne]
  rfl

/-! ## The two commands -/

theorem exec_einv (d a : Nat) (s : State) :
    exec (.einv d a) s = s.finish d (s.unaryWords (extFormat s.hw) (einv s.hw) d a) := rfl

theorem exec_ediv (d a b : Nat) (s : State) :
    exec (.ediv d a b) s = s.finish d (s.binaryWords (extFormat s.hw) (ediv s.hw) d a b) := rfl

theorem einv_encoding : TwoOperandEncoding 0x25 .einv :=
  twoOperandEncoding_of_decode fun w hopc => by rw [decode, hopc]; rfl

theorem ediv_encoding : ThreeOperandEncoding 0x26 .ediv :=
  threeOperandEncoding_of_decode fun w hopc => by rw [decode, hopc]; rfl

/-- Settles O26: the shape of a command with one extension-field source; the inverse by `emul_epow_card_sub_two`, the
only one by `emul_left_cancel`. -/
theorem einvInvertsOrRaisesZeroDivisor : Obligations.EinvInvertsOrRaisesZeroDivisor := by
  refine ⟨einv_encoding, fun s d a hbad => ?_, fun s d a hin hzero => ?_, fun s d a xs hc hin hlen hxs hne => ?_⟩
  · rw [exec_einv, State.unaryWords_bad _ hbad, State.finish_status]
  · rw [exec_einv, State.unaryWords_ext _ hin (extZero_length _) (residuesAt_extZero hzero), einv_extZero]
    rfl
  · have hne : xs ≠ extZero s.hw := ne_extZero_of_exists hne
    have hcs := epow_length hc hlen (P ^ s.hw.degree - 2)
    have hinverse := emul_epow_card_sub_two hc hlen hne
    refine ⟨_, hcs, (emul_eq_extOne_iff hc hlen hcs).1 hinverse, fun es hes hone => ?_, ?_⟩
    · exact emul_left_cancel hc hlen hcs hes hne (((emul_eq_extOne_iff hc hlen hes).2 hone).trans hinverse.symm)
    · rw [exec_einv, State.unaryWords_ext _ hin hlen hxs, einv_of_ne_zero hlen hne]
      rfl

/-- Settles O27: the shape of a command with two extension-field sources, with the inverse of O26 as a factor. -/
theorem edivDividesOrRaisesZeroDivisor : Obligations.EdivDividesOrRaisesZeroDivisor := by
  refine ⟨ediv_encoding, fun s d a b hbad => ?_, fun s d a b xs hin hlen hxs hzero => ?_,
    fun s d a b xs ys hc hin hxlen hylen hxs hys hne => ?_⟩
  · rw [exec_ediv, State.binaryWords_bad _ hbad, State.finish_status]
  · rw [exec_ediv, State.binaryWords_ext _ hin hlen (extZero_length _) hxs (residuesAt_extZero hzero), ediv_extZero]
    rfl
  · have hne : ys ≠ extZero s.hw := ne_extZero_of_exists hne
    have hqs := epow_length hc hylen (P ^ s.hw.degree - 2)
    have hinverse := (emul_eq_extOne_iff hc hylen hqs).1 (emul_epow_card_sub_two hc hylen hne)
    obtain ⟨hlen, hpoly⟩ := emul_spec s.hw hc.degree_pos hxlen hqs
    refine ⟨_, _, hqs, hinverse, hlen, hpoly, ?_⟩
    rw [exec_ediv, State.binaryWords_ext _ hin hxlen hylen hxs hys, ediv_of_ne_zero xs hylen hne]
    rfl

end Sys2Proof.Machine
end

section
/-! PROOFS. The embedding of the base field (spec/45_field_extension.md R76). -/

namespace Sys2Proof.Machine

theorem lift_badd (c : Config) (r q : Residue) : lift c (badd r q) = eadd (lift c r) (lift c q) := by
  have hzero : badd Residue.zero Residue.zero = Residue.zero := by decide
  rw [lift, lift, lift, eadd, List.zipWith_cons_cons, List.zipWith_replicate', hzero]

/-- A lifted residue is a constant modulo `m(x)`, and a product of constants is their product. -/
theorem toExtension_lift (c : Config) (r : Residue) :
    toExtension c (lift c r) = AdjoinRoot.of (modulus c) (Residue.toField r) := by
  rw [toExtension, polyOf_lift, AdjoinRoot.mk_C]

theorem lift_bmul {c : Config} (hc : c.Admissible) (r q : Residue) :
    lift c (bmul r q) = emul c (lift c r) (lift c q) := by
  have hlift := lift_length c hc.degree_pos
  apply toExtension_injective (hlift _) (emul_length hc (hlift r) (hlift q))
  rw [toExtension_emul hc (hlift r) (hlift q), toExtension_lift, toExtension_lift, toExtension_lift, toField_bmul,
    map_mul]

/-- Settles O51: addition coefficient by coefficient, multiplication as that of constants modulo `m(x)`. -/
theorem liftIsARingHomomorphism : Obligations.LiftIsARingHomomorphism :=
  fun c hc => ⟨lift_badd c, lift_bmul hc, rfl⟩

end Sys2Proof.Machine
end

section
/-! PROOFS. The shape of a transform command: the checks of R97 in their order, each with the status it raises once
those before it have passed (spec/47_ntt.md), and the sequence of residues at an address (spec/20_memory.md R29). -/

namespace Sys2Proof.Machine

open Sys2Proof.Claims

section

variable {α : Type} {s : State} {F : ElementFormat α} {rootRange : Except Stop Unit} {root : Nat → Except Stop α}
  (f : α → List α → List α) {d a : Nat}

/-- The ranges known from the command word come first (R97 step 1). -/
theorem State.transformWords_operand_bad (h : a + 1 ≤ s.hw.memWords → rootRange = .error (.status .badAddress)) :
    s.transformWords F rootRange root f d a = .error (.status .badAddress) :=
  State.checkRange_bind_bad fun ha => by rw [h ha, Except.error_bind]

variable (ha : a + 1 ≤ s.hw.memWords) (hr : rootRange = .ok ())
include ha hr

/-- The length comes before the sequence (R97 step 3). -/
theorem State.transformWords_length_bad (hlen : ∀ k, (s.mem.read a).toNat ≠ 2 ^ k) :
    s.transformWords F rootRange root f d a = .error (.status .invalidLength) := by
  have hlength : checkLength (s.fetchRaw a) = .error (.status .invalidLength) :=
    checkLength_bad (Bool.eq_false_iff.1 (not_ispow2_iff.2 hlen))
  simp only [State.transformWords, State.checkRange_ok ha, hr, hlength, Except.ok_bind, Except.error_bind]

variable {k : Nat} (hlen : (s.mem.read a).toNat = 2 ^ k)
include hlen

/-- The range of the sequence comes before the root (R97 step 4). -/
theorem State.transformWords_sequence_bad (hd : s.hw.memWords < d + 2 ^ k * F.width) :
    s.transformWords F rootRange root f d a = .error (.status .badAddress) := by
  have hraw : s.fetchRaw a = 2 ^ k := hlen
  simp only [State.transformWords, State.checkRange_ok ha, hr, hraw, checkLength_ok (ispow2_two_pow k),
    State.checkRange_bad hd, Except.ok_bind, Except.error_bind]

variable (hd : d + 2 ^ k * F.width ≤ s.hw.memWords)
include hd

/-- The root comes before the elements of the sequence (R97 step 5). -/
theorem State.transformWords_root_fails {e : Stop} (hroot : root (2 ^ k) = .error e) :
    s.transformWords F rootRange root f d a = .error e := by
  have hraw : s.fetchRaw a = 2 ^ k := hlen
  simp only [State.transformWords, State.checkRange_ok ha, hr, hraw, checkLength_ok (ispow2_two_pow k),
    State.checkRange_ok hd, hroot, Except.ok_bind, Except.error_bind]

theorem State.transformWords_two_pow {r : α} {xs : List α} (hroot : root (2 ^ k) = .ok r)
    (hxs : s.fetchSeq F d (2 ^ k) = .ok xs) :
    s.transformWords F rootRange root f d a = .ok (F.flatten (f r xs)) := by
  have hraw : s.fetchRaw a = 2 ^ k := hlen
  rw [← hraw] at hd hroot hxs
  exact State.transformWords_eq f ha hr (ispow2_iff.2 ⟨k, hraw⟩) hd hroot hxs

end

theorem baseFormat_flatten (xs : List Residue) : baseFormat.flatten xs = xs.map Residue.toWord :=
  List.map_eq_flatMap.symm

theorem State.fetchSeq_base {s : State} {d : Nat} {xs : List Residue} (h : ResiduesAt s d xs) :
    s.fetchSeq baseFormat d xs.length = .ok xs := by
  refine State.fetchSeq_ok (fun x _ => baseFormat_fits x) ?_
  rw [baseFormat_width, Nat.mul_one, baseFormat_flatten, h]

end Sys2Proof.Machine
end

section
/-! PROOFS. The unit radix2_ntt_decimation_in_time: NTT (spec/47_ntt.md R103). -/

namespace Sys2Proof.Machine

open Sys2Proof.Claims

theorem exec_ntt (d a : Nat) (s : State) :
    exec (.ntt d a) s =
      s.finish d (s.transformWords baseFormat (.ok ()) (orderedRoot s.hw) (transform baseOps) d a) := rfl

theorem ntt_encoding : TwoOperandEncoding 0x30 .ntt :=
  twoOperandEncoding_of_decode fun w hopc => by rw [decode, hopc]; rfl

/-- A length above `2^32` has no root (R69, R103). -/
theorem orderedRoot_two_pow_fails (c : Config) {k : Nat} (hk : 32 < k) :
    orderedRoot c (2 ^ k) = .error (.status .orderedRootError) :=
  orderedRoot_fails c fun _ hj heq => absurd (Nat.pow_right_injective le_rfl heq) (by omega)

/-- The derived root is the residue with the value R103 names. -/
theorem orderedRoot_eq_of_val {c : Config} {k : Nat} {root : Residue} (hk : k ≤ 32)
    (hroot : root.val = c.generator.val ^ (2 ^ (32 - k)) % P) : orderedRoot c (2 ^ k) = .ok root := by
  rw [orderedRoot_two_pow c hk, Fin.ext (hroot.trans (bpow_val c.generator (2 ^ (32 - k))).symm)]

/-- Settles O28: the checks in the order of the shape of a transform command, with the two answers of `orderedRoot`
for the root and the residues at `DST` for the sequence. -/
theorem nttTransformsInPlaceWithTheDerivedRoot : Obligations.NttTransformsInPlaceWithTheDerivedRoot := by
  refine ⟨ntt_encoding, fun s d a hbad => ?_, fun s d a hin hlen => ?_, fun s d a k hin hlen hbad => ?_,
    fun s d a k hin hlen hk => ?_, fun s d a k root xs hin hlen hk hroot hxlen hxs => ?_⟩
  · rw [State.inRange_singleton] at hbad
    rw [exec_ntt, State.transformWords_operand_bad _ fun ha => absurd ha hbad, State.finish_status]
  · rw [State.inRange_singleton] at hin
    rw [exec_ntt, State.transformWords_length_bad _ hin rfl hlen, State.finish_status]
  · rw [State.inRange_singleton] at hin hbad
    rw [exec_ntt, State.transformWords_sequence_bad _ hin rfl hlen (by simpa using hbad), State.finish_status]
  · rw [State.inRange_cons, State.inRange_singleton] at hin
    obtain ⟨ha, hd⟩ := hin
    rw [exec_ntt, State.transformWords_root_fails _ ha rfl hlen (by simpa using hd)
      (orderedRoot_two_pow_fails s.hw hk), State.finish_status]
  · rw [State.inRange_cons, State.inRange_singleton] at hin
    obtain ⟨ha, hd⟩ := hin
    have hseq : s.fetchSeq baseFormat d (2 ^ k) = .ok xs := hxlen ▸ State.fetchSeq_base hxs
    rw [exec_ntt, State.transformWords_two_pow _ ha rfl hlen (by simpa using hd) (orderedRoot_eq_of_val hk hroot)
      hseq, State.finish_ok, baseFormat_flatten]

end Sys2Proof.Machine
end

section
/-! PROOFS. How running a command word ends: every command is its result words handed to `State.finish`, so that it
changes `MEM` or it fails, and a failure is the code alone (spec/30_encoding.md R49, spec/60_exceptions.md R117). -/

namespace Sys2Proof.Machine

theorem exec_nttr (d a r : Nat) (s : State) :
    exec (.nttr d a r) s =
      s.finish d (s.transformWords baseFormat (s.checkRange r 1) (fun _ => s.fetchElement baseFormat r)
        (transform baseOps) d a) := rfl

theorem exec_entt (d a : Nat) (s : State) :
    exec (.entt d a) s =
      s.finish d (s.transformWords (extFormat s.hw) (.ok ()) (fun n => (orderedRoot s.hw n).map (lift s.hw))
        (transform (extOps s.hw)) d a) := rfl

theorem exec_enttr (d a r : Nat) (s : State) :
    exec (.enttr d a r) s =
      s.finish d (s.transformWords (extFormat s.hw) (s.checkRange r s.hw.degree)
        (fun _ => s.fetchElement (extFormat s.hw) r) (transform (extOps s.hw)) d a) := rfl

/-- The meaning of a command is the end of it on some result words, staged for its `DST` (R49, R50). -/
theorem exec_eq_finish (i : Instr) (s : State) : ∃ r, exec i s = s.finish i.dst r := by
  cases i <;> exact ⟨_, rfl⟩

/-- A command that has a next state commits its result words or fails. -/
theorem exec_next_cases {i : Instr} {s t : State} (h : exec i s = .next t) :
    (∃ ws, t = s.commit i.dst ws) ∨ (∃ st, t = s.fail st) := by
  obtain ⟨r, hr⟩ := exec_eq_finish i s
  rw [hr] at h
  rcases s.finish_cases i.dst r with ⟨ws, -, hf⟩ | ⟨st, -, hf⟩ | ⟨e, -, hf⟩ <;> rw [hf] at h <;> cases h
  · exact .inl ⟨ws, rfl⟩
  · exact .inr ⟨st, rfl⟩

/-- A command word, legal or not, that has a next state commits result words or fails (R44, R49). -/
theorem runCommand_next_cases {w : CommandWord} {s t : State} (h : runCommand w s = .next t) :
    (∃ d ws, t = s.commit d ws) ∨ (∃ st, t = s.fail st) := by
  cases hdecode : decode w with
  | error e =>
    rw [runCommand_of_decode_error hdecode] at h
    cases h
    exact .inr ⟨_, rfl⟩
  | ok i =>
    rw [runCommand, hdecode] at h
    exact (exec_next_cases h).imp_left fun ⟨ws, hws⟩ => ⟨i.dst, ws, hws⟩

/-- Settles O34: a commit leaves `STATUS` 0, and a failure is `State.fail`, which sets and returns the code. -/
theorem failedCommandLeavesOnlyItsCode : Obligations.FailedCommandLeavesOnlyItsCode := by
  intro w s t hrun hstatus
  rcases runCommand_next_cases hrun with ⟨d, ws, rfl⟩ | ⟨st, rfl⟩
  · exact absurd (s.commit_status d ws) hstatus
  · rfl

end Sys2Proof.Machine
end

section
/-! PROOFS. The order of the failures (spec/60_exceptions.md R118), over all commands of each item. -/

namespace Sys2Proof.Machine

open Sys2Proof.Claims

theorem State.finish_of_fails {s : State} {d : Nat} {r : Except Stop (List Word)} {st : Status}
    (h : r = .error (.status st)) : s.finish d r = .next (s.fail st) := by
  rw [h, State.finish_status]

/-! ## The ranges known from the command word (item 2) -/

section

variable {α : Type} {s : State} {F : ElementFormat α} {root : Nat → Except Stop α} (f : α → List α → List α)
  {d a : Nat}

theorem State.transformWords_lengthWord_bad (h : ¬ s.InRange [(a, 1)]) :
    s.transformWords F (.ok ()) root f d a = .error (.status .badAddress) := by
  rw [State.inRange_singleton] at h
  exact State.transformWords_operand_bad f fun ha => absurd ha h

theorem State.transformWords_explicitRoot_bad {r n : Nat} (h : ¬ s.InRange [(a, 1), (r, n)]) :
    s.transformWords F (s.checkRange r n) root f d a = .error (.status .badAddress) := by
  rw [State.inRange_cons, State.inRange_singleton] at h
  exact State.transformWords_operand_bad f fun ha => State.checkRange_bad (Nat.lt_of_not_le fun hr => h ⟨ha, hr⟩)

end

theorem exec_wordRanges_bad {i : Instr} {s : State} (h : ¬ s.InRange (wordRanges s i)) :
    exec i s = .next (s.fail .badAddress) := by
  cases i with
  | badd | bsub | bmul | bdiv | eadd | esub | emul | ediv => exact State.finish_of_fails (State.binaryWords_bad _ h)
  | bneg | binv | eneg | einv => exact State.finish_of_fails (State.unaryWords_bad _ h)
  | bpow | epow => exact State.finish_of_fails (State.powerWords_bad _ h)
  | broot => exact State.finish_of_fails (State.rootWords_bad _ h)
  | ntt | entt => exact State.finish_of_fails (State.transformWords_lengthWord_bad _ h)
  | nttr | enttr => exact State.finish_of_fails (State.transformWords_explicitRoot_bad _ h)

/-! ## The transforms (items 3 to 5) -/

theorem mnemonic_derivedRoot {i : Instr} (h : i.mnemonic ∈ ["NTT", "ENTT"]) :
    (∃ d a, i = .ntt d a) ∨ (∃ d a, i = .entt d a) := by
  cases i <;> simp [Instr.mnemonic] at h ⊢

/-- Once the ranges known from the command word are inside `MEM`, a transform command is the checks of R97 with that
step passed, and a root it derives fails above the length `2^32` (R69, R103, R105). -/
theorem exec_transform {i : Instr} {s : State} {a : Nat} (hlength : lengthWord? i = some a)
    (hin : s.InRange (wordRanges s i)) :
    a + 1 ≤ s.hw.memWords ∧
    ∃ (α : Type) (F : ElementFormat α) (root : Nat → Except Stop α) (f : α → List α → List α),
      exec i s = s.finish i.dst (s.transformWords F (.ok ()) root f i.dst a) ∧
      writtenCount s i = s.fetchRaw a * F.width ∧
      (i.mnemonic ∈ ["NTT", "ENTT"] → ∀ k, 32 < k → root (2 ^ k) = .error (.status .orderedRootError)) := by
  cases i with
  | ntt d b =>
    cases hlength
    refine ⟨State.inRange_singleton.1 hin, _, _, _, _, exec_ntt d a s, (Nat.mul_one _).symm, ?_⟩
    exact fun _ k hk => orderedRoot_two_pow_fails s.hw hk
  | entt d b =>
    cases hlength
    refine ⟨State.inRange_singleton.1 hin, _, _, _, _, exec_entt d a s, rfl, fun _ k hk => ?_⟩
    rw [orderedRoot_two_pow_fails s.hw hk]
    rfl
  | nttr d b r =>
    cases hlength
    obtain ⟨ha, hr⟩ := State.inRange_cons.1 hin
    have hexec := exec_nttr d a r s
    rw [State.checkRange_ok (State.inRange_singleton.1 hr)] at hexec
    exact ⟨ha, _, _, _, _, hexec, (Nat.mul_one _).symm, fun h => by simp [Instr.mnemonic] at h⟩
  | enttr d b r =>
    cases hlength
    obtain ⟨ha, hr⟩ := State.inRange_cons.1 hin
    have hexec := exec_enttr d a r s
    rw [State.checkRange_ok (State.inRange_singleton.1 hr)] at hexec
    exact ⟨ha, _, _, _, _, hexec, rfl, fun h => by simp [Instr.mnemonic] at h⟩
  | _ => cases hlength

theorem exec_invalidLength {i : Instr} {s : State} {a : Nat} (hin : s.InRange (wordRanges s i))
    (hlength : lengthWord? i = some a) (hlen : ∀ k, (s.mem.read a).toNat ≠ 2 ^ k) :
    exec i s = .next (s.fail .invalidLength) := by
  obtain ⟨ha, _, _, _, f, hexec, -, -⟩ := exec_transform hlength hin
  rw [hexec, State.transformWords_length_bad f ha rfl hlen, State.finish_status]

theorem exec_sequence_bad {i : Instr} {s : State} {a k : Nat} (hin : s.InRange (wordRanges s i))
    (hlength : lengthWord? i = some a) (hlen : (s.mem.read a).toNat = 2 ^ k)
    (hbad : ¬ s.InRange [(i.dst, writtenCount s i)]) : exec i s = .next (s.fail .badAddress) := by
  obtain ⟨ha, _, _, _, f, hexec, hcount, -⟩ := exec_transform hlength hin
  rw [State.inRange_singleton, hcount, State.fetchRaw, hlen, not_le] at hbad
  rw [hexec, State.transformWords_sequence_bad f ha rfl hlen hbad, State.finish_status]

theorem exec_derivedRoot_fails {i : Instr} {s : State} {a k : Nat} (hderived : i.mnemonic ∈ ["NTT", "ENTT"])
    (hin : s.InRange (wordRanges s i)) (hlength : lengthWord? i = some a) (hlen : (s.mem.read a).toNat = 2 ^ k)
    (hk : 32 < k) (hseq : s.InRange [(i.dst, writtenCount s i)]) :
    exec i s = .next (s.fail .orderedRootError) := by
  obtain ⟨ha, _, _, _, f, hexec, hcount, hroot⟩ := exec_transform hlength hin
  rw [State.inRange_singleton, hcount, State.fetchRaw, hlen] at hseq
  rw [hexec, State.transformWords_root_fails f ha rfl hlen hseq (hroot hderived k hk), State.finish_status]

/-! ## The zero divisor (item 6) -/

theorem mnemonic_inverse {i : Instr} (h : i.mnemonic ∈ ["BINV", "EINV"]) :
    (∃ d a, i = .binv d a) ∨ (∃ d a, i = .einv d a) := by
  cases i <;> simp [Instr.mnemonic] at h ⊢

theorem mnemonic_division {i : Instr} (h : i.mnemonic ∈ ["BDIV", "EDIV"]) :
    (∃ d a b, i = .bdiv d a b) ∨ (∃ d a b, i = .ediv d a b) := by
  cases i <;> simp [Instr.mnemonic] at h ⊢

theorem exists_residueAt {s : State} {a : Nat} (h : Word.Canonical (s.mem.read a)) : ∃ x, ResidueAt s a x := by
  rcases s.fetchResidue_cases a with ⟨x, hx, -⟩ | ⟨hbad, -⟩
  · exact ⟨x, hx⟩
  · exact absurd h hbad

theorem exists_residuesAt {s : State} {a n : Nat} (h : ∀ b ∈ addresses a n, Word.Canonical (s.mem.read b)) :
    ∃ xs : List Residue, xs.length = n ∧ ResiduesAt s a xs := by
  rcases s.fetchResidues_cases a n with ⟨xs, rfl, hxs, -⟩ | ⟨b, hlow, hhigh, hbad, -⟩
  · exact ⟨xs, rfl, hxs⟩
  · exact absurd (h b (List.mem_range'_1.2 ⟨hlow, hhigh⟩)) hbad

theorem exec_inverse_of_zero {i : Instr} {s : State} (hinverse : i.mnemonic ∈ ["BINV", "EINV"])
    (hin : s.InRange (wordRanges s i)) (hzero : ∀ j, j < writtenCount s i → s.mem.read (i.src1 + j) = 0) :
    exec i s = .next (s.fail .zeroDivisor) := by
  rcases mnemonic_inverse hinverse with ⟨d, a, rfl⟩ | ⟨d, a, rfl⟩
  · obtain ⟨-, -, hfails, -⟩ := binvInvertsOrRaisesZeroDivisor
    exact hfails s d a hin (hzero 0 Nat.one_pos)
  · obtain ⟨-, -, hfails, -⟩ := einvInvertsOrRaisesZeroDivisor
    exact hfails s d a hin hzero

theorem exec_division_by_zero {i : Instr} {s : State} {b : Nat} (hdivision : i.mnemonic ∈ ["BDIV", "EDIV"])
    (hsrc2 : i.src2? = some b) (hin : s.InRange (wordRanges s i)) (hcanonical : s.OperandsCanonical i)
    (hzero : ∀ j, j < writtenCount s i → s.mem.read (b + j) = 0) : exec i s = .next (s.fail .zeroDivisor) := by
  rcases mnemonic_division hdivision with ⟨d, a, b', rfl⟩ | ⟨d, a, b', rfl⟩ <;> cases hsrc2
  · obtain ⟨x, hx⟩ := exists_residueAt (hcanonical a List.mem_cons_self)
    obtain ⟨-, -, hfails, -⟩ := bdivDividesOrRaisesZeroDivisor
    exact hfails s d a b x hin hx (hzero 0 Nat.one_pos)
  · obtain ⟨xs, hlen, hxs⟩ := exists_residuesAt fun c hc => hcanonical c (List.mem_append_left _ hc)
    obtain ⟨-, -, hfails, -⟩ := edivDividesOrRaisesZeroDivisor
    exact hfails s d a b xs hin hlen hxs hzero

/-- Settles O33: one lemma per item of R118, the root error of BROOT from O20. -/
theorem failuresAreReportedInPriorityOrder : Obligations.FailuresAreReportedInPriorityOrder := by
  obtain ⟨-, -, hbroot, -⟩ := brootDerivesTheRootOrRaisesOrderedRootError
  exact ⟨fun w s ⟨e, he⟩ => runCommand_of_decode_error he s, fun i s => exec_wordRanges_bad,
    fun i s a => exec_invalidLength, fun i s a k => exec_sequence_bad, hbroot, fun i s a k => exec_derivedRoot_fails,
    fun i s => exec_inverse_of_zero, fun i s b => exec_division_by_zero⟩

end Sys2Proof.Machine
end

section
/-! PROOFS. Decoding reads the fields of the command word (spec/30_encoding.md R40 to R44): a word decodes to a command
exactly when it carries the command's opcode and addresses, with `RSV` and an unused `SRC2` zero. -/

namespace Sys2Proof

/-- The fields of the word `w` are those of the command `i` (R40 to R44). -/
structure CommandWord.Carries (w : CommandWord) (i : Instr) : Prop where
  opc : CommandWord.opc w = i.opcode
  rsv : CommandWord.rsv w = 0
  dst : (CommandWord.dst w).toNat = i.dst
  src1 : (CommandWord.src1 w).toNat = i.src1
  src2 : (CommandWord.src2 w).toNat = i.src2?.getD 0

theorem decodeThree_eq_ok {mk : Nat → Nat → Nat → Instr} {w : CommandWord} {i : Instr}
    (h : decodeThree mk w = .ok i) : CommandWord.rsv w = 0 ∧
      mk (CommandWord.dst w).toNat (CommandWord.src1 w).toNat (CommandWord.src2 w).toNat = i := by
  unfold decodeThree at h
  split at h
  · cases h
  · simp_all

theorem decodeTwo_eq_ok {mk : Nat → Nat → Instr} {w : CommandWord} {i : Instr} (h : decodeTwo mk w = .ok i) :
    CommandWord.rsv w = 0 ∧ CommandWord.src2 w = 0 ∧
      mk (CommandWord.dst w).toNat (CommandWord.src1 w).toNat = i := by
  unfold decodeTwo at h
  split_ifs at h
  simp_all

theorem carries_of_decode {w : CommandWord} {i : Instr} (h : decode w = .ok i) : CommandWord.Carries w i := by
  unfold decode at h
  split at h
  case h_20 => cases h
  case h_3 | h_6 | h_8 | h_11 | h_14 | h_16 | h_18 =>
    rename_i hopc
    obtain ⟨hrsv, hsrc2, rfl⟩ := decodeTwo_eq_ok h
    exact ⟨BitVec.eq_of_toNat_eq hopc, hrsv, rfl, rfl, congrArg BitVec.toNat hsrc2⟩
  all_goals
    rename_i hopc
    obtain ⟨hrsv, rfl⟩ := decodeThree_eq_ok h
    exact ⟨BitVec.eq_of_toNat_eq hopc, hrsv, rfl, rfl, rfl⟩

/-- Each opcode selects the arm of its own command, which takes the operands from the fields. -/
theorem decode_of_carries {w : CommandWord} {i : Instr} (h : CommandWord.Carries w i) : decode w = .ok i := by
  obtain ⟨hopc, hrsv, hdst, hsrc1, hsrc2⟩ := h
  unfold decode
  cases i with
  | bneg | binv | broot | eneg | einv | ntt | entt =>
    rw [hopc]
    exact (decodeTwo_ok hrsv (BitVec.eq_of_toNat_eq hsrc2)).trans (by rw [hdst, hsrc1]; rfl)
  | _ =>
    rw [hopc]
    exact (decodeThree_ok hrsv).trans (by rw [hdst, hsrc1, hsrc2]; rfl)

theorem decode_eq_ok_iff {w : CommandWord} {i : Instr} : decode w = .ok i ↔ CommandWord.Carries w i :=
  ⟨carries_of_decode, decode_of_carries⟩

theorem wellFormed_iff {i : Instr} :
    i.wellFormed = true ↔ i.dst < 2 ^ 32 ∧ i.src1 < 2 ^ 32 ∧ i.src2?.getD 0 < 2 ^ 32 := by
  cases h : i.src2? <;> simp [Instr.wellFormed, addressFits, h, and_assoc]

/-- The word of a well-formed command carries it: no operand loses a bit in its field (R41, R47). -/
theorem encode_carries {i : Instr} (h : i.wellFormed = true) : CommandWord.Carries (encode i) i := by
  obtain ⟨hdst, hsrc1, hsrc2⟩ := wellFormed_iff.1 h
  obtain ⟨eopc, ersv, edst, esrc1, esrc2⟩ := Laws.EncodedFields.all i
  refine ⟨eopc, ersv, ?_, ?_, ?_⟩
  · rw [edst, BitVec.toNat_ofNat, Nat.mod_eq_of_lt hdst]
  · rw [esrc1, BitVec.toNat_ofNat, Nat.mod_eq_of_lt hsrc1]
  · rw [esrc2, BitVec.toNat_ofNat, Nat.mod_eq_of_lt hsrc2]

/-- The five fields of R40 cover the command word. -/
theorem CommandWord.append_fields (w : CommandWord) :
    CommandWord.src2 w ++ CommandWord.src1 w ++ CommandWord.dst w ++ CommandWord.rsv w ++ CommandWord.opc w = w := by
  unfold CommandWord.src2 CommandWord.src1 CommandWord.dst CommandWord.rsv CommandWord.opc
  rw [BitVec.extractLsb'_append_extractLsb'_eq_extractLsb' (show 96 = 64 + 32 from rfl),
    BitVec.extractLsb'_append_extractLsb'_eq_extractLsb' (show 64 = 32 + 32 from rfl),
    BitVec.extractLsb'_append_extractLsb'_eq_extractLsb' (show 32 = 8 + 24 from rfl),
    BitVec.extractLsb'_append_extractLsb'_eq_extractLsb' (show 8 = 0 + 8 from rfl)]
  exact BitVec.extractLsb'_eq_self

theorem CommandWord.ext_fields {v w : CommandWord} (hopc : CommandWord.opc v = CommandWord.opc w)
    (hrsv : CommandWord.rsv v = CommandWord.rsv w) (hdst : CommandWord.dst v = CommandWord.dst w)
    (hsrc1 : CommandWord.src1 v = CommandWord.src1 w) (hsrc2 : CommandWord.src2 v = CommandWord.src2 w) : v = w := by
  rw [← CommandWord.append_fields v, hopc, hrsv, hdst, hsrc1, hsrc2, CommandWord.append_fields]

theorem wellFormed_of_carries {w : CommandWord} {i : Instr} (h : CommandWord.Carries w i) : i.wellFormed = true := by
  rw [wellFormed_iff, ← h.dst, ← h.src1, ← h.src2]
  exact ⟨BitVec.isLt _, BitVec.isLt _, BitVec.isLt _⟩

theorem encode_of_carries {w : CommandWord} {i : Instr} (h : CommandWord.Carries w i) : encode i = w := by
  have he := encode_carries (wellFormed_of_carries h)
  exact CommandWord.ext_fields (he.opc.trans h.opc.symm) (he.rsv.trans h.rsv.symm)
    (BitVec.eq_of_toNat_eq (he.dst.trans h.dst.symm)) (BitVec.eq_of_toNat_eq (he.src1.trans h.src1.symm))
    (BitVec.eq_of_toNat_eq (he.src2.trans h.src2.symm))

/-- Settles O1: the fields of each word, and the condition of R44 that each illegal word meets, by evaluation. -/
theorem tableWordsDecodeAsListed : Obligations.TableWordsDecodeAsListed := by
  unfold Obligations.TableWordsDecodeAsListed
  decide

/-- Settles O2: the word of a well-formed command carries the command, and a word decodes to the command it carries. -/
theorem decodingAnEncodedCommandGivesItBack : Obligations.DecodingAnEncodedCommandGivesItBack :=
  fun _ h => decode_of_carries (encode_carries h)

/-- Settles O3: a word decodes only to the command it carries, and a word is known by its fields. -/
theorem encodingADecodedWordGivesItBack : Obligations.EncodingADecodedWordGivesItBack :=
  fun _ _ h => ⟨encode_of_carries (carries_of_decode h), wellFormed_of_carries (carries_of_decode h)⟩

/-! ## The opcode table -/

/-- The row of the table a command belongs to (R52). -/
def Instr.row (i : Instr) : OpcodeRow :=
  ⟨i.mnemonic, if i.src2?.isSome then maskThree else maskTwo, assemble 0 0 0 i.opcode⟩

theorem row_mem_opcodeTable (i : Instr) : i.row ∈ opcodeTable := by
  cases i <;> simp [Instr.row, Instr.mnemonic, Instr.src2?, Instr.opcode, assemble, opcodeTable]

/-- What the masks and patterns of the 19 rows are made of (R52): all of `OPC` and `RSV`, and all of `SRC2` where it
must be zero. -/
theorem opcodeTable_fields : ∀ r ∈ opcodeTable,
    CommandWord.opc r.mask = BitVec.allOnes 8 ∧ CommandWord.rsv r.mask = BitVec.allOnes 24 ∧
    CommandWord.rsv r.pattern = 0 ∧ CommandWord.opc r.pattern ∈ assignedOpcodes ∧
    (CommandWord.opc r.pattern ∈ twoOperandOpcodes →
      CommandWord.src2 r.mask = BitVec.allOnes 32 ∧ CommandWord.src2 r.pattern = 0) := by decide

theorem opcodeTable_pattern_injective : ∀ r ∈ opcodeTable, ∀ q ∈ opcodeTable,
    CommandWord.opc r.pattern = CommandWord.opc q.pattern → r = q := by decide

theorem CommandWord.opc_and (v w : CommandWord) :
    CommandWord.opc (v &&& w) = CommandWord.opc v &&& CommandWord.opc w := BitVec.extractLsb'_and

theorem CommandWord.rsv_and (v w : CommandWord) :
    CommandWord.rsv (v &&& w) = CommandWord.rsv v &&& CommandWord.rsv w := BitVec.extractLsb'_and

theorem CommandWord.src2_and (v w : CommandWord) :
    CommandWord.src2 (v &&& w) = CommandWord.src2 v &&& CommandWord.src2 w := BitVec.extractLsb'_and

theorem fields_of_fits {r : OpcodeRow} (hr : r ∈ opcodeTable) {w : CommandWord} (h : r.fits w = true) :
    CommandWord.opc w = CommandWord.opc r.pattern ∧ CommandWord.rsv w = 0 ∧
    (CommandWord.opc w ∈ twoOperandOpcodes → CommandWord.src2 w = 0) := by
  obtain ⟨mopc, mrsv, prsv, -, hsrc2⟩ := opcodeTable_fields r hr
  have hfits : w &&& r.mask = r.pattern := eq_of_beq h
  have hopc : CommandWord.opc w = CommandWord.opc r.pattern := by
    rw [← hfits, CommandWord.opc_and, mopc, BitVec.and_allOnes]
  refine ⟨hopc, ?_, fun htwo => ?_⟩
  · rw [← prsv, ← hfits, CommandWord.rsv_and, mrsv, BitVec.and_allOnes]
  · obtain ⟨msrc2, psrc2⟩ := hsrc2 (hopc ▸ htwo)
    rw [← psrc2, ← hfits, CommandWord.src2_and, msrc2, BitVec.and_allOnes]

theorem row_unique {r q : OpcodeRow} (hr : r ∈ opcodeTable) (hq : q ∈ opcodeTable) {w : CommandWord}
    (hrw : r.fits w = true) (hqw : q.fits w = true) : r = q :=
  opcodeTable_pattern_injective r hr q hq ((fields_of_fits hr hrw).1.symm.trans (fields_of_fits hq hqw).1)

theorem decodes_of_fits {r : OpcodeRow} (hr : r ∈ opcodeTable) {w : CommandWord} (h : r.fits w = true) :
    ∃ i, decode w = .ok i := by
  obtain ⟨hopc, hrsv, hsrc2⟩ := fields_of_fits hr h
  obtain ⟨-, -, -, hassigned, -⟩ := opcodeTable_fields r hr
  cases hdecode : decode w with
  | ok i => exact ⟨i, rfl⟩
  | error e =>
    rcases (decode_fails_iff w).1 ⟨e, hdecode⟩ with h | h | ⟨htwo, h⟩
    · exact absurd (hopc ▸ hassigned) h
    · exact absurd hrsv h
    · exact absurd (hsrc2 htwo) h

theorem CommandWord.dst_and (v w : CommandWord) :
    CommandWord.dst (v &&& w) = CommandWord.dst v &&& CommandWord.dst w := BitVec.extractLsb'_and

theorem CommandWord.src1_and (v w : CommandWord) :
    CommandWord.src1 (v &&& w) = CommandWord.src1 v &&& CommandWord.src1 w := BitVec.extractLsb'_and

/-- A mask that keeps all of `OPC` and `RSV` and no address leaves the opcode; where it keeps `SRC2`, that must be zero
(R52). -/
theorem and_mask_eq_assemble {w mask : CommandWord} (hopc : CommandWord.opc mask = BitVec.allOnes 8)
    (hrsv : CommandWord.rsv w = 0) (hdst : CommandWord.dst mask = 0) (hsrc1 : CommandWord.src1 mask = 0)
    (hsrc2 : CommandWord.src2 w &&& CommandWord.src2 mask = 0) : w &&& mask = assemble 0 0 0 (CommandWord.opc w) := by
  apply CommandWord.ext_fields
  · rw [CommandWord.opc_and, hopc, BitVec.and_allOnes, opc_assemble]
  · simp [CommandWord.rsv_and, hrsv]
  · simp [CommandWord.dst_and, hdst]
  · simp [CommandWord.src1_and, hsrc1]
  · rw [CommandWord.src2_and, hsrc2, src2_assemble]

theorem row_fits_of_carries {w : CommandWord} {i : Instr} (h : CommandWord.Carries w i) : i.row.fits w = true := by
  apply beq_of_eq
  show w &&& i.row.mask = assemble 0 0 0 i.opcode
  rw [← h.opc]
  cases hsrc2 : i.src2? with
  | some b =>
    have hmask : i.row.mask = maskThree := by simp [Instr.row, hsrc2]
    have hm : CommandWord.src2 maskThree = 0 := by decide
    rw [hmask]
    exact and_mask_eq_assemble (by decide) h.rsv (by decide) (by decide) (by simp [hm])
  | none =>
    have hmask : i.row.mask = maskTwo := by simp [Instr.row, hsrc2]
    have hzero : CommandWord.src2 w = 0 := BitVec.eq_of_toNat_eq (by rw [h.src2, hsrc2]; rfl)
    rw [hmask]
    exact and_mask_eq_assemble (by decide) h.rsv (by decide) (by decide) (by simp [hzero])

/-- Settles O4: a word that fits a row meets none of the conditions of R44, so it decodes; it then fits the row of the
command it decodes to, and it fits no other. -/
theorem decodingFollowsTheOpcodeTable : Obligations.DecodingFollowsTheOpcodeTable := by
  have hrow : ∀ {w : CommandWord} {i : Instr}, decode w = .ok i → i.row.fits w = true :=
    fun h => row_fits_of_carries (carries_of_decode h)
  refine ⟨fun w r hr hfits => ?_, fun w i h => ⟨i.row, row_mem_opcodeTable i, hrow h, rfl⟩,
    fun w r hr q hq => row_unique hr hq⟩
  obtain ⟨i, hi⟩ := decodes_of_fits hr hfits
  have hsame : i.row = r := row_unique (row_mem_opcodeTable i) hr (hrow hi) hfits
  exact ⟨i, hi, congrArg OpcodeRow.mnemonic hsame⟩

end Sys2Proof
end

section
/-! PROOFS. The written form of a command (spec/30_encoding.md R47): the parts of a printed line, and what the parser
makes of each. -/

namespace Sys2Proof.Machine

/-! ## Decimal numbers -/

theorem isDigit_bounds {c : Char} (h : c.isDigit = true) : 48 ≤ c.toNat ∧ c.toNat ≤ 57 := Char.isDigit_iff_toNat.1 h

theorem digitValue_of_isDigit {c : Char} (h : c.isDigit = true) :
    digitValue c = some (c.toNat - 48) ∧ c.toNat - 48 < 10 := by
  have hbounds := isDigit_bounds h
  exact ⟨if_pos hbounds, by omega⟩

theorem parseDigits_of_isDigit {cs : List Char} (h : ∀ c ∈ cs, c.isDigit = true) (acc : Nat) :
    parseDigits 10 acc cs = some (Nat.ofDigitChars 10 cs acc) := by
  induction cs generalizing acc with
  | nil => rfl
  | cons c cs ih =>
    obtain ⟨hc, hcs⟩ := List.forall_mem_cons.1 h
    obtain ⟨hvalue, hlt⟩ := digitValue_of_isDigit hc
    simp only [parseDigits, hvalue, if_pos hlt, ih hcs]
    rw [Nat.ofDigitChars, Nat.ofDigitChars, List.foldl_cons, Nat.mul_comm acc]
    rfl

theorem decimalChars_isDigit {n : Nat} {c : Char} (h : c ∈ decimalChars n) : c.isDigit = true :=
  Nat.isDigit_of_mem_toDigits (by decide) (by decide) h

theorem decimalChars_ne_nil (n : Nat) : decimalChars n ≠ [] := Nat.toDigits_ne_nil

/-- A decimal number is read back: its second character is no `x`. -/
theorem parseNumber_decimalChars (n : Nat) : parseNumber (decimalChars n) = some n := by
  have hdigits : ∀ c ∈ decimalChars n, c.isDigit = true := fun c => decimalChars_isDigit
  have hvalue : Nat.ofDigitChars 10 (decimalChars n) 0 = n := Nat.ofDigitChars_ten_toDigits
  have hne := decimalChars_ne_nil n
  generalize decimalChars n = cs at hdigits hvalue hne
  unfold parseNumber
  split
  · exact absurd (hdigits 'x' (by simp)) (by decide)
  · rw [parseDigits_of_isDigit hdigits, hvalue]
  · exact absurd rfl hne

/-! ## Blanks and separators -/

/-- A character of a name or a number: no blank, no separator, no start of a comment. -/
abbrev IsText (c : Char) : Prop := isBlank c = false ∧ c ≠ ',' ∧ c ≠ ';'

theorem isText_of_toNat {c : Char} (hlow : 48 ≤ c.toNat) (hne : c.toNat ≠ 59) : IsText c := by
  have hother : ∀ d : Char, d.toNat < 48 ∨ d.toNat = 59 → c ≠ d := by
    rintro d hd rfl
    omega
  refine ⟨?_, hother ',' (by decide), hother ';' (by decide)⟩
  simp [isBlank, hother ' ' (by decide), hother '\t' (by decide)]

theorem isText_of_isDigit {c : Char} (h : c.isDigit = true) : IsText c := by
  have hbounds := isDigit_bounds h
  exact isText_of_toNat hbounds.1 (by omega)

/-- The names of R42 are capital letters. -/
theorem mnemonicChars_bounds (i : Instr) : ∀ c ∈ mnemonicChars i, 65 ≤ c.toNat := by
  cases i <;> simp [mnemonicChars]

theorem isText_of_mem_mnemonicChars {i : Instr} {c : Char} (h : c ∈ mnemonicChars i) : IsText c := by
  have hbound := mnemonicChars_bounds i c h
  exact isText_of_toNat (by omega) (by omega)

theorem mnemonicChars_ne_nil (i : Instr) : mnemonicChars i ≠ [] := by
  cases i <;> exact List.cons_ne_nil _ _

theorem dropWhile_isBlank {c : Char} (h : isBlank c = false) (cs : List Char) :
    (c :: cs).dropWhile isBlank = c :: cs :=
  List.dropWhile_cons_of_neg (by simp [h])

/-- A text that begins and ends with a character that is no blank has none to lose. -/
theorem trimBlanks_of_ends {c d : Char} {cs ds : List Char} (hends : c :: cs = ds ++ [d]) (hc : isBlank c = false)
    (hd : isBlank d = false) : trimBlanks (c :: cs) = c :: cs := by
  rw [trimBlanks, dropWhile_isBlank hc, hends, List.reverse_append, List.reverse_singleton, List.singleton_append,
    dropWhile_isBlank hd, List.reverse_cons, List.reverse_reverse]

theorem trimBlanks_of_isText {cs : List Char} (h : ∀ c ∈ cs, IsText c) (hne : cs ≠ []) : trimBlanks cs = cs := by
  obtain ⟨c, rest, rfl⟩ := List.exists_cons_of_ne_nil hne
  have hlast := List.dropLast_append_getLast hne
  exact trimBlanks_of_ends hlast.symm (h c List.mem_cons_self).1 (h _ (List.getLast_mem hne)).1

theorem trimBlanks_space (cs : List Char) : trimBlanks (' ' :: cs) = trimBlanks cs := rfl

theorem splitAtChar_ne_nil (sep : Char) (cs : List Char) : splitAtChar sep cs ≠ [] := by
  cases cs with
  | nil => exact List.cons_ne_nil _ _
  | cons c cs =>
    rw [splitAtChar]
    split
    · exact List.cons_ne_nil _ _
    · split <;> exact List.cons_ne_nil _ _

theorem splitAtChar_cons_sep (sep : Char) (cs : List Char) :
    splitAtChar sep (sep :: cs) = [] :: splitAtChar sep cs := by
  obtain ⟨part, parts, hparts⟩ := List.exists_cons_of_ne_nil (splitAtChar_ne_nil sep cs)
  rw [splitAtChar, hparts]
  exact if_pos rfl

theorem splitAtChar_cons_of_ne {sep c : Char} (hc : c ≠ sep) {cs part : List Char} {parts : List (List Char)}
    (h : splitAtChar sep cs = part :: parts) : splitAtChar sep (c :: cs) = (c :: part) :: parts := by
  rw [splitAtChar, h]
  exact if_neg hc

theorem splitAtChar_append {sep : Char} {p cs part : List Char} {parts : List (List Char)} (hp : sep ∉ p)
    (h : splitAtChar sep cs = part :: parts) : splitAtChar sep (p ++ cs) = (p ++ part) :: parts := by
  induction p with
  | nil => exact h
  | cons c p ih =>
    rw [List.mem_cons, not_or] at hp
    exact splitAtChar_cons_of_ne (Ne.symm hp.1) (ih hp.2)

/-! ## The operands -/

/-- The operands of a command, in the order of R43. -/
def operands (i : Instr) : List Nat := [i.dst, i.src1] ++ i.src2?.toList

/-- The written operands: a blank before each number, a comma between two. -/
def operandChars : List Nat → List Char
  | [] => []
  | [n] => ' ' :: decimalChars n
  | n :: m :: ns => ' ' :: decimalChars n ++ ',' :: operandChars (m :: ns)

theorem printCommand_eq (i : Instr) : printCommand i = mnemonicChars i ++ operandChars (operands i) := by
  rw [printCommand, operands]
  cases i.src2? <;> simp [operandChars]

theorem comma_not_mem_number (n : Nat) : ',' ∉ ' ' :: decimalChars n := by
  intro h
  rcases List.mem_cons.1 h with h | h
  · exact absurd h (by decide)
  · exact (isText_of_isDigit (decimalChars_isDigit h)).2.1 rfl

theorem splitAtChar_operandChars {ns : List Nat} (hne : ns ≠ []) :
    splitAtChar ',' (operandChars ns) = ns.map fun n => ' ' :: decimalChars n := by
  induction ns with
  | nil => exact absurd rfl hne
  | cons n ns ih =>
    cases ns with
    | nil =>
      have h := splitAtChar_append (sep := ',') (cs := []) (comma_not_mem_number n) rfl
      rwa [List.append_nil] at h
    | cons m ns =>
      have h := splitAtChar_append (comma_not_mem_number n) (splitAtChar_cons_sep ',' (operandChars (m :: ns)))
      rwa [List.append_nil, ih (List.cons_ne_nil _ _)] at h

theorem parseNumber_operand (n : Nat) : parseNumber (trimBlanks (' ' :: decimalChars n)) = some n := by
  rw [trimBlanks_space, trimBlanks_of_isText (fun c hc => isText_of_isDigit (decimalChars_isDigit hc))
    (decimalChars_ne_nil n), parseNumber_decimalChars]

theorem mapM_map_eq_some {α β : Type} {p : β → Option α} {g : α → β} (h : ∀ x, p (g x) = some x) (xs : List α) :
    (xs.map g).mapM p = some xs := by
  induction xs with
  | nil => rfl
  | cons x xs ih => simp [List.mapM_cons, h, ih]

theorem parse_operandChars {ns : List Nat} (hne : ns ≠ []) :
    (splitAtChar ',' (operandChars ns)).mapM (fun part => parseNumber (trimBlanks part)) = some ns := by
  rw [splitAtChar_operandChars hne]
  exact mapM_map_eq_some (p := fun part => parseNumber (trimBlanks part)) parseNumber_operand ns

/-! ## The line -/

theorem number_ne_semicolon {n : Nat} {c : Char} (h : c ∈ ' ' :: decimalChars n) : c ≠ ';' := by
  rcases List.mem_cons.1 h with rfl | h
  · decide
  · exact (isText_of_isDigit (decimalChars_isDigit h)).2.2

theorem operandChars_ne_semicolon {ns : List Nat} {c : Char} (h : c ∈ operandChars ns) : c ≠ ';' := by
  induction ns using operandChars.induct with
  | case1 => cases h
  | case2 n => exact number_ne_semicolon h
  | case3 n m ns ih =>
    rcases List.mem_append.1 h with h | h
    · exact number_ne_semicolon h
    · rcases List.mem_cons.1 h with rfl | h
      · decide
      · exact ih h

theorem operandChars_last {ns : List Nat} (hne : ns ≠ []) :
    ∃ ds d, operandChars ns = ds ++ [d] ∧ isBlank d = false := by
  induction ns using operandChars.induct with
  | case1 => exact absurd rfl hne
  | case2 n =>
    have hdigits := decimalChars_ne_nil n
    refine ⟨' ' :: (decimalChars n).dropLast, (decimalChars n).getLast hdigits, ?_,
      (isText_of_isDigit (decimalChars_isDigit (List.getLast_mem hdigits))).1⟩
    rw [List.cons_append, List.dropLast_append_getLast hdigits]
    rfl
  | case3 n m ns ih =>
    obtain ⟨ds, d, hds, hd⟩ := ih (List.cons_ne_nil _ _)
    exact ⟨' ' :: decimalChars n ++ ',' :: ds, d, by rw [operandChars, hds]; simp, hd⟩

theorem operandChars_head {ns : List Nat} (hne : ns ≠ []) : ∃ cs, operandChars ns = ' ' :: cs := by
  match ns, hne with
  | [n], _ => exact ⟨_, rfl⟩
  | n :: m :: ns, _ => exact ⟨_, rfl⟩

theorem operands_ne_nil (i : Instr) : operands i ≠ [] := List.cons_ne_nil _ _

theorem commandOf_operands (i : Instr) : commandOf (mnemonicChars i) (operands i) = some i := by
  cases i <;> rfl

theorem takeWhile_printCommand (i : Instr) : (printCommand i).takeWhile (· ≠ ';') = printCommand i := by
  rw [List.takeWhile_eq_self_iff, printCommand_eq]
  intro c hc
  rcases List.mem_append.1 hc with hc | hc
  · exact decide_eq_true (isText_of_mem_mnemonicChars hc).2.2
  · exact decide_eq_true (operandChars_ne_semicolon hc)

theorem trimBlanks_printCommand (i : Instr) : trimBlanks (printCommand i) = printCommand i := by
  obtain ⟨c, cs, hname⟩ := List.exists_cons_of_ne_nil (mnemonicChars_ne_nil i)
  obtain ⟨ds, d, hlast, hd⟩ := operandChars_last (operands_ne_nil i)
  have hc : isBlank c = false := (isText_of_mem_mnemonicChars (i := i) (by rw [hname]; exact List.mem_cons_self)).1
  rw [printCommand_eq, hlast, hname]
  exact trimBlanks_of_ends (ds := c :: cs ++ ds) (by simp) hc hd

theorem mnemonicChars_not_isBlank (i : Instr) : ∀ c ∈ mnemonicChars i, (!isBlank c) = true := by
  intro c hc
  rw [(isText_of_mem_mnemonicChars hc).1]
  rfl

/-- The name of a printed line ends at the first blank. -/
theorem name_printCommand (i : Instr) : (printCommand i).takeWhile (fun c => !isBlank c) = mnemonicChars i := by
  obtain ⟨cs, hcs⟩ := operandChars_head (operands_ne_nil i)
  rw [printCommand_eq, List.takeWhile_append_of_pos (mnemonicChars_not_isBlank i), hcs,
    List.takeWhile_cons_of_neg (by decide), List.append_nil]

theorem rest_printCommand (i : Instr) :
    (printCommand i).dropWhile (fun c => !isBlank c) = operandChars (operands i) := by
  obtain ⟨cs, hcs⟩ := operandChars_head (operands_ne_nil i)
  rw [printCommand_eq, List.dropWhile_append_of_pos (mnemonicChars_not_isBlank i), hcs,
    List.dropWhile_cons_of_neg (by decide)]

/-- A mnemonic is no directive of R48: those begin with a point. -/
theorem mnemonicChars_ne_directive (i : Instr) (cs : List Char) : mnemonicChars i ≠ '.' :: cs := by
  intro h
  have hbound := mnemonicChars_bounds i '.' (by rw [h]; exact List.mem_cons_self)
  exact absurd hbound (by decide)

theorem parseLine_printCommand {i : Instr} (h : i.wellFormed = true) :
    parseLine (printCommand i) = some (.command i) := by
  have hne : printCommand i ≠ [] := by
    rw [printCommand_eq]
    exact List.append_ne_nil_of_left_ne_nil (mnemonicChars_ne_nil i) _
  simp only [parseLine, takeWhile_printCommand, trimBlanks_printCommand, name_printCommand, rest_printCommand,
    parse_operandChars (operands_ne_nil i), if_neg hne]
  split
  · exact absurd ‹_› (mnemonicChars_ne_directive i _)
  · exact absurd ‹_› (mnemonicChars_ne_directive i _)
  · rw [commandOf_operands]
    exact if_pos h

theorem mnemonicChars_eq (i : Instr) : mnemonicChars i = i.mnemonic.toList := by
  cases i <;> simp [mnemonicChars, Instr.mnemonic]

/-- Settles O6: the mnemonic letter by letter, and the line part by part. -/
theorem printedCommandsAreReadBack : Obligations.PrintedCommandsAreReadBack :=
  ⟨mnemonicChars_eq, fun _ => parseLine_printCommand⟩

end Sys2Proof.Machine
end

section
/-! PROOFS. The operations of an element type as those of a commutative ring, and what the transform keeps
(spec/47_ntt.md R98 to R102): the number of elements, and that each of them is an element. -/

namespace Sys2Proof.Machine

/-- The operations of an element type are those of a commutative ring: `f` carries them there, faithfully on the
elements that `ok` holds of. -/
structure FieldOps.RepresentsRing {α R : Type} [CommRing R] (T : FieldOps α) (ok : α → Prop) (f : α → R) : Prop
    extends T.Represents ok f where
  add_ok : ∀ a b, ok a → ok b → ok (T.add a b)
  sub_ok : ∀ a b, ok a → ok b → ok (T.sub a b)
  map_add : ∀ a b, ok a → ok b → f (T.add a b) = f a + f b
  map_sub : ∀ a b, ok a → ok b → f (T.sub a b) = f a - f b
  injOn : Set.InjOn f {a | ok a}

theorem baseOps_representsRing : baseOps.RepresentsRing (fun _ => True) Residue.toField where
  toRepresents := baseOps_represents
  add_ok _ _ _ _ := trivial
  sub_ok _ _ _ _ := trivial
  map_add a b _ _ := toField_badd a b
  map_sub a b _ _ := toField_bsub a b
  injOn _ _ _ _ := Residue.toField_injective

theorem extOps_representsRing {c : Config} (hc : c.Admissible) :
    (extOps c).RepresentsRing (fun a => a.length = c.degree) (toExtension c) where
  toRepresents := extOps_represents c hc.degree_pos
  add_ok _ _ ha hb := (eadd_spec (ha.trans hb.symm)).1.trans ha
  sub_ok _ _ ha hb := (esub_spec (ha.trans hb.symm)).1.trans ha
  map_add a b ha hb := by
    show AdjoinRoot.mk _ (polyOf (eadd a b)) = _
    rw [(eadd_spec (ha.trans hb.symm)).2, map_add]
    rfl
  map_sub a b ha hb := by
    show AdjoinRoot.mk _ (polyOf (esub a b)) = _
    rw [(esub_spec (ha.trans hb.symm)).2, map_sub]
    rfl
  injOn := mk_polyOf_injOn c

/-- A sequence of `n` elements. -/
abbrev SequenceOf {α : Type} (ok : α → Prop) (n : Nat) (xs : List α) : Prop := xs.length = n ∧ ∀ x ∈ xs, ok x

theorem SequenceOf.set {α : Type} {ok : α → Prop} {n : Nat} {xs : List α} (h : SequenceOf ok n xs) (i : Nat) {x : α}
    (hx : ok x) : SequenceOf ok n (xs.set i x) := by
  refine ⟨by rw [List.length_set, h.1], fun y hy => ?_⟩
  rcases List.mem_or_eq_of_mem_set hy with hy | rfl
  · exact h.2 y hy
  · exact hx

theorem swapAt_sequenceOf {α : Type} {ok : α → Prop} {n : Nat} {xs : List α} (h : SequenceOf ok n xs) (i j : Nat) :
    SequenceOf ok n (swapAt xs i j) := by
  unfold swapAt
  split
  · rename_i x y hx hy
    exact (h.set i (h.2 y (List.mem_of_getElem? hy))).set j (h.2 x (List.mem_of_getElem? hx))
  · exact h

theorem bitReverse_sequenceOf {α : Type} {ok : α → Prop} {n : Nat} {xs : List α} (h : SequenceOf ok n xs) :
    SequenceOf ok n (bitReverse xs) := by
  unfold bitReverse
  refine List.foldlRecOn (motive := fun js : Nat × List α => SequenceOf ok n js.2) _ _ h fun js hjs i _ => ?_
  dsimp only
  split
  · exact swapAt_sequenceOf hjs _ _
  · exact hjs

section

variable {α R : Type} [CommRing R] {T : FieldOps α} {ok : α → Prop} {f : α → R} (hT : T.RepresentsRing ok f)
include hT

theorem pow_ok {x : α} (hx : ok x) (n : Nat) : ok (pow T x n) := (pow_represents hT.toRepresents hx n).1

theorem map_pow_represents {x : α} (hx : ok x) (n : Nat) : f (pow T x n) = f x ^ n :=
  (pow_represents hT.toRepresents hx n).2

theorem butterfly_sequenceOf {n : Nat} {sw : List α × α} (h : SequenceOf ok n sw.1 ∧ ok sw.2) {step : α}
    (hstep : ok step) (half base i : Nat) :
    SequenceOf ok n (butterfly T step half base sw i).1 ∧ ok (butterfly T step half base sw i).2 := by
  obtain ⟨hseq, hw⟩ := h
  have hadvance : ok (advance T sw.2 step) := hT.mul_ok _ _ hw hstep
  unfold butterfly
  split
  · rename_i u v hu hv
    have hu := hseq.2 u (List.mem_of_getElem? hu)
    have ht : ok (twiddle T v sw.2) := hT.mul_ok _ _ (hseq.2 v (List.mem_of_getElem? hv)) hw
    exact ⟨(hseq.set _ (hT.add_ok _ _ hu ht)).set _ (hT.sub_ok _ _ hu ht), hadvance⟩
  · exact ⟨hseq, hadvance⟩

theorem block_sequenceOf {n : Nat} {xs : List α} (h : SequenceOf ok n xs) {step : α} (hstep : ok step)
    (half base : Nat) : SequenceOf ok n (block T step half xs base) := by
  have hfold : ∀ offsets : List Nat, SequenceOf ok n (offsets.foldl (butterfly T step half base) (xs, startBlock T)).1 ∧
      ok (offsets.foldl (butterfly T step half base) (xs, startBlock T)).2 := fun offsets =>
    List.foldlRecOn (motive := fun sw : List α × α => SequenceOf ok n sw.1 ∧ ok sw.2) offsets _ ⟨h, hT.one_ok⟩
      fun _ hsw i _ => butterfly_sequenceOf hT hsw hstep half base i
  exact (hfold _).1

theorem stage_sequenceOf {n : Nat} {xs : List α} (h : SequenceOf ok n xs) {root : α} (hroot : ok root) (m len : Nat) :
    SequenceOf ok n (stage T root m xs len) :=
  List.foldlRecOn (motive := SequenceOf ok n) _ _ h fun _ hseq _ _ =>
    block_sequenceOf hT hseq (pow_ok hT hroot _) _ _

/-- The transform of `n` elements is `n` elements (R102). -/
theorem transform_sequenceOf {n : Nat} {xs : List α} (h : SequenceOf ok n xs) {root : α} (hroot : ok root) :
    SequenceOf ok n (transform T root xs) :=
  List.foldlRecOn (motive := SequenceOf ok n) _ _ (bitReverse_sequenceOf h) fun _ hseq _ _ =>
    stage_sequenceOf hT hseq hroot _ _

end

end Sys2Proof.Machine
end

section
/-! PROOFS. How a command ends (spec/30_encoding.md R49, spec/60_exceptions.md R111 to R118, R123): one case analysis
over all 19 commands, from which their codes, results, frame and refusals follow. -/

namespace Sys2Proof.Machine

open Sys2Proof.Claims

/-- The result words of a command, staged for its `DST` (R49 steps 3 to 5). -/
def commandWords (s : State) : Instr → Except Stop (List Word)
  | .badd d a b => s.binaryWords baseFormat (fun x y => .ok (badd x y)) d a b
  | .bsub d a b => s.binaryWords baseFormat (fun x y => .ok (bsub x y)) d a b
  | .bneg d a => s.unaryWords baseFormat (fun x => .ok (bneg x)) d a
  | .bmul d a b => s.binaryWords baseFormat (fun x y => .ok (bmul x y)) d a b
  | .bpow d a e => s.powerWords baseFormat (fun x n => .ok (bpow x n)) d a e
  | .binv d a => s.unaryWords baseFormat binv d a
  | .bdiv d a b => s.binaryWords baseFormat bdiv d a b
  | .broot d a => s.rootWords (orderedRoot s.hw) d a
  | .eadd d a b => s.binaryWords (extFormat s.hw) (fun x y => .ok (eadd x y)) d a b
  | .esub d a b => s.binaryWords (extFormat s.hw) (fun x y => .ok (esub x y)) d a b
  | .eneg d a => s.unaryWords (extFormat s.hw) (fun x => .ok (eneg x)) d a
  | .emul d a b => s.binaryWords (extFormat s.hw) (fun x y => .ok (emul s.hw x y)) d a b
  | .epow d a e => s.powerWords (extFormat s.hw) (fun x n => .ok (epow s.hw x n)) d a e
  | .einv d a => s.unaryWords (extFormat s.hw) (einv s.hw) d a
  | .ediv d a b => s.binaryWords (extFormat s.hw) (ediv s.hw) d a b
  | .ntt d a => s.transformWords baseFormat (.ok ()) (orderedRoot s.hw) (transform baseOps) d a
  | .nttr d a r =>
    s.transformWords baseFormat (s.checkRange r 1) (fun _ => s.fetchElement baseFormat r) (transform baseOps) d a
  | .entt d a =>
    s.transformWords (extFormat s.hw) (.ok ()) (fun n => (orderedRoot s.hw n).map (lift s.hw))
      (transform (extOps s.hw)) d a
  | .enttr d a r =>
    s.transformWords (extFormat s.hw) (s.checkRange r s.hw.degree) (fun _ => s.fetchElement (extFormat s.hw) r)
      (transform (extOps s.hw)) d a

/-- The meaning of a command is the end of it on its result words (R49, R50). -/
theorem exec_eq_finish_commandWords (i : Instr) (s : State) : exec i s = s.finish i.dst (commandWords s i) := by
  cases i <;> rfl

/-- All that the result words of a command can be (R49): as many canonical words as it writes, one of its codes, or no
meaning because a word it reads as a residue is none. -/
inductive CommandEnd (i : Instr) (s : State) : Except Stop (List Word) → Prop
  | commits (ws : List Word) (hcanonical : s.OperandsCanonical i)
      (hrange : i.dst + writtenCount s i ≤ s.hw.memWords)
      (hlen : s.hw.Admissible → ws.length = writtenCount s i) (hws : ∀ w ∈ ws, Word.Canonical w) :
      CommandEnd i s (.ok ws)
  | badAddress (hrange : ¬ s.InRange (wordRanges s i) ∨
      ∃ a, lengthWord? i = some a ∧ ¬ s.InRange [(i.dst, writtenCount s i)]) :
      CommandEnd i s (.error (.status .badAddress))
  | invalidLength (a : Nat) (hlength : lengthWord? i = some a) (hlen : ∀ k, (s.mem.read a).toNat ≠ 2 ^ k) :
      CommandEnd i s (.error (.status .invalidLength))
  | rootError (hcanonical : s.hw.Admissible → s.OperandsCanonical i ∧ i.mnemonic = "BROOT") :
      CommandEnd i s (.error (.status .orderedRootError))
  | zeroDivisor (hcanonical : s.OperandsCanonical i) (hinverting : i.mnemonic ∈ inverting) :
      CommandEnd i s (.error (.status .zeroDivisor))
  | refused (a : Nat) (hread : a ∈ residueReads s i) (hbad : ¬ Word.Canonical (s.mem.read a)) :
      CommandEnd i s (.error (.refuse (.nonCanonicalOperand a)))

/-! ## What a fetch tells of the words it reads -/

theorem canonical_of_readWords {s : State} {a n : Nat} {rs : List Residue}
    (h : s.mem.readWords a n = rs.map Residue.toWord) {b : Nat} (hb : b ∈ addresses a n) :
    Word.Canonical (s.mem.read b) := by
  obtain ⟨hlow, hhigh⟩ := List.mem_range'_1.1 hb
  have hi : b - a < (s.mem.readWords a n).length := by rw [Memory.readWords_length]; omega
  have hmem : s.mem.read b ∈ rs.map Residue.toWord := by
    rw [← h, ← show a + (b - a) = b by omega, ← Memory.readWords_getElem _ _ _ _ hi]
    exact List.getElem_mem hi
  obtain ⟨r, -, hr⟩ := List.mem_map.1 hmem
  rw [← hr]
  exact Residue.toWord_canonical r

theorem ElementFormat.flatten_eq_map {α : Type} (F : ElementFormat α) (xs : List α) :
    F.flatten xs = (xs.flatMap F.residues).map Residue.toWord := List.map_flatMap.symm

theorem State.fetchElement_outcome {α : Type} (s : State) {F : ElementFormat α} (hF : F.Lawful) (a : Nat) :
    (∃ x, F.Fits x ∧ s.fetchElement F a = .ok x ∧ ∀ b ∈ addresses a F.width, Word.Canonical (s.mem.read b)) ∨
    (∃ b ∈ addresses a F.width, ¬ Word.Canonical (s.mem.read b) ∧
      s.fetchElement F a = .error (.refuse (.nonCanonicalOperand b))) := by
  rcases s.fetchElement_cases hF a with ⟨x, hx, hwords, hfetch⟩ | ⟨b, hlow, hhigh, hbad, hfetch⟩
  · exact .inl ⟨x, hx, hfetch, fun b hb => canonical_of_readWords hwords hb⟩
  · exact .inr ⟨b, List.mem_range'_1.2 ⟨hlow, hhigh⟩, hbad, hfetch⟩

theorem State.fetchSeq_outcome {α : Type} (s : State) {F : ElementFormat α} (hF : F.Lawful) (a n : Nat) :
    (∃ xs, SequenceOf F.Fits n xs ∧ s.fetchSeq F a n = .ok xs ∧
      ∀ b ∈ addresses a (n * F.width), Word.Canonical (s.mem.read b)) ∨
    (∃ b ∈ addresses a (n * F.width), ¬ Word.Canonical (s.mem.read b) ∧
      s.fetchSeq F a n = .error (.refuse (.nonCanonicalOperand b))) := by
  rcases s.fetchSeq_cases hF a n with ⟨xs, hlen, hxs, hwords, hfetch⟩ | ⟨b, hlow, hhigh, hbad, hfetch⟩
  · rw [ElementFormat.flatten_eq_map] at hwords
    exact .inl ⟨xs, ⟨hlen, hxs⟩, hfetch, fun b hb => canonical_of_readWords hwords hb⟩
  · exact .inr ⟨b, List.mem_range'_1.2 ⟨hlow, hhigh⟩, hbad, hfetch⟩

/-- The words of an element are canonical, and as many as its format is wide (R29). -/
theorem ElementFormat.words_canonical {α : Type} (F : ElementFormat α) (x : α) :
    ∀ w ∈ F.words x, Word.Canonical w := by
  intro w hw
  obtain ⟨r, -, rfl⟩ := List.mem_map.1 hw
  exact Residue.toWord_canonical r

theorem ElementFormat.Fits.words_length {α : Type} {F : ElementFormat α} {x : α} (h : F.Fits x) :
    (F.words x).length = F.width := by
  rw [ElementFormat.words, List.length_map, h.1]

theorem ElementFormat.flatten_canonical {α : Type} (F : ElementFormat α) (xs : List α) :
    ∀ w ∈ F.flatten xs, Word.Canonical w := by
  intro w hw
  obtain ⟨x, -, hx⟩ := List.mem_flatMap.1 hw
  exact F.words_canonical x w hx

theorem SequenceOf.flatten_length {α : Type} {F : ElementFormat α} {n : Nat} {xs : List α}
    (h : SequenceOf F.Fits n xs) : (F.flatten xs).length = n * F.width := by
  rw [ElementFormat.flatten, List.length_flatMap, List.map_congr_left (g := fun _ => F.width)
    fun x hx => (h.2 x hx).words_length, List.map_const', List.sum_replicate, h.1, smul_eq_mul]

/-! ## The commands of one result element -/

/-- What the operation of the command `i` makes of operands that are elements: an element when the constants are
admissible, or a code the command has. -/
inductive OperationEnd {α : Type} (i : Instr) (s : State) (F : ElementFormat α) : Except Stop α → Prop
  | element (r : α) (hr : s.hw.Admissible → F.Fits r) : OperationEnd i s F (.ok r)
  | rootError (hi : i.mnemonic = "BROOT") : OperationEnd i s F (.error (.status .orderedRootError))
  | zeroDivisor (hi : i.mnemonic ∈ inverting) : OperationEnd i s F (.error (.status .zeroDivisor))

section

variable {α : Type} {i : Instr} {s : State} {F : ElementFormat α}

theorem commandEnd_of_operationEnd {e : Except Stop α} (h : OperationEnd i s F e) (hcanonical : s.OperandsCanonical i)
    (hcount : writtenCount s i = F.width) (hd : i.dst + F.width ≤ s.hw.memWords) :
    CommandEnd i s (e.map F.words) := by
  cases h with
  | element r hr =>
    exact .commits _ hcanonical (hcount ▸ hd) (fun hc => (hr hc).words_length.trans hcount.symm) (F.words_canonical r)
  | rootError hi => exact .rootError fun _ => ⟨hcanonical, hi⟩
  | zeroDivisor hi => exact .zeroDivisor hcanonical hi

variable (hF : F.Lawful) (hcount : writtenCount s i = F.width)
include hF hcount

theorem binary_ends {a b : Nat} {f : α → α → Except Stop α}
    (hranges : wordRanges s i = [(i.dst, F.width), (a, F.width), (b, F.width)])
    (hreads : residueReads s i = addresses a F.width ++ addresses b F.width)
    (hf : ∀ x y, F.Fits x → F.Fits y → OperationEnd i s F (f x y)) (hin : s.InRange (wordRanges s i)) :
    CommandEnd i s (s.binaryWords F f i.dst a b) := by
  rw [hranges, State.inRange_cons, State.inRange_cons, State.inRange_singleton] at hin
  obtain ⟨hd, ha, hb⟩ := hin
  rcases s.fetchElement_outcome hF a with ⟨x, hx, hxfetch, hxwords⟩ | ⟨c, hc, hbad, hfetch⟩
  · rcases s.fetchElement_outcome hF b with ⟨y, hy, hyfetch, hywords⟩ | ⟨c, hc, hbad, hfetch⟩
    · rw [State.binaryWords_eq f hd ha hb hxfetch hyfetch]
      refine commandEnd_of_operationEnd (hf x y hx hy) ?_ hcount hd
      rw [State.OperandsCanonical, hreads, List.forall_mem_append]
      exact ⟨hxwords, hywords⟩
    · simp only [State.binaryWords, State.checkRange_ok hd, State.checkRange_ok ha, State.checkRange_ok hb, hxfetch,
        hfetch, Except.ok_bind, Except.error_bind]
      exact .refused c (hreads ▸ List.mem_append_right _ hc) hbad
  · simp only [State.binaryWords, State.checkRange_ok hd, State.checkRange_ok ha, State.checkRange_ok hb, hfetch,
      Except.ok_bind, Except.error_bind]
    exact .refused c (hreads ▸ List.mem_append_left _ hc) hbad

theorem unary_ends {a : Nat} {f : α → Except Stop α} (hranges : wordRanges s i = [(i.dst, F.width), (a, F.width)])
    (hreads : residueReads s i = addresses a F.width) (hf : ∀ x, F.Fits x → OperationEnd i s F (f x))
    (hin : s.InRange (wordRanges s i)) : CommandEnd i s (s.unaryWords F f i.dst a) := by
  rw [hranges, State.inRange_cons, State.inRange_singleton] at hin
  obtain ⟨hd, ha⟩ := hin
  rcases s.fetchElement_outcome hF a with ⟨x, hx, hfetch, hwords⟩ | ⟨c, hc, hbad, hfetch⟩
  · rw [State.unaryWords_eq f hd ha hfetch]
    exact commandEnd_of_operationEnd (hf x hx) (by rwa [State.OperandsCanonical, hreads]) hcount hd
  · simp only [State.unaryWords, State.checkRange_ok hd, State.checkRange_ok ha, hfetch, Except.ok_bind,
      Except.error_bind]
    exact .refused c (hreads ▸ hc) hbad

theorem power_ends {a e : Nat} {f : α → Nat → Except Stop α}
    (hranges : wordRanges s i = [(i.dst, F.width), (a, F.width), (e, 1)])
    (hreads : residueReads s i = addresses a F.width) (hf : ∀ x n, F.Fits x → OperationEnd i s F (f x n))
    (hin : s.InRange (wordRanges s i)) : CommandEnd i s (s.powerWords F f i.dst a e) := by
  rw [hranges, State.inRange_cons, State.inRange_cons, State.inRange_singleton] at hin
  obtain ⟨hd, ha, he⟩ := hin
  rcases s.fetchElement_outcome hF a with ⟨x, hx, hfetch, hwords⟩ | ⟨c, hc, hbad, hfetch⟩
  · rw [State.powerWords_eq f hd ha he hfetch]
    exact commandEnd_of_operationEnd (hf x _ hx) (by rwa [State.OperandsCanonical, hreads]) hcount hd
  · simp only [State.powerWords, State.checkRange_ok hd, State.checkRange_ok ha, State.checkRange_ok he, hfetch,
      Except.ok_bind, Except.error_bind]
    exact .refused c (hreads ▸ hc) hbad

end

/-! ## The operations -/

theorem operationEnd_residue {i : Instr} {s : State} (r : Residue) : OperationEnd i s baseFormat (.ok r) :=
  .element r fun _ => baseFormat_fits r

theorem operationEnd_element {i : Instr} {s : State} {r : List Residue}
    (hr : s.hw.Admissible → r.length = s.hw.degree) : OperationEnd i s (extFormat s.hw) (.ok r) :=
  .element r fun hc => extFormat_fits (hr hc)

theorem binv_ends {i : Instr} {s : State} (hi : i.mnemonic ∈ inverting) (x : Residue) :
    OperationEnd i s baseFormat (binv x) := by
  by_cases hx : x = Residue.zero
  · rw [hx, binv_zero]
    exact .zeroDivisor hi
  · rw [binv_of_ne_zero hx]
    exact operationEnd_residue _

theorem bdiv_ends {i : Instr} {s : State} (hi : i.mnemonic ∈ inverting) (x y : Residue) :
    OperationEnd i s baseFormat (bdiv x y) := by
  by_cases hy : y = Residue.zero
  · rw [hy, bdiv_zero]
    exact .zeroDivisor hi
  · rw [bdiv_of_ne_zero x hy]
    exact operationEnd_residue _

theorem einv_ends {i : Instr} {s : State} (hi : i.mnemonic ∈ inverting) {x : List Residue}
    (hx : x.length = s.hw.degree) : OperationEnd i s (extFormat s.hw) (einv s.hw x) := by
  by_cases hzero : x = extZero s.hw
  · rw [hzero, einv_extZero]
    exact .zeroDivisor hi
  · rw [einv_of_ne_zero hx hzero]
    exact operationEnd_element fun hc => epow_length hc hx _

theorem ediv_ends {i : Instr} {s : State} (hi : i.mnemonic ∈ inverting) {x y : List Residue}
    (hx : x.length = s.hw.degree) (hy : y.length = s.hw.degree) :
    OperationEnd i s (extFormat s.hw) (ediv s.hw x y) := by
  by_cases hzero : y = extZero s.hw
  · rw [hzero, ediv_extZero]
    exact .zeroDivisor hi
  · rw [ediv_of_ne_zero x hy hzero]
    exact operationEnd_element fun hc => emul_length hc hx (epow_length hc hy _)

theorem root_ends {d a : Nat} {s : State} (hin : s.InRange [(d, 1), (a, 1)]) :
    CommandEnd (.broot d a) s (s.rootWords (orderedRoot s.hw) d a) := by
  rw [State.rootWords_inRange _ hin]
  have hd : d + 1 ≤ s.hw.memWords := (State.inRange_cons.1 hin).1
  have hcanonical : s.OperandsCanonical (.broot d a) := fun _ h => absurd h List.not_mem_nil
  refine commandEnd_of_operationEnd (F := baseFormat) ?_ hcanonical rfl hd
  unfold orderedRoot
  split
  · exact .rootError rfl
  · exact operationEnd_residue _

/-! ## The transforms -/

/-- What the root of a transform can be, once the checks of R97 have passed: an element, whose words are `rootReads`; one
of those words that is no residue; or, with constants that are not admissible, a length above `2^32`. -/
inductive RootEnd {α : Type} (s : State) (F : ElementFormat α) (rootReads : List Nat) : Except Stop α → Prop
  | element (r : α) (hr : s.hw.Admissible → F.Fits r) (hcanonical : ∀ b ∈ rootReads, Word.Canonical (s.mem.read b)) :
      RootEnd s F rootReads (.ok r)
  | refused (b : Nat) (hb : b ∈ rootReads) (hbad : ¬ Word.Canonical (s.mem.read b)) :
      RootEnd s F rootReads (.error (.refuse (.nonCanonicalOperand b)))
  | tooLong (hc : ¬ s.hw.Admissible) : RootEnd s F rootReads (.error (.status .orderedRootError))

theorem suppliedRoot_ends {α : Type} (s : State) {F : ElementFormat α} (hF : F.Lawful) (r : Nat) :
    RootEnd s F (addresses r F.width) (s.fetchElement F r) := by
  rcases s.fetchElement_outcome hF r with ⟨x, hx, hfetch, hwords⟩ | ⟨b, hb, hbad, hfetch⟩ <;> rw [hfetch]
  · exact .element x (fun _ => hx) hwords
  · exact .refused b hb hbad

section

variable {α : Type} {i : Instr} {s : State} {F : ElementFormat α} {root : Nat → Except Stop α}
  {f : α → List α → List α} {a k : Nat}

/-- Once the checks of R97 have passed, a transform ends with its root, its sequence or its result. -/
theorem transform_ends (hF : F.Lawful) {rootRange : Except Stop Unit} (rootReads : List Nat)
    (hlen : (s.mem.read a).toNat = 2 ^ k) (hcount : writtenCount s i = 2 ^ k * F.width)
    (hreads : residueReads s i = rootReads ++ addresses i.dst (2 ^ k * F.width))
    (ha : a + 1 ≤ s.hw.memWords) (hr : rootRange = .ok ()) (hd : i.dst + 2 ^ k * F.width ≤ s.hw.memWords)
    (hroot : RootEnd s F rootReads (root (2 ^ k)))
    (hf : s.hw.Admissible → ∀ r xs, F.Fits r → SequenceOf F.Fits (2 ^ k) xs → SequenceOf F.Fits (2 ^ k) (f r xs)) :
    CommandEnd i s (s.transformWords F rootRange root f i.dst a) := by
  generalize hrootEnd : root (2 ^ k) = e at hroot
  cases hroot with
  | element r hfits hcanonical =>
    rcases s.fetchSeq_outcome hF i.dst (2 ^ k) with ⟨xs, hxs, hfetch, hwords⟩ | ⟨b, hb, hbad, hfetch⟩
    · rw [State.transformWords_two_pow f ha hr hlen hd hrootEnd hfetch]
      refine .commits _ ?_ (hcount ▸ hd) (fun hc => ?_) (F.flatten_canonical _)
      · rw [State.OperandsCanonical, hreads, List.forall_mem_append]
        exact ⟨hcanonical, hwords⟩
      · rw [(hf hc r xs (hfits hc) hxs).flatten_length, hcount]
    · have hraw : s.fetchRaw a = 2 ^ k := hlen
      simp only [State.transformWords, State.checkRange_ok ha, hr, hraw, checkLength_ok (ispow2_two_pow k),
        State.checkRange_ok hd, hrootEnd, hfetch, Except.ok_bind, Except.error_bind]
      exact .refused b (hreads ▸ List.mem_append_right _ hb) hbad
  | refused b hb hbad =>
    rw [State.transformWords_root_fails f ha hr hlen hd hrootEnd]
    exact .refused b (hreads ▸ List.mem_append_left _ hb) hbad
  | tooLong hc =>
    rw [State.transformWords_root_fails f ha hr hlen hd hrootEnd]
    exact .rootError fun h => absurd h hc

end

/-- With admissible constants a sequence inside `MEM` is short enough for a derived root: `MEM` has at most `2^32` words
(R8, R113). -/
theorem orderedRoot_of_sequence_inRange {s : State} {d k width : Nat} (hwidth : s.hw.Admissible → 1 ≤ width)
    (hd : d + 2 ^ k * width ≤ s.hw.memWords) :
    (∃ r, orderedRoot s.hw (2 ^ k) = .ok r) ∨
    (¬ s.hw.Admissible ∧ orderedRoot s.hw (2 ^ k) = .error (.status .orderedRootError)) := by
  rcases Nat.lt_or_ge 32 k with hk | hk
  · refine .inr ⟨fun hc => ?_, orderedRoot_two_pow_fails s.hw hk⟩
    have hlong : 2 ^ 32 < 2 ^ k := Nat.pow_lt_pow_right (by decide) hk
    have hwords : 2 ^ k ≤ 2 ^ k * width := Nat.le_mul_of_pos_right _ (hwidth hc)
    have hmem := hc.memWords_le
    omega
  · exact .inl ⟨_, orderedRoot_two_pow s.hw hk⟩

theorem transform_base_sequenceOf (n : Nat) (root : Residue) {xs : List Residue}
    (h : SequenceOf baseFormat.Fits n xs) : SequenceOf baseFormat.Fits n (transform baseOps root xs) :=
  ⟨(transform_sequenceOf baseOps_representsRing ⟨h.1, fun _ _ => trivial⟩ trivial).1, fun x _ => baseFormat_fits x⟩

theorem transform_ext_sequenceOf {c : Config} (hc : c.Admissible) {n : Nat} {root : List Residue}
    {xs : List (List Residue)} (hroot : (extFormat c).Fits root) (h : SequenceOf (extFormat c).Fits n xs) :
    SequenceOf (extFormat c).Fits n (transform (extOps c) root xs) := by
  have hlengths := transform_sequenceOf (extOps_representsRing hc) ⟨h.1, fun x hx => (h.2 x hx).1⟩ hroot.1
  exact ⟨hlengths.1, fun x hx => extFormat_fits (hlengths.2 x hx)⟩

/-- The four transforms, with the checks of R97 passed: the root is derived, or it is read where the command says. -/
theorem transformCommand_ends {i : Instr} {s : State} {a k : Nat} (hlength : lengthWord? i = some a)
    (hlen : (s.mem.read a).toNat = 2 ^ k) (hin : s.InRange (wordRanges s i))
    (hseq : s.InRange [(i.dst, writtenCount s i)]) : CommandEnd i s (commandWords s i) := by
  have hraw : s.fetchRaw a = 2 ^ k := hlen
  rw [State.inRange_singleton] at hseq
  cases i with
  | ntt d b =>
    cases hlength
    have hd : d + 2 ^ k * 1 ≤ s.hw.memWords := by rw [← hraw, Nat.mul_one]; exact hseq
    rw [commandWords]
    refine transform_ends (i := .ntt d a) baseFormat_lawful [] hlen (by simp [writtenCount, hraw])
      (by simp [residueReads, hraw, Instr.dst]) (State.inRange_singleton.1 hin) rfl hd ?_
      fun _ r xs _ => transform_base_sequenceOf _ r
    rcases orderedRoot_of_sequence_inRange (fun _ => le_rfl) hd with ⟨r, hr⟩ | ⟨hc, hfails⟩
    · rw [hr]
      exact .element r (fun _ => baseFormat_fits r) (by simp)
    · rw [hfails]
      exact .tooLong hc
  | nttr d b r =>
    cases hlength
    have hd : d + 2 ^ k * 1 ≤ s.hw.memWords := by rw [← hraw, Nat.mul_one]; exact hseq
    obtain ⟨ha, hr⟩ := State.inRange_cons.1 hin
    rw [commandWords]
    refine transform_ends (i := .nttr d a r) baseFormat_lawful [r] hlen (by simp [writtenCount, hraw])
      (by simp [residueReads, hraw, Instr.dst])
      ha (State.checkRange_ok (State.inRange_singleton.1 hr)) hd (suppliedRoot_ends s baseFormat_lawful r)
      fun _ r xs _ => transform_base_sequenceOf _ r
  | entt d b =>
    cases hlength
    have hd : d + 2 ^ k * s.hw.degree ≤ s.hw.memWords := by rw [← hraw]; exact hseq
    rw [commandWords]
    refine transform_ends (i := .entt d a) (extFormat_lawful s.hw) [] hlen (by simp [writtenCount, hraw])
      (by simp [residueReads, hraw, Instr.dst]) (State.inRange_singleton.1 hin) rfl hd ?_
      fun hc r xs => transform_ext_sequenceOf hc
    rcases orderedRoot_of_sequence_inRange (fun hc => hc.degree_pos) hd with ⟨r, hr⟩ | ⟨hc, hfails⟩
    · rw [hr]
      exact .element (lift s.hw r) (fun hc => extFormat_fits (lift_length _ hc.degree_pos r)) (by simp)
    · rw [hfails]
      exact .tooLong hc
  | enttr d b r =>
    cases hlength
    have hd : d + 2 ^ k * s.hw.degree ≤ s.hw.memWords := by rw [← hraw]; exact hseq
    obtain ⟨ha, hr⟩ := State.inRange_cons.1 hin
    rw [commandWords]
    refine transform_ends (i := .enttr d a r) (extFormat_lawful s.hw) (addresses r s.hw.degree) hlen
      (by simp [writtenCount, hraw]) (by simp [residueReads, hraw, Instr.dst])
      ha (State.checkRange_ok (State.inRange_singleton.1 hr)) hd (suppliedRoot_ends s (extFormat_lawful s.hw) r)
      fun hc r xs => transform_ext_sequenceOf hc
  | _ => cases hlength

/-! ## All commands -/

theorem elementCommand_ends {i : Instr} {s : State} (hlength : lengthWord? i = none)
    (hin : s.InRange (wordRanges s i)) : CommandEnd i s (commandWords s i) := by
  have hB := baseFormat_lawful
  have hE := extFormat_lawful s.hw
  cases i with
  | badd => exact binary_ends hB rfl rfl rfl (fun _ _ _ _ => operationEnd_residue _) hin
  | bsub => exact binary_ends hB rfl rfl rfl (fun _ _ _ _ => operationEnd_residue _) hin
  | bneg => exact unary_ends hB rfl rfl rfl (fun _ _ => operationEnd_residue _) hin
  | bmul => exact binary_ends hB rfl rfl rfl (fun _ _ _ _ => operationEnd_residue _) hin
  | bpow => exact power_ends hB rfl rfl rfl (fun _ _ _ => operationEnd_residue _) hin
  | binv d a =>
    have hi : (Instr.binv d a).mnemonic ∈ inverting := show "BINV" ∈ inverting by decide
    exact unary_ends hB rfl rfl rfl (fun x _ => binv_ends hi x) hin
  | bdiv d a b =>
    have hi : (Instr.bdiv d a b).mnemonic ∈ inverting := show "BDIV" ∈ inverting by decide
    exact binary_ends hB rfl rfl rfl (fun x y _ _ => bdiv_ends hi x y) hin
  | broot => exact root_ends hin
  | eadd =>
    exact binary_ends hE rfl rfl rfl (fun _ _ hx hy => operationEnd_element fun hc =>
      (extOps_representsRing hc).add_ok _ _ hx.1 hy.1) hin
  | esub =>
    exact binary_ends hE rfl rfl rfl (fun _ _ hx hy => operationEnd_element fun hc =>
      (extOps_representsRing hc).sub_ok _ _ hx.1 hy.1) hin
  | eneg => exact unary_ends hE rfl rfl rfl (fun x hx => operationEnd_element fun _ => (eneg_spec x).1.trans hx.1) hin
  | emul =>
    exact binary_ends hE rfl rfl rfl (fun _ _ hx hy => operationEnd_element fun hc => emul_length hc hx.1 hy.1) hin
  | epow => exact power_ends hE rfl rfl rfl (fun _ n hx => operationEnd_element fun hc => epow_length hc hx.1 n) hin
  | einv d a =>
    have hi : (Instr.einv d a).mnemonic ∈ inverting := show "EINV" ∈ inverting by decide
    exact unary_ends hE rfl rfl rfl (fun _ hx => einv_ends hi hx.1) hin
  | ediv d a b =>
    have hi : (Instr.ediv d a b).mnemonic ∈ inverting := show "EDIV" ∈ inverting by decide
    exact binary_ends hE rfl rfl rfl (fun _ _ hx hy => ediv_ends hi hx.1 hy.1) hin
  | ntt | nttr | entt | enttr => cases hlength

/-- The outcomes of a command (R111). -/
def allStatuses : List Status :=
  [.ok, .zeroDivisor, .orderedRootError, .invalidLength, .malformedInput, .badAddress, .illegalCommand]

theorem mem_allStatuses (st : Status) : st ∈ allStatuses := by
  cases st <;> decide

theorem Status.code_injective {st st' : Status} (h : st.code = st'.code) : st = st' := by
  have hall : ∀ st ∈ allStatuses, ∀ st' ∈ allStatuses, st.code = st'.code → st = st' := by decide
  exact hall st (mem_allStatuses st) st' (mem_allStatuses st') h

/-- The failure a command ends with is the one it raised. -/
theorem commandWords_of_exec_fail {i : Instr} {s : State} {st : Status} (hst : st.code ≠ 0)
    (h : exec i s = .next (s.fail st)) : commandWords s i = .error (.status st) := by
  rw [exec_eq_finish_commandWords] at h
  rcases s.finish_cases i.dst (commandWords s i) with ⟨ws, -, hf⟩ | ⟨st', hr, hf⟩ | ⟨e, -, hf⟩ <;>
    rw [hf] at h
  · exact absurd (congrArg State.status (Host.Outcome.next.inj h)).symm hst
  · rw [hr, Status.code_injective (congrArg State.status (Host.Outcome.next.inj h))]
  · cases h

/-- Every command ends in one of the ways of `CommandEnd`, in every state. -/
theorem commandWords_ends (i : Instr) (s : State) : CommandEnd i s (commandWords s i) := by
  by_cases hin : s.InRange (wordRanges s i)
  · cases hlength : lengthWord? i with
    | none => exact elementCommand_ends hlength hin
    | some a =>
      by_cases hlen : ∀ k, (s.mem.read a).toNat ≠ 2 ^ k
      · rw [commandWords_of_exec_fail (by decide) (exec_invalidLength hin hlength hlen)]
        exact .invalidLength a hlength hlen
      · obtain ⟨k, hk⟩ : ∃ k, (s.mem.read a).toNat = 2 ^ k := by simpa using hlen
        by_cases hseq : s.InRange [(i.dst, writtenCount s i)]
        · exact transformCommand_ends hlength hk hin hseq
        · rw [commandWords_of_exec_fail (by decide) (exec_sequence_bad hin hlength hk hseq)]
          exact .badAddress (.inr ⟨a, hlength, hseq⟩)
  · rw [commandWords_of_exec_fail (by decide) (exec_wordRanges_bad hin)]
    exact .badAddress (.inl hin)

end Sys2Proof.Machine
end

section
/-! PROOFS. What follows from how a command ends: its codes, its frame, its results and what it refuses
(spec/60_exceptions.md, spec/20_memory.md R30). -/

namespace Sys2Proof.Machine

open Sys2Proof.Claims

/-- Settles O35: each end of a command has its code. -/
theorem commandsReturnOnlyTheirCodes : Obligations.CommandsReturnOnlyTheirCodes := by
  intro i s t hc hexec
  rw [exec_eq_finish_commandWords] at hexec
  have hends := commandWords_ends i s
  generalize commandWords s i = words at hends hexec
  cases hends <;> cases hexec
  case commits => exact .inl rfl
  case badAddress => exact .inr (.inl rfl)
  case zeroDivisor _ hi => exact .inr (.inr (.inl ⟨rfl, hi⟩))
  case rootError h => exact .inr (.inr (.inr (.inl ⟨rfl, (h hc).2⟩)))
  case invalidLength a hlength _ => exact .inr (.inr (.inr (.inr ⟨rfl, by rw [hlength]; rfl⟩)))

/-- A command that has a next state, the constants being admissible, commits as many canonical words as it has
results, inside `MEM`, or fails with a code the engine produces. -/
theorem exec_next_results {i : Instr} {s t : State} (hc : s.hw.Admissible) (h : exec i s = .next t) :
    (∃ ws, t = s.commit i.dst ws ∧ ws.length = writtenCount s i ∧ i.dst + writtenCount s i ≤ s.hw.memWords ∧
      ∀ w ∈ ws, Word.Canonical w) ∨
    (∃ st, t = s.fail st ∧ st.code ≠ 0 ∧ st.code ∈ producedCodes) := by
  rw [exec_eq_finish_commandWords] at h
  have hends := commandWords_ends i s
  generalize commandWords s i = words at hends h
  cases hends <;> cases h
  case commits ws _ hrange hlen hws => exact .inl ⟨ws, rfl, hlen hc, hrange, hws⟩
  all_goals exact .inr ⟨_, rfl, by decide, by decide⟩

/-- Settles O36: a failure leaves `MEM`, and a commit the words outside those it writes. -/
theorem commandsWriteOnlyTheirDestination : Obligations.CommandsWriteOnlyTheirDestination := by
  intro i s t hc hexec
  rcases exec_next_results hc hexec with ⟨ws, rfl, hlen, -, -⟩ | ⟨st, rfl, -, -⟩
  · refine ⟨rfl, rfl, Memory.writeWords_powerOn _ _ _, rfl, fun a ha => ?_⟩
    exact Memory.read_writeWords_outside _ _ _ (hlen ▸ ha)
  · exact ⟨rfl, rfl, rfl, rfl, fun a _ => rfl⟩

/-- Settles O37: `STATUS` is `OK` only after a commit, and what is committed is canonical. -/
theorem resultsAreCanonical : Obligations.ResultsAreCanonical := by
  intro i s t hc hwf hexec hstatus j hj
  rcases exec_next_results hc hexec with ⟨ws, rfl, hlen, -, hws⟩ | ⟨st, rfl, hcode, -⟩
  · rw [← hlen] at hj
    rw [State.commit_mem, Memory.read_writeWords_inside hwf _ _ j hj]
    exact hws _ (List.getElem_mem hj)
  · exact absurd hstatus hcode

/-- Settles O41: the one end of a command that is a refusal names the word. -/
theorem onlyNonCanonicalOperandsAreRefused : Obligations.OnlyNonCanonicalOperandsAreRefused := by
  intro i s r hexec
  rw [exec_eq_finish_commandWords] at hexec
  have hends := commandWords_ends i s
  generalize commandWords s i = words at hends hexec
  cases hends <;> cases hexec
  case refused a hread hbad => exact ⟨a, hread, hbad, rfl⟩

/-- Settles O42: every other end of a command has canonical operands, or a range outside `MEM`, or an invalid length. -/
theorem nonCanonicalOperandsHaveNoMeaning : Obligations.NonCanonicalOperandsHaveNoMeaning := by
  intro i s hc hin htransform hbad
  rw [exec_eq_finish_commandWords]
  have hends := commandWords_ends i s
  generalize commandWords s i = words at hends
  cases hends with
  | commits _ hcanonical => exact absurd hcanonical hbad
  | badAddress hrange =>
    rcases hrange with hrange | ⟨a, hlength, hrange⟩
    · exact absurd hin hrange
    · exact absurd (htransform a hlength).2 hrange
  | invalidLength a hlength hlen =>
    obtain ⟨⟨k, hk⟩, -⟩ := htransform a hlength
    exact absurd hk (hlen k)
  | rootError h => exact absurd (h hc).1 hbad
  | zeroDivisor hcanonical => exact absurd hcanonical hbad
  | refused a => exact ⟨a, rfl⟩

/-- A command whose residue operands are canonical is not refused (R123, R138). -/
theorem exec_next_of_canonical {i : Instr} {s : State} (h : s.OperandsCanonical i) : ∃ t, exec i s = .next t := by
  rw [exec_eq_finish_commandWords]
  have hends := commandWords_ends i s
  generalize commandWords s i = words at hends
  cases hends with
  | refused a hread hbad => exact absurd (h a hread) hbad
  | commits | badAddress | zeroDivisor | rootError | invalidLength => exact ⟨_, rfl⟩

end Sys2Proof.Machine
end

section
/-! PROOFS. The step and the host's ports (spec/30_encoding.md R39, R51, spec/20_memory.md R35, R36,
spec/70_reset_and_hazards.md R126 to R128): what each event does, and what every step keeps. -/

namespace Sys2Proof.Machine

/-! ## One equation per event -/

section

variable {s : State} {rest : List HostEvent}

theorem step_idle (h : s.inputs = []) : step s = .next s := by
  rw [step, h]

theorem step_command {w : CommandWord} (h : s.inputs = .command w :: rest) :
    step s = runCommand w { s with inputs := rest } := by
  rw [step, h]

theorem step_write_inside {a : Nat} {v : Word} (h : s.inputs = .write a v :: rest) (ha : a < s.hw.memWords) :
    step s = .next { s with inputs := rest, mem := s.mem.write a v } := by
  rw [step, h]
  exact if_pos ha

theorem step_write_outside {a : Nat} {v : Word} (h : s.inputs = .write a v :: rest) (ha : ¬ a < s.hw.memWords) :
    step s = .refused (.hostAddressOutOfRange a) := by
  rw [step, h]
  exact if_neg ha

theorem step_read_inside {a : Nat} (h : s.inputs = .read a :: rest) (ha : a < s.hw.memWords) :
    step s = .next { s with inputs := rest, responses := s.responses ++ [.word (s.mem.read a)] } := by
  rw [step, h]
  exact if_pos ha

theorem step_read_outside {a : Nat} (h : s.inputs = .read a :: rest) (ha : ¬ a < s.hw.memWords) :
    step s = .refused (.hostAddressOutOfRange a) := by
  rw [step, h]
  exact if_neg ha

theorem step_readStatus (h : s.inputs = .readStatus :: rest) :
    step s = .next { s with inputs := rest }.hostReadStatus := by
  rw [step, h]

theorem step_reset {inProgress : Option CommandWord} {image : Nat} (h : s.inputs = .reset inProgress image :: rest) :
    step s = .next ({ s with inputs := rest }.hostReset image) := by
  rw [step, h]

end

theorem runCommand_of_decode_ok {w : CommandWord} {i : Instr} (h : decode w = .ok i) (s : State) :
    runCommand w s = exec i s := by
  simp [runCommand, h]

/-- The bits of a command word are what `withFetchWord` presents. -/
theorem ofNat_toNat_mod (w : CommandWord) : BitVec.ofNat 128 (w.toNat % 2 ^ 128) = w := by
  rw [Nat.mod_eq_of_lt w.isLt, BitVec.ofNat_toNat, BitVec.setWidth_eq]

/-- Settles O7: the event is the command port, and a word that decodes is run. -/
theorem stepRunsTheDecodedCommand : Obligations.StepRunsTheDecodedCommand := by
  refine ⟨fun s w rest i hinputs hdecode => ?_, fun s w i hdecode => ?_⟩
  · rw [step_command hinputs, runCommand_of_decode_ok hdecode]
  · have hinputs : (s.withFetchWord 128 w.toNat).inputs = .command w :: s.inputs := by
      rw [State.withFetchWord_inputs, ofNat_toNat_mod]
    rw [step_command hinputs, runCommand_of_decode_ok hdecode]
    rfl

/-- Settles O8: the step of a machine with no input is the state itself. -/
theorem idleStepChangesNothing : Obligations.IdleStepChangesNothing := fun _ h => step_idle h

/-- Settles O9: the equation of each event, with the laws of `MEM` for a write. -/
theorem hostPortReadsAndWritesOneWord : Obligations.HostPortReadsAndWritesOneWord := by
  refine ⟨fun s a v rest hwf hinputs => ⟨fun ha => ?_, step_write_outside hinputs⟩,
    fun s a rest hinputs => ⟨step_read_inside hinputs, step_read_outside hinputs⟩,
    fun s rest hinputs => step_readStatus hinputs⟩
  exact ⟨_, step_write_inside hinputs ha, Memory.read_write_same hwf a v, fun b hb => Memory.read_write_other _ v hb,
    rfl, rfl, rfl, rfl⟩

/-- Settles O10: a commit leaves the next input, and its words are what is read back. -/
theorem hostReadSeesCommittedResults : Obligations.HostReadSeesCommittedResults := by
  intro s d ws k rest hk hwf hrange hinputs
  have hinside : d + k < s.hw.memWords := by omega
  have hread : (s.mem.writeWords d ws).read (d + k) = ws[k] := Memory.read_writeWords_inside hwf d ws k hk
  refine ⟨_, step_read_inside (s := s.commit d ws) hinputs hinside, ?_, rfl⟩
  simp [hread]

/-- A word of a memory that nothing was written to since the draw `image` is its digit of the draw (R23). -/
theorem Memory.read_empty_toNat (image a : Nat) :
    (({ powerOn := image, cells := [] } : Memory).read a).toNat = image / 2 ^ (64 * a) % 2 ^ 64 := by
  simp [Memory.read, findCell, Memory.powerOnWord, Nat.shiftRight_eq_div_pow]

/-- Settles O11: every field of the state a reset event gives. -/
theorem resetInputClearsStatusAndRedrawsMemory : Obligations.ResetInputClearsStatusAndRedrawsMemory := by
  intro s inProgress image rest hinputs
  exact ⟨_, step_reset hinputs, rfl, rfl, rfl, rfl, rfl, Memory.read_empty_toNat image⟩

/-- Settles O12: every field of the state after reset; the constants are admissible by their choice. -/
theorem resetStateIsAsTheSpecSays : Obligations.ResetStateIsAsTheSpecSays :=
  ⟨rfl, rfl, rfl, rfl, Memory.read_empty_toNat Config.powerOnImage, Config.hardware_admissible⟩

/-! ## The invariant -/

/-- Settles O45: the memory after reset has no entry, and `STATUS` is 0. -/
theorem resetSatisfiesTheMachineInvariant : Obligations.ResetSatisfiesTheMachineInvariant where
  hw_admissible := Config.hardware_admissible
  mem_wf := State.reset_mem_wf
  mem_in_space _ hc := absurd hc List.not_mem_nil
  status_produced := List.mem_cons_self

/-- All that a step with a next state can be (R39, R35, R15, R127). -/
theorem step_next_cases {s t : State} (h : step s = .next t) :
    t = s ∨
    (∃ w rest, runCommand w { s with inputs := rest } = .next t) ∨
    (∃ a v rest, a < s.hw.memWords ∧ t = { s with inputs := rest, mem := s.mem.write a v }) ∨
    (∃ a rest, t = { s with inputs := rest, responses := s.responses ++ [.word (s.mem.read a)] }) ∨
    (∃ rest, t = { s with inputs := rest }.hostReadStatus) ∨
    (∃ image rest, t = { s with inputs := rest }.hostReset image) := by
  match hinputs : s.inputs with
  | [] =>
    rw [step_idle hinputs] at h
    cases h
    exact .inl rfl
  | .command w :: rest =>
    rw [step_command hinputs] at h
    exact .inr (.inl ⟨w, rest, h⟩)
  | .write a v :: rest =>
    by_cases ha : a < s.hw.memWords
    · rw [step_write_inside hinputs ha] at h
      cases h
      exact .inr (.inr (.inl ⟨a, v, rest, ha, rfl⟩))
    · rw [step_write_outside hinputs ha] at h
      cases h
  | .read a :: rest =>
    by_cases ha : a < s.hw.memWords
    · rw [step_read_inside hinputs ha] at h
      cases h
      exact .inr (.inr (.inr (.inl ⟨a, rest, rfl⟩)))
    · rw [step_read_outside hinputs ha] at h
      cases h
  | .readStatus :: rest =>
    rw [step_readStatus hinputs] at h
    cases h
    exact .inr (.inr (.inr (.inr (.inl ⟨rest, rfl⟩))))
  | .reset inProgress image :: rest =>
    rw [step_reset hinputs] at h
    cases h
    exact .inr (.inr (.inr (.inr (.inr ⟨image, rest, rfl⟩))))

/-- Settles O40: a command commits or fails, the host's ports and a reset leave the constants. -/
theorem constantsNeverChange : Obligations.ConstantsNeverChange := by
  intro s t h
  rcases step_next_cases h with rfl | ⟨w, rest, hrun⟩ | ⟨a, v, rest, -, rfl⟩ | ⟨a, rest, rfl⟩ | ⟨rest, rfl⟩ |
    ⟨image, rest, rfl⟩
  case inr.inl => rcases runCommand_next_cases hrun with ⟨d, ws, rfl⟩ | ⟨st, rfl⟩ <;> rfl
  all_goals rfl

theorem State.Inv.withInputs {s : State} (h : s.Inv) (rest : List HostEvent) : { s with inputs := rest }.Inv :=
  ⟨h.hw_admissible, h.mem_wf, h.mem_in_space, h.status_produced⟩

theorem State.Inv.commit {s : State} (h : s.Inv) {d : Nat} {ws : List Word} (hrange : d + ws.length ≤ s.hw.memWords) :
    (s.commit d ws).Inv where
  hw_admissible := h.hw_admissible
  mem_wf := Memory.writeWords_wf h.mem_wf d ws
  mem_in_space c hc := by
    rcases Memory.writeWords_cells hc with ⟨-, hlt⟩ | hc
    · exact hlt.trans_le hrange
    · exact h.mem_in_space c hc
  status_produced := List.mem_cons_self

theorem State.Inv.fail {s : State} (h : s.Inv) {st : Status} (hcode : st.code ∈ producedCodes) : (s.fail st).Inv :=
  ⟨h.hw_admissible, h.mem_wf, h.mem_in_space, hcode⟩

theorem State.Inv.runCommand {s t : State} (h : s.Inv) {w : CommandWord} (hrun : runCommand w s = .next t) :
    t.Inv := by
  cases hdecode : decode w with
  | error e =>
    rw [runCommand_of_decode_error hdecode] at hrun
    cases hrun
    exact h.fail (by decide)
  | ok i =>
    rw [runCommand_of_decode_ok hdecode] at hrun
    rcases exec_next_results h.hw_admissible hrun with ⟨ws, rfl, hlen, hrange, -⟩ | ⟨st, rfl, -, hcode⟩
    · exact h.commit (hlen ▸ hrange)
    · exact h.fail hcode

theorem State.Inv.hostWrite {s : State} (h : s.Inv) {a : Nat} (ha : a < s.hw.memWords) (v : Word) :
    { s with mem := s.mem.write a v }.Inv where
  hw_admissible := h.hw_admissible
  mem_wf := Memory.write_wf h.mem_wf a v
  mem_in_space c hc := by
    rcases Memory.write_cells hc with rfl | hc
    · exact ha
    · exact h.mem_in_space c hc
  status_produced := h.status_produced

/-- Settles O44: each event keeps the invariant; a command by how it ends (`exec_next_results`). -/
theorem stepKeepsTheMachineInvariant : Obligations.StepKeepsTheMachineInvariant := by
  intro s t hinv h
  rcases step_next_cases h with rfl | ⟨w, rest, hrun⟩ | ⟨a, v, rest, ha, rfl⟩ | ⟨a, rest, rfl⟩ | ⟨rest, rfl⟩ |
    ⟨image, rest, rfl⟩
  · exact hinv
  · exact (hinv.withInputs rest).runCommand hrun
  · exact (hinv.withInputs rest).hostWrite ha v
  · exact ⟨hinv.hw_admissible, hinv.mem_wf, hinv.mem_in_space, hinv.status_produced⟩
  · exact ⟨hinv.hw_admissible, hinv.mem_wf, hinv.mem_in_space, hinv.status_produced⟩
  · exact ⟨hinv.hw_admissible, Memory.empty_wf image, fun _ hc => absurd hc List.not_mem_nil, List.mem_cons_self⟩

/-- What a command reads does not depend on what the host does next. -/
theorem operandsCanonical_withInputs {s : State} {i : Instr} (h : s.OperandsCanonical i) (rest : List HostEvent) :
    { s with inputs := rest }.OperandsCanonical i := by
  have hreads : residueReads { s with inputs := rest } i = residueReads s i := by cases i <;> rfl
  rw [State.OperandsCanonical, hreads]
  exact h

/-- Settles O43: each duty of the host is what the step of its event needs. -/
theorem dutifulHostAlwaysGetsAStep : Obligations.DutifulHostAlwaysGetsAStep := by
  intro s hduties
  unfold State.HostDuties at hduties
  match hinputs : s.inputs with
  | [] => exact ⟨_, step_idle hinputs⟩
  | .command w :: rest =>
    rw [hinputs] at hduties
    rw [step_command hinputs]
    cases hdecode : decode w with
    | error e => exact ⟨_, runCommand_of_decode_error hdecode _⟩
    | ok i =>
      simp only [hdecode] at hduties
      rw [runCommand_of_decode_ok hdecode]
      exact exec_next_of_canonical (operandsCanonical_withInputs hduties rest)
  | .write a v :: rest =>
    rw [hinputs] at hduties
    exact ⟨_, step_write_inside hinputs hduties⟩
  | .read a :: rest =>
    rw [hinputs] at hduties
    exact ⟨_, step_read_inside hinputs hduties⟩
  | .readStatus :: rest => exact ⟨_, step_readStatus hinputs⟩
  | .reset inProgress image :: rest => exact ⟨_, step_reset hinputs⟩

end Sys2Proof.Machine
end

section
/-! PROOFS. What a command's result words depend on: the constants and the words it reads (spec/10_state.md R15, R24,
spec/20_memory.md R30). -/

namespace Sys2Proof.Machine

section

variable {s t : State}

theorem State.fetchResidues_congr {a n : Nat} (h : ∀ b ∈ addresses a n, t.mem.read b = s.mem.read b) :
    t.fetchResidues a n = s.fetchResidues a n := by
  induction n generalizing a with
  | zero => rfl
  | succ n ih =>
    rw [addresses, List.range'_succ, List.forall_mem_cons] at h
    obtain ⟨hfirst, hrest⟩ := h
    simp only [State.fetchResidues, State.fetchResidue, hfirst, ih hrest]

theorem State.fetchElement_congr {α : Type} {F : ElementFormat α} {a : Nat}
    (h : ∀ b ∈ addresses a F.width, t.mem.read b = s.mem.read b) : t.fetchElement F a = s.fetchElement F a := by
  rw [State.fetchElement, State.fetchElement, State.fetchResidues_congr h]

theorem State.fetchSeq_congr {α : Type} {F : ElementFormat α} {a n : Nat}
    (h : ∀ b ∈ addresses a (n * F.width), t.mem.read b = s.mem.read b) : t.fetchSeq F a n = s.fetchSeq F a n := by
  induction n generalizing a with
  | zero => rfl
  | succ n ih =>
    rw [Nat.succ_mul, Nat.add_comm, addresses, ← List.range'_append_1, List.forall_mem_append] at h
    obtain ⟨hfirst, hrest⟩ := h
    simp only [State.fetchSeq, State.fetchElement_congr hfirst, ih hrest]

theorem State.fetchRaw_congr {a : Nat} (h : t.mem.read a = s.mem.read a) : t.fetchRaw a = s.fetchRaw a := by
  rw [State.fetchRaw, State.fetchRaw, h]

variable (hhw : t.hw = s.hw)
include hhw

theorem State.checkRange_congr (a n : Nat) : t.checkRange a n = s.checkRange a n := by
  rw [State.checkRange, State.checkRange, hhw]

variable {α : Type} {F : ElementFormat α}

theorem State.binaryWords_congr {f : α → α → Except Stop α} {d a b : Nat}
    (h : ∀ c ∈ addresses a F.width ++ addresses b F.width, t.mem.read c = s.mem.read c) :
    t.binaryWords F f d a b = s.binaryWords F f d a b := by
  obtain ⟨ha, hb⟩ := List.forall_mem_append.1 h
  simp only [State.binaryWords, State.checkRange_congr hhw, State.fetchElement_congr ha, State.fetchElement_congr hb]

theorem State.unaryWords_congr {f : α → Except Stop α} {d a : Nat}
    (h : ∀ c ∈ addresses a F.width, t.mem.read c = s.mem.read c) :
    t.unaryWords F f d a = s.unaryWords F f d a := by
  simp only [State.unaryWords, State.checkRange_congr hhw, State.fetchElement_congr h]

theorem State.powerWords_congr {f : α → Nat → Except Stop α} {d a e : Nat} (he : t.mem.read e = s.mem.read e)
    (h : ∀ c ∈ addresses a F.width, t.mem.read c = s.mem.read c) :
    t.powerWords F f d a e = s.powerWords F f d a e := by
  simp only [State.powerWords, State.checkRange_congr hhw, State.fetchElement_congr h, State.fetchRaw_congr he]

theorem State.rootWords_congr {f : Nat → Except Stop Residue} {d a : Nat} (ha : t.mem.read a = s.mem.read a) :
    t.rootWords f d a = s.rootWords f d a := by
  simp only [State.rootWords, State.checkRange_congr hhw, State.fetchRaw_congr ha]

theorem State.transformWords_congr {rootRange rootRange' : Except Stop Unit} {root root' : Nat → Except Stop α}
    {f : α → List α → List α} {d a : Nat} (ha : t.mem.read a = s.mem.read a) (hrange : rootRange' = rootRange)
    (hroot : root' (s.fetchRaw a) = root (s.fetchRaw a))
    (h : ∀ c ∈ addresses d (s.fetchRaw a * F.width), t.mem.read c = s.mem.read c) :
    t.transformWords F rootRange' root' f d a = s.transformWords F rootRange root f d a := by
  simp only [State.transformWords, State.checkRange_congr hhw, State.fetchRaw_congr ha, hrange, hroot,
    State.fetchSeq_congr h]

/-- The result words of a command are a function of the constants and the words it reads (R24). -/
theorem commandWords_congr {i : Instr} (h : ∀ a ∈ rawReads i ++ residueReads s i, t.mem.read a = s.mem.read a) :
    commandWords t i = commandWords s i := by
  obtain ⟨hraw, hres⟩ := List.forall_mem_append.1 h
  have hbase : ∀ d n, (∀ c ∈ addresses d n, t.mem.read c = s.mem.read c) →
      ∀ c ∈ addresses d (n * baseFormat.width), t.mem.read c = s.mem.read c := by simp
  cases i <;> simp only [commandWords, hhw]
  case badd | bsub | bmul | bdiv | eadd | esub | emul | ediv => exact State.binaryWords_congr hhw hres
  case bneg | binv | eneg | einv => exact State.unaryWords_congr hhw hres
  case bpow | epow => exact State.powerWords_congr hhw (hraw _ List.mem_cons_self) hres
  case broot => exact State.rootWords_congr hhw (hraw _ List.mem_cons_self)
  case ntt => exact State.transformWords_congr hhw (hraw _ List.mem_cons_self) rfl rfl (hbase _ _ hres)
  case entt => exact State.transformWords_congr hhw (hraw _ List.mem_cons_self) rfl rfl hres
  case nttr d a r =>
    obtain ⟨hroot, hseq⟩ := List.forall_mem_append.1 hres
    exact State.transformWords_congr hhw (hraw _ List.mem_cons_self) (State.checkRange_congr hhw _ _)
      (State.fetchElement_congr hroot) (hbase _ _ hseq)
  case enttr d a r =>
    obtain ⟨hroot, hseq⟩ := List.forall_mem_append.1 hres
    exact State.transformWords_congr hhw (hraw _ List.mem_cons_self) (State.checkRange_congr hhw _ _)
      (State.fetchElement_congr hroot) hseq

end

theorem State.fail_status_ne_ok {s : State} {st : Status} (h : st ≠ .ok) : (s.fail st).status ≠ 0 :=
  fun hcode => h (Status.code_injective hcode)

/-- Settles O38: both states end the command on the same result words. -/
theorem commandSeesOnlyTheWordsItReads : Obligations.CommandSeesOnlyTheWordsItReads := by
  intro i s t hc hhw hs ht hreads
  have hwords := commandWords_congr hhw hreads
  have hends := commandWords_ends i s
  simp only [exec_eq_finish_commandWords, hwords]
  generalize commandWords s i = words at hends
  refine ⟨fun s' hs' => ?_, fun r hr => ?_⟩
  · cases hends <;> cases hs'
    case refine_1.commits.refl ws _ _ hlen _ =>
      refine ⟨_, rfl, rfl, fun _ => ?_⟩
      rw [← hlen hc, State.commit_mem, State.commit_mem, Memory.readWords_writeWords ht,
        Memory.readWords_writeWords hs]
    all_goals exact ⟨_, rfl, rfl, fun hok => absurd hok (State.fail_status_ne_ok (by decide))⟩
  · cases hends <;> cases hr
    rfl

/-- The end of a command overwrites `STATUS`, whatever it held. -/
theorem State.finish_withStatus (s : State) (c : BitVec 8) (d : Nat) (r : Except Stop (List Word)) :
    { s with status := c }.finish d r = s.finish d r := by
  match r with
  | .ok ws => rfl
  | .error (.status st) => rfl
  | .error (.refuse e) => rfl

/-- Settles O39: the result words do not depend on `STATUS`, and the end of the command overwrites it. -/
theorem statusIsNeverReadByTheEngine : Obligations.StatusIsNeverReadByTheEngine := by
  intro w s c
  cases hdecode : decode w with
  | error e =>
    rw [runCommand_of_decode_error hdecode, runCommand_of_decode_error hdecode]
    rfl
  | ok i =>
    rw [runCommand_of_decode_ok hdecode, runCommand_of_decode_ok hdecode, exec_eq_finish_commandWords,
      exec_eq_finish_commandWords, State.finish_withStatus,
      commandWords_congr (s := s) (t := { s with status := c }) rfl fun _ _ => rfl]

end Sys2Proof.Machine
end

section
/-! PROOFS. NTTR, ENTT and ENTTR (spec/47_ntt.md R104 to R107). -/

namespace Sys2Proof.Machine

open Sys2Proof.Claims

theorem nttr_encoding : ThreeOperandEncoding 0x31 .nttr :=
  threeOperandEncoding_of_decode fun w hopc => by rw [decode, hopc]; rfl

theorem entt_encoding : TwoOperandEncoding 0x32 .entt :=
  twoOperandEncoding_of_decode fun w hopc => by rw [decode, hopc]; rfl

theorem enttr_encoding : ThreeOperandEncoding 0x33 .enttr :=
  threeOperandEncoding_of_decode fun w hopc => by rw [decode, hopc]; rfl

theorem State.fetchSeq_ext {s : State} {d : Nat} {xs : List (List Residue)} (h : ElementsAt s d xs) :
    s.fetchSeq (extFormat s.hw) d xs.length = .ok xs := by
  obtain ⟨hlen, hxs⟩ := h
  have hcount : xs.flatten.length = xs.length * s.hw.degree := by
    rw [List.length_flatten, List.map_congr_left hlen, List.map_const', List.sum_replicate, smul_eq_mul]
  refine State.fetchSeq_ok (fun x hx => extFormat_fits (hlen x hx)) ?_
  rw [extFormat_width, ← hcount, hxs, ElementFormat.flatten_eq_map, List.flatten_eq_flatMap]
  rfl

/-- With the checks of R97 passed NTTR is the transform with the residue at `SRC2` (R104). -/
theorem exec_nttr_ok {s : State} {d a r k : Nat} {root : Residue} {xs : List Residue}
    (hin : s.InRange [(a, 1), (r, 1), (d, 2 ^ k)]) (hlen : (s.mem.read a).toNat = 2 ^ k) (hroot : ResidueAt s r root)
    (hxlen : xs.length = 2 ^ k) (hxs : ResiduesAt s d xs) :
    exec (.nttr d a r) s = .next (s.commit d ((transform baseOps root xs).map Residue.toWord)) := by
  rw [State.inRange_cons, State.inRange_cons, State.inRange_singleton] at hin
  obtain ⟨ha, hr, hd⟩ := hin
  have hseq : s.fetchSeq baseFormat d (2 ^ k) = .ok xs := hxlen ▸ State.fetchSeq_base hxs
  rw [exec_nttr, State.transformWords_two_pow (root := fun _ => s.fetchElement baseFormat r) _ ha
    (State.checkRange_ok hr) hlen (by simpa using hd) (State.fetchElement_base hroot) hseq, State.finish_ok,
    baseFormat_flatten]

/-- Settles O29: the order of the failures for all commands (O33), and the transform with the residue read. -/
theorem nttrTransformsInPlaceWithTheSuppliedRoot : Obligations.NttrTransformsInPlaceWithTheSuppliedRoot := by
  refine ⟨nttr_encoding, fun s d a r => exec_wordRanges_bad (i := .nttr d a r),
    fun s d a r hin hlen => exec_invalidLength hin rfl hlen,
    fun s d a r k hin hlen hbad => exec_sequence_bad hin rfl hlen ?_, fun s d a r k root xs => exec_nttr_ok⟩
  rwa [← hlen] at hbad

theorem transform_singleton {α : Type} (T : FieldOps α) (root x : α) : transform T root [x] = [x] := rfl

theorem residuesAt_singleton {s : State} {d : Nat} {x : Residue} (h : ResidueAt s d x) : ResiduesAt s d [x] := by
  simp [ResiduesAt, Memory.readWords, h]

/-- Settles O30: the transform of one residue is that residue, and a root word that is none is refused when it is
read. -/
theorem nttrOfLengthOneLeavesTheSequence : Obligations.NttrOfLengthOneLeavesTheSequence := by
  intro s d a r x hin hlen hx
  refine ⟨fun root hroot => ?_, fun hbad => ?_⟩
  · rw [exec_nttr_ok (k := 0) hin hlen hroot (xs := [x]) rfl (residuesAt_singleton hx), transform_singleton]
    rfl
  · rw [State.inRange_cons, State.inRange_cons, State.inRange_singleton] at hin
    obtain ⟨ha, hr, hd⟩ := hin
    have hfetch : s.fetchElement baseFormat r = .error (.refuse (.nonCanonicalOperand r)) := by
      rw [State.fetchElement, baseFormat_width, State.fetchResidues, State.fetchResidue_refused hbad]
      rfl
    rw [exec_nttr, State.transformWords_root_fails (root := fun _ => s.fetchElement baseFormat r) (k := 0) _ ha
      (State.checkRange_ok hr) hlen hd hfetch,
      State.finish_refuse]

/-- Settles O31: the order of the failures for all commands (O33), and the transform with the derived root, lifted. -/
theorem enttTransformsInPlaceWithTheLiftedRoot : Obligations.EnttTransformsInPlaceWithTheLiftedRoot := by
  refine ⟨entt_encoding, fun s d a => exec_wordRanges_bad (i := .entt d a),
    fun s d a hin hlen => exec_invalidLength hin rfl hlen,
    fun s d a k hin hlen hbad => exec_sequence_bad hin rfl hlen ?_, fun s d a k hin hlen hk => ?_,
    fun s d a k root xs hin hlen hk hroot hxlen hxs => ?_⟩
  · rwa [← hlen] at hbad
  · rw [State.inRange_cons, ← hlen] at hin
    obtain ⟨ha, hd⟩ := hin
    exact exec_derivedRoot_fails (i := .entt d a) (by simp [Instr.mnemonic]) (State.inRange_singleton.2 ha) rfl hlen hk
      hd
  · rw [State.inRange_cons, State.inRange_singleton] at hin
    obtain ⟨ha, hd⟩ := hin
    have hseq : s.fetchSeq (extFormat s.hw) d (2 ^ k) = .ok xs := hxlen ▸ State.fetchSeq_ext hxs
    have hlifted : (orderedRoot s.hw (2 ^ k)).map (lift s.hw) = .ok (lift s.hw root) := by
      rw [orderedRoot_eq_of_val hk hroot]
      rfl
    rw [exec_entt, State.transformWords_two_pow (root := fun n => (orderedRoot s.hw n).map (lift s.hw)) _ ha rfl
      hlen hd hlifted hseq, State.finish_ok,
      ElementFormat.flatten_eq_map, List.flatten_eq_flatMap]
    rfl

/-- Settles O32: the order of the failures for all commands (O33), and the transform with the element read. -/
theorem enttrTransformsInPlaceWithTheSuppliedRoot : Obligations.EnttrTransformsInPlaceWithTheSuppliedRoot := by
  refine ⟨enttr_encoding, fun s d a r => exec_wordRanges_bad (i := .enttr d a r),
    fun s d a r hin hlen => exec_invalidLength hin rfl hlen,
    fun s d a r k hin hlen hbad => exec_sequence_bad hin rfl hlen ?_,
    fun s d a r k root xs hin hlen hrlen hroot hxlen hxs => ?_⟩
  · rwa [← hlen] at hbad
  · rw [State.inRange_cons, State.inRange_cons, State.inRange_singleton] at hin
    obtain ⟨ha, hr, hd⟩ := hin
    have hseq : s.fetchSeq (extFormat s.hw) d (2 ^ k) = .ok xs := hxlen ▸ State.fetchSeq_ext hxs
    rw [exec_enttr, State.transformWords_two_pow (root := fun _ => s.fetchElement (extFormat s.hw) r) _ ha
      (State.checkRange_ok hr) hlen hd (State.fetchElement_ext hrlen hroot) hseq, State.finish_ok,
      ElementFormat.flatten_eq_map, List.flatten_eq_flatMap]
    rfl

/-- What a transform does with its root is known from the root of its own length. -/
theorem State.transformWords_root_congr {α : Type} {s : State} {F : ElementFormat α} {rootRange : Except Stop Unit}
    {root root' : Nat → Except Stop α} (f : α → List α → List α) {d a : Nat} (hrange : rootRange = .ok ())
    (hroot : root (s.mem.read a).toNat = root' (s.mem.read a).toNat) :
    s.transformWords F rootRange root f d a = s.transformWords F (.ok ()) root' f d a :=
  State.transformWords_congr rfl rfl hrange hroot fun _ _ => rfl

/-- Settles O54: for the length at `SRC1` both commands have the same root, so they are the same command. -/
theorem derivedAndSuppliedRootsAgree : Obligations.DerivedAndSuppliedRootsAgree := by
  refine ⟨transform_singleton baseOps, fun c => transform_singleton (extOps c),
    fun s d a r root _ hin hderived hroot => ?_, fun s d a r root hc hin hderived hroot => ?_⟩
  · rw [State.inRange_singleton] at hin
    rw [exec_nttr, exec_ntt, State.transformWords_root_congr (root := fun _ => s.fetchElement baseFormat r) _
      (State.checkRange_ok hin) ((State.fetchElement_base hroot).trans hderived.symm)]
  · rw [State.inRange_singleton] at hin
    have hlifted : (orderedRoot s.hw (s.mem.read a).toNat).map (lift s.hw) = .ok (lift s.hw root) := by
      rw [hderived]
      rfl
    rw [exec_enttr, exec_entt, State.transformWords_root_congr (root := fun _ => s.fetchElement (extFormat s.hw) r)
      (root' := fun n => (orderedRoot s.hw n).map (lift s.hw)) _ (State.checkRange_ok hin)
      ((State.fetchElement_ext (lift_length _ hc.degree_pos _) hroot).trans hlifted.symm)]

end Sys2Proof.Machine
end

section
/-! PROOFS. The laws of the base field (spec/40_modular_adder.md R56, spec/41_modular_multiplier.md R60,
spec/43_modular_inverter.md R67) and of the extension field (spec/45_field_extension.md R87): the functions are the
operations of a commutative ring, and an element is known by what it stands for there. -/

namespace Sys2Proof.Machine

/-- Settles O46: the laws of addition in the field of integers modulo `P`. -/
theorem additionLawsHold : Obligations.AdditionLawsHold := by
  refine ⟨fun a b => ?_, fun a b c => ?_, fun a => ?_, fun a b => ?_, fun a => ?_⟩ <;>
    apply Residue.toField_injective
  · rw [toField_badd, toField_badd, add_comm]
  · simp only [toField_badd, add_assoc]
  · rw [toField_badd, toField_bneg, toField_zero, add_neg_cancel]
  · rw [toField_bsub, toField_badd, toField_bneg, sub_eq_add_neg]
  · rw [toField_badd, toField_zero, add_zero]

/-- Settles O47: the laws of multiplication in the field of integers modulo `P`, and Fermat's inverse. -/
theorem multiplicationAndInverseLawsHold : Obligations.MultiplicationAndInverseLawsHold := by
  refine ⟨fun a b => ?_, fun a b c => ?_, fun a b c => ?_, fun a ha => ?_, fun a b hb => ?_, bdiv_zero, binv_zero⟩
  · apply Residue.toField_injective
    rw [toField_bmul, toField_bmul, mul_comm]
  · apply Residue.toField_injective
    simp only [toField_bmul, mul_assoc]
  · apply Residue.toField_injective
    simp only [toField_bmul, toField_badd, mul_add]
  · exact ⟨_, binv_of_ne_zero ha, bmul_bpow_P_sub_two ha⟩
  · exact ⟨_, binv_of_ne_zero hb, bdiv_of_ne_zero a hb⟩

section

variable {c : Config} (hc : c.Admissible) {a b : List Residue} (ha : a.length = c.degree) (hb : b.length = c.degree)
include hc ha hb

theorem eadd_length : (eadd a b).length = c.degree := (extOps_representsRing hc).add_ok a b ha hb

theorem toExtension_eadd : toExtension c (eadd a b) = toExtension c a + toExtension c b :=
  (extOps_representsRing hc).map_add a b ha hb

end

theorem eneg_length {c : Config} {a : List Residue} (ha : a.length = c.degree) : (eneg a).length = c.degree :=
  (eneg_spec a).1.trans ha

theorem toExtension_eneg (c : Config) (a : List Residue) : toExtension c (eneg a) = -toExtension c a := by
  rw [toExtension, (eneg_spec a).2, map_neg, toExtension]

theorem extOne_ne_extZero {c : Config} (hc : c.Admissible) : extOne c ≠ extZero c := by
  have := P_fact
  have : Fact (Irreducible (modulus c)) := ⟨hc.irreducible⟩
  intro h
  have hone := toExtension_extOne hc
  rw [h, toExtension_extZero] at hone
  exact zero_ne_one hone

/-- Settles O50: the laws of the field of polynomials modulo `m(x)`, for the elements that stand for them. -/
theorem extensionFieldLawsHold : Obligations.ExtensionFieldLawsHold := by
  intro c hc a b e ha hb he
  have hone := extOne_length hc
  have hzero := extZero_length c
  have hadd {x y : List Residue} (hx : x.length = c.degree) (hy : y.length = c.degree) := eadd_length hc hx hy
  have hmul {x y : List Residue} (hx : x.length = c.degree) (hy : y.length = c.degree) := emul_length hc hx hy
  refine ⟨toExtension_injective (hadd ha hb) (hadd hb ha) ?_,
    toExtension_injective (hadd (hadd ha hb) he) (hadd ha (hadd hb he)) ?_,
    toExtension_injective (hadd ha (eneg_length ha)) hzero ?_, toExtension_injective (hadd ha hzero) ha ?_,
    extOne_ne_extZero hc, toExtension_injective (hmul ha hb) (hmul hb ha) ?_,
    toExtension_injective (hmul (hmul ha hb) he) (hmul ha (hmul hb he)) ?_,
    toExtension_injective (hmul ha (hadd hb he)) (hadd (hmul ha hb) (hmul ha he)) ?_,
    toExtension_injective (hmul ha hone) ha ?_, fun hne => ?_, einv_extZero c, ediv_extZero c a⟩
  · rw [toExtension_eadd hc ha hb, toExtension_eadd hc hb ha, add_comm]
  · rw [toExtension_eadd hc (hadd ha hb) he, toExtension_eadd hc ha hb, toExtension_eadd hc ha (hadd hb he),
      toExtension_eadd hc hb he, add_assoc]
  · rw [toExtension_eadd hc ha (eneg_length ha), toExtension_eneg, toExtension_extZero, add_neg_cancel]
  · rw [toExtension_eadd hc ha hzero, toExtension_extZero, add_zero]
  · rw [toExtension_emul hc ha hb, toExtension_emul hc hb ha, mul_comm]
  · rw [toExtension_emul hc (hmul ha hb) he, toExtension_emul hc ha hb, toExtension_emul hc ha (hmul hb he),
      toExtension_emul hc hb he, mul_assoc]
  · rw [toExtension_emul hc ha (hadd hb he), toExtension_eadd hc hb he,
      toExtension_eadd hc (hmul ha hb) (hmul ha he), toExtension_emul hc ha hb, toExtension_emul hc ha he, mul_add]
  · rw [toExtension_emul hc ha hone, toExtension_extOne hc, mul_one]
  · exact ⟨_, einv_of_ne_zero hb hne, emul_epow_card_sub_two hc hb hne, ediv_of_ne_zero a hb hne⟩

end Sys2Proof.Machine
end

section
/-! PROOFS. The bit reversal of R98 (spec/47_ntt.md): the index it computes, and the permutation it makes (R99). -/

namespace Sys2Proof.Machine

/-! ## The reversed index -/

theorem reverseBits_succ (k i : Nat) : reverseBits (k + 1) i = i % 2 * 2 ^ k + reverseBits k (i / 2) := rfl

theorem reverseBits_lt (k i : Nat) : reverseBits k i < 2 ^ k := by
  induction k generalizing i with
  | zero => simp [reverseBits]
  | succ k ih =>
    have hrest := ih (i / 2)
    rw [reverseBits, pow_succ]
    rcases Nat.mod_two_eq_zero_or_one i with h | h <;> rw [h] <;> omega

/-- The highest of `k + 1` bits becomes the lowest. -/
theorem reverseBits_high {k r b : Nat} (hb : b < 2) (hr : r < 2 ^ k) :
    reverseBits (k + 1) (b * 2 ^ k + r) = 2 * reverseBits k r + b := by
  induction k generalizing r with
  | zero =>
    have hr0 : r = 0 := by simpa using hr
    simp [reverseBits, hr0, Nat.mod_eq_of_lt hb]
  | succ k ih =>
    rw [pow_succ] at hr
    have hmod : (b * 2 ^ (k + 1) + r) % 2 = r % 2 := by rw [pow_succ, ← mul_assoc]; omega
    have hdiv : (b * 2 ^ (k + 1) + r) / 2 = b * 2 ^ k + r / 2 := by rw [pow_succ, ← mul_assoc]; omega
    rw [reverseBits, hmod, hdiv, ih (by omega), reverseBits, pow_succ]
    ring

theorem reverseBits_reverseBits {k i : Nat} (hi : i < 2 ^ k) : reverseBits k (reverseBits k i) = i := by
  induction k generalizing i with
  | zero => rw [reverseBits, Nat.lt_one_iff.1 hi]
  | succ k ih =>
    rw [pow_succ] at hi
    rw [reverseBits_succ k i, reverseBits_high (Nat.mod_lt i Nat.two_pos) (reverseBits_lt k _), ih (by omega)]
    omega

theorem reverseBits_zero (k : Nat) : reverseBits k 0 = 0 := by
  induction k with
  | zero => rfl
  | succ k ih => simp [reverseBits, ih]

/-! ## The loop's next index -/

theorem xor_two_pow_of_lt {k j : Nat} (h : j < 2 ^ k) : j ^^^ 2 ^ k = 2 ^ k + j := by
  apply Nat.eq_of_testBit_eq
  intro i
  rw [Nat.testBit_xor, Nat.testBit_two_pow]
  rcases Nat.lt_trichotomy i k with hi | rfl | hi
  · simp [Nat.testBit_two_pow_add_gt hi, hi.ne']
  · simp [Nat.testBit_two_pow_add_eq, Nat.testBit_lt_two_pow h]
  · have hlong : 2 ^ k + j < 2 ^ i := (by omega : 2 ^ k + j < 2 ^ (k + 1)).trans_le
      (Nat.pow_le_pow_right Nat.two_pos hi)
    simp [Nat.testBit_lt_two_pow hlong, Nat.testBit_lt_two_pow (show j < 2 ^ i by omega), hi.ne]

theorem two_pow_add_xor {k j : Nat} (h : j < 2 ^ k) : (2 ^ k + j) ^^^ 2 ^ k = j := by
  rw [← xor_two_pow_of_lt h, Nat.xor_assoc, Nat.xor_self, Nat.xor_zero]

theorem and_two_pow_of_lt {k j : Nat} (h : j < 2 ^ k) : j &&& 2 ^ k = 0 := by
  rw [Nat.and_two_pow, Nat.testBit_lt_two_pow h]
  simp

theorem two_pow_add_and {k j : Nat} (h : j < 2 ^ k) : (2 ^ k + j) &&& 2 ^ k ≠ 0 := by
  rw [Nat.and_two_pow, Nat.testBit_two_pow_add_eq, Nat.testBit_lt_two_pow h]
  simp

/-- The inner loop of R98 adds 1 to the reversed index, with the carry going down. -/
theorem bitReverseNext_reverseBits {k i fuel : Nat} (hi : i + 1 < 2 ^ (k + 1)) (hfuel : k < fuel) :
    bitReverseNext fuel (reverseBits (k + 1) i) (2 ^ k) = reverseBits (k + 1) (i + 1) := by
  induction k generalizing i fuel with
  | zero =>
    obtain rfl : i = 0 := by omega
    obtain ⟨fuel, rfl⟩ : ∃ n, fuel = n + 1 := ⟨fuel - 1, by omega⟩
    simp [reverseBits, bitReverseNext]
  | succ k ih =>
    obtain ⟨fuel, rfl⟩ : ∃ n, fuel = n + 1 := ⟨fuel - 1, by omega⟩
    have hrest := reverseBits_lt (k + 1) (i / 2)
    rw [bitReverseNext, reverseBits_succ (k + 1) i, reverseBits_succ (k + 1) (i + 1)]
    rcases Nat.mod_two_eq_zero_or_one i with h | h
    · rw [h, show (i + 1) % 2 = 1 by omega, show (i + 1) / 2 = i / 2 by omega, zero_mul, zero_add, one_mul,
        if_neg (not_not.2 (and_two_pow_of_lt hrest)), xor_two_pow_of_lt hrest]
    · rw [h, show (i + 1) % 2 = 0 by omega, show (i + 1) / 2 = i / 2 + 1 by omega, zero_mul, zero_add, one_mul,
        if_pos (two_pow_add_and hrest), two_pow_add_xor hrest, Nat.shiftRight_eq_div_pow, pow_succ,
        Nat.mul_div_cancel _ Nat.two_pos]
      rw [pow_succ] at hi
      exact ih (by omega) (by omega)

/-! ## The permutation -/

theorem getElem?_swapAt {α : Type} {xs : List α} {i j : Nat} (hi : i < xs.length) (hj : j < xs.length) (p : Nat) :
    (swapAt xs i j)[p]? = if p = j then xs[i]? else if p = i then xs[j]? else xs[p]? := by
  have hswap : swapAt xs i j = (xs.set i xs[j]).set j xs[i] := by
    rw [swapAt, List.getElem?_eq_getElem hi, List.getElem?_eq_getElem hj]
  rw [hswap, List.getElem?_set, List.getElem?_set, List.length_set, if_pos hj, if_pos hi, List.getElem?_eq_getElem hi,
    List.getElem?_eq_getElem hj]
  simp only [eq_comm (a := p)]

/-- One round of R98 at the offset `i`: the next index, and the swap. -/
def bitReverseRound {α : Type} (n : Nat) (js : Nat × List α) (i : Nat) : Nat × List α :=
  (bitReverseNext (n.log2 + 1) js.1 (n >>> 1),
    if i < bitReverseNext (n.log2 + 1) js.1 (n >>> 1) then
      swapAt js.2 i (bitReverseNext (n.log2 + 1) js.1 (n >>> 1)) else js.2)

theorem bitReverse_eq_foldl {α : Type} (xs : List α) :
    bitReverse xs = ((List.range' 1 (xs.length - 1)).foldl (bitReverseRound xs.length) (0, xs)).2 := rfl

/-- The sequence `ys` is `xs` with the elements at `p` and at the reversal of `p` exchanged, for every pair whose lower
index is at most `t`. -/
def PairsSwapped {α : Type} (k : Nat) (xs : List α) (t : Nat) (ys : List α) : Prop :=
  ys.length = 2 ^ k ∧
  ∀ p, p < 2 ^ k → ys[p]? = if p ≤ t ∨ reverseBits k p ≤ t then xs[reverseBits k p]? else xs[p]?

theorem pairsSwapped_zero {α : Type} {k : Nat} {xs : List α} (hlen : xs.length = 2 ^ k) : PairsSwapped k xs 0 xs := by
  refine ⟨hlen, fun p hp => ?_⟩
  split
  · rename_i h
    have hzero : p = 0 := by
      rcases h with h | h
      · exact Nat.le_zero.1 h
      · rw [← reverseBits_reverseBits hp, Nat.le_zero.1 h, reverseBits_zero]
    rw [hzero, reverseBits_zero]
  · rfl

/-- The swap of the pair of `t + 1`, when `t + 1` is its lower index; otherwise the pair is already exchanged. -/
theorem PairsSwapped.succ {α : Type} {k t : Nat} {xs ys : List α} (h : PairsSwapped k xs t ys) (ht : t + 1 < 2 ^ k) :
    PairsSwapped k xs (t + 1)
      (if t + 1 < reverseBits k (t + 1) then swapAt ys (t + 1) (reverseBits k (t + 1)) else ys) := by
  obtain ⟨hlen, hys⟩ := h
  have hbound := reverseBits_lt k (t + 1)
  have hinv := reverseBits_reverseBits ht
  have hrest : ∀ p, p < 2 ^ k → p ≠ t + 1 → p ≠ reverseBits k (t + 1) →
      (p ≤ t ∨ reverseBits k p ≤ t ↔ p ≤ t + 1 ∨ reverseBits k p ≤ t + 1) := by
    intro p hp hpt hpr
    have hne : reverseBits k p ≠ t + 1 := fun h => hpr (by rw [← h, reverseBits_reverseBits hp])
    omega
  split
  · rename_i hswap
    refine ⟨(swapAt_sequenceOf (ok := fun _ => True) ⟨hlen, fun _ _ => trivial⟩ _ _).1, fun p hp => ?_⟩
    rw [getElem?_swapAt (hlen ▸ ht) (hlen ▸ hbound), hys _ ht, hys _ hbound, hys _ hp, hinv]
    by_cases hpr : p = reverseBits k (t + 1)
    · rw [if_pos hpr, if_neg (by omega), hpr, hinv, if_pos (by omega)]
    · by_cases hpt : p = t + 1
      · rw [if_neg hpr, if_pos hpt, if_neg (by omega), hpt, if_pos (by omega)]
      · rw [if_neg hpr, if_neg hpt]
        exact if_congr (hrest p hp hpt hpr) rfl rfl
  · refine ⟨hlen, fun p hp => ?_⟩
    rw [hys p hp]
    by_cases hpt : p = t + 1
    · subst hpt
      rw [if_pos (Or.inl le_rfl)]
      split
      · rfl
      · rw [show reverseBits k (t + 1) = t + 1 by omega]
    · by_cases hpr : p = reverseBits k (t + 1)
      · rw [if_pos (by omega), if_pos (by omega)]
      · exact if_congr (hrest p hp hpt hpr) rfl rfl

/-- After `t` rounds the loop's index is the reversal of `t`, and the pairs up to `t` are exchanged. -/
theorem bitReverse_rounds {α : Type} {k : Nat} {xs : List α} (hlen : xs.length = 2 ^ (k + 1)) {t : Nat}
    (ht : t < 2 ^ (k + 1)) :
    ((List.range' 1 t).foldl (bitReverseRound xs.length) (0, xs)).1 = reverseBits (k + 1) t ∧
    PairsSwapped (k + 1) xs t ((List.range' 1 t).foldl (bitReverseRound xs.length) (0, xs)).2 := by
  induction t with
  | zero => exact ⟨(reverseBits_zero _).symm, pairsSwapped_zero hlen⟩
  | succ t ih =>
    obtain ⟨hindex, hswapped⟩ := ih (by omega)
    have hnext : bitReverseNext (xs.length.log2 + 1) (reverseBits (k + 1) t) (xs.length >>> 1) =
        reverseBits (k + 1) (t + 1) := by
      rw [hlen, Nat.log2_two_pow, Nat.shiftRight_eq_div_pow, pow_succ 2 k, pow_one, Nat.mul_div_cancel _ Nat.two_pos]
      exact bitReverseNext_reverseBits ht (by omega)
    rw [List.range'_1_concat, List.foldl_append, List.foldl_cons, List.foldl_nil, bitReverseRound, hindex,
      Nat.add_comm 1 t, hnext]
    exact ⟨rfl, hswapped.succ ht⟩

theorem bitReverse_length {α : Type} (xs : List α) : (bitReverse xs).length = xs.length :=
  (bitReverse_sequenceOf (ok := fun _ => True) ⟨rfl, fun _ _ => trivial⟩).1

theorem getElem?_bitReverse {α : Type} {k : Nat} {xs : List α} (hlen : xs.length = 2 ^ k) {i : Nat} (hi : i < 2 ^ k) :
    (bitReverse xs)[i]? = xs[reverseBits k i]? := by
  cases k with
  | zero =>
    obtain ⟨x, rfl⟩ := List.length_eq_one_iff.1 hlen
    rw [Nat.lt_one_iff.1 hi]
    rfl
  | succ k =>
    have hlast : xs.length - 1 < 2 ^ (k + 1) := by omega
    obtain ⟨-, -, hseq⟩ := bitReverse_rounds hlen hlast
    rw [bitReverse_eq_foldl, hseq i hi, if_pos (Or.inl (by omega))]

/-- Settles O53: the permutation by its rounds, and the reversal of an index is its own inverse. -/
theorem bitReversalLoopReversesIndexBits : Obligations.BitReversalLoopReversesIndexBits := by
  intro α k xs hlen
  have hrev := (bitReverse_length xs).trans hlen
  refine ⟨hrev, fun i => getElem?_bitReverse hlen, List.ext_getElem? fun i => ?_⟩
  rcases Nat.lt_or_ge i (2 ^ k) with hi | hi
  · rw [getElem?_bitReverse hrev hi, getElem?_bitReverse hlen (reverseBits_lt k i), reverseBits_reverseBits hi]
  · rw [List.getElem?_eq_none (by rw [bitReverse_length, hrev]; exact hi), List.getElem?_eq_none (hlen ▸ hi)]

end Sys2Proof.Machine
end

section
/-! PROOFS. The blocks of a stage and their twiddles (spec/46_twiddle_factor.md R90 to R94, spec/47_ntt.md R100 to
R102): what a block makes of each element, and the running twiddle as a power of the root. -/

namespace Sys2Proof.Machine

open Sys2Proof.Claims

/-! ## The elements of a block -/

section

variable {α : Type} (T : FieldOps α) (step : α) (half base : Nat)

/-- The running twiddle at the offset `i` of a block (R91, R93). -/
def runningTwiddle (i : Nat) : α := (fun w => advance T w step)^[i] (startBlock T)

theorem runningTwiddle_succ (i : Nat) : runningTwiddle T step (i + 1) = advance T (runningTwiddle T step i) step :=
  Function.iterate_succ_apply' _ i _

/-- The sequence and the running twiddle after the butterflies of the first `i` offsets of a block. -/
def butterflies (seq : List α) (i : Nat) : List α × α :=
  (List.range i).foldl (butterfly T step half base) (seq, startBlock T)

theorem butterflies_succ (seq : List α) (i : Nat) :
    butterflies T step half base seq (i + 1) = butterfly T step half base (butterflies T step half base seq i) i := by
  rw [butterflies, List.range_succ, List.foldl_append, List.foldl_cons, List.foldl_nil, butterflies]

theorem block_eq_butterflies (seq : List α) :
    block T step half seq base = (butterflies T step half base seq half).1 := rfl

theorem butterfly_snd (sw : List α × α) (i : Nat) : (butterfly T step half base sw i).2 = advance T sw.2 step := by
  unfold butterfly
  split <;> rfl

theorem butterfly_length (sw : List α × α) (i : Nat) : (butterfly T step half base sw i).1.length = sw.1.length := by
  unfold butterfly
  split <;> simp

/-- A butterfly changes no element but its two (R100). -/
theorem getElem?_butterfly_other (sw : List α × α) {i p : Nat} (hu : p ≠ base + i) (hv : p ≠ base + i + half) :
    (butterfly T step half base sw i).1[p]? = sw.1[p]? := by
  unfold butterfly
  split
  · rw [List.getElem?_set_ne hv.symm, List.getElem?_set_ne hu.symm]
  · rfl

/-- A butterfly replaces `u` and `v` by `u + v·w` and `u − v·w` (R100). -/
theorem getElem?_butterfly {sw : List α × α} {i : Nat} {u v : α} (hhalf : 0 < half) (hu : sw.1[base + i]? = some u)
    (hv : sw.1[base + i + half]? = some v) :
    (butterfly T step half base sw i).1[base + i]? = some (T.add u (T.mul v sw.2)) ∧
    (butterfly T step half base sw i).1[base + i + half]? = some (T.sub u (T.mul v sw.2)) := by
  obtain ⟨hulen, -⟩ := List.getElem?_eq_some_iff.1 hu
  obtain ⟨hvlen, -⟩ := List.getElem?_eq_some_iff.1 hv
  have hbutterfly : (butterfly T step half base sw i).1 =
      (sw.1.set (base + i) (T.add u (T.mul v sw.2))).set (base + i + half) (T.sub u (T.mul v sw.2)) := by
    rw [butterfly, hu, hv]
    rfl
  rw [hbutterfly]
  refine ⟨?_, List.getElem?_set_self (by rwa [List.length_set])⟩
  rw [List.getElem?_set_ne (by omega), List.getElem?_set_self hulen]

theorem butterflies_snd (seq : List α) (i : Nat) :
    (butterflies T step half base seq i).2 = runningTwiddle T step i := by
  induction i with
  | zero => rfl
  | succ i ih => rw [butterflies_succ, butterfly_snd, ih, runningTwiddle_succ]

theorem getElem?_butterflies_other (seq : List α) {i p : Nat}
    (hp : ∀ j, j < i → p ≠ base + j ∧ p ≠ base + j + half) :
    (butterflies T step half base seq i).1[p]? = seq[p]? := by
  induction i with
  | zero => rfl
  | succ i ih =>
    obtain ⟨hu, hv⟩ := hp i (Nat.lt_succ_self i)
    rw [butterflies_succ, getElem?_butterfly_other T step half base _ hu hv, ih fun j hj => hp j (by omega)]

/-- The butterflies at the other offsets leave the two elements of the offset `i` alone. -/
theorem getElem?_butterflies {seq : List α} {i n : Nat} {u v : α} (hn : n ≤ half) (hi : i < n)
    (hu : seq[base + i]? = some u) (hv : seq[base + i + half]? = some v) :
    (butterflies T step half base seq n).1[base + i]? = some (T.add u (T.mul v (runningTwiddle T step i))) ∧
    (butterflies T step half base seq n).1[base + i + half]? =
      some (T.sub u (T.mul v (runningTwiddle T step i))) := by
  induction n with
  | zero => omega
  | succ n ih =>
    rw [butterflies_succ]
    rcases Nat.lt_succ_iff_lt_or_eq.1 hi with hlt | rfl
    · rw [getElem?_butterfly_other T step half base _ (by omega) (by omega),
        getElem?_butterfly_other T step half base _ (by omega) (by omega)]
      exact ih (by omega) hlt
    · rw [← butterflies_snd T step half base seq]
      refine getElem?_butterfly T step half base (by omega) ?_ ?_
      · rw [getElem?_butterflies_other T step half base seq fun j hj => by omega, hu]
      · rw [getElem?_butterflies_other T step half base seq fun j hj => by omega, hv]

theorem getElem?_block {seq : List α} {i : Nat} {u v : α} (hi : i < half) (hu : seq[base + i]? = some u)
    (hv : seq[base + i + half]? = some v) :
    (block T step half seq base)[base + i]? = some (T.add u (T.mul v (runningTwiddle T step i))) ∧
    (block T step half seq base)[base + i + half]? = some (T.sub u (T.mul v (runningTwiddle T step i))) :=
  getElem?_butterflies T step half base le_rfl hi hu hv

theorem getElem?_block_outside (seq : List α) {p : Nat} (hp : p < base ∨ base + half + half ≤ p) :
    (block T step half seq base)[p]? = seq[p]? :=
  getElem?_butterflies_other T step half base seq fun j hj => by omega

end

/-! ## The twiddles are powers -/

section

variable {α R : Type} [CommRing R] {T : FieldOps α} {ok : α → Prop} {f : α → R} (hT : T.RepresentsRing ok f)
  {root : α} (hroot : ok root)
include hT hroot

theorem mul_pow_pow (m n : Nat) : T.mul (pow T root m) (pow T root n) = pow T root (m + n) := by
  have hm := pow_ok hT hroot m
  have hn := pow_ok hT hroot n
  apply hT.injOn (hT.mul_ok _ _ hm hn) (pow_ok hT hroot _)
  rw [hT.map_mul _ _ hm hn, map_pow_represents hT hroot, map_pow_represents hT hroot, map_pow_represents hT hroot,
    pow_add]

theorem pow_mul_self (n : Nat) : pow T (T.mul root root) n = pow T root (2 * n) := by
  have hsquare := hT.mul_ok _ _ hroot hroot
  apply hT.injOn (pow_ok hT hsquare n) (pow_ok hT hroot _)
  rw [map_pow_represents hT hsquare, map_pow_represents hT hroot, hT.map_mul _ _ hroot hroot, ← pow_two, ← pow_mul]

/-- At the offset `i` of a block of length `len` the twiddle is `pow_T(root, i · (n div len))` (R94 (a)). -/
theorem runningTwiddle_eq_pow (n len i : Nat) :
    runningTwiddle T (stageStep T root n len) i = pow T root (i * (n / len)) := by
  induction i with
  | zero => rw [Nat.zero_mul, pow_exponent_zero]; rfl
  | succ i ih => rw [runningTwiddle_succ, ih, Nat.succ_mul, ← mul_pow_pow hT hroot]; rfl

theorem twiddlesArePowers : TwiddlesArePowers T root := by
  refine ⟨fun k j i _ => runningTwiddle_eq_pow hT hroot _ _ i, fun k j base i seq _ _ => ?_,
    fun k j base i seq u v _ hi hu hv => ?_, fun k j base p seq _ hp => ?_⟩
  · rw [← runningTwiddle_eq_pow hT hroot]
    exact butterflies_snd T _ _ _ seq i
  · rw [← runningTwiddle_eq_pow hT hroot]
    exact getElem?_block T _ _ _ hi hu hv
  · refine getElem?_block_outside T _ _ _ seq ?_
    rw [pow_succ] at hp
    omega

end

/-- Settles O52: the same in every element type whose operations are those of a commutative ring. -/
theorem runningTwiddleIsAPowerOfTheRoot : Obligations.RunningTwiddleIsAPowerOfTheRoot :=
  ⟨fun _ => twiddlesArePowers baseOps_representsRing trivial,
    fun _ _ hc hroot => twiddlesArePowers (extOps_representsRing hc) hroot⟩

end Sys2Proof.Machine
end

section
/-! PROOFS. Decimation in time (spec/47_ntt.md R98 to R102): after the bit reversal the stages below the last work on
the two halves apart, as the stages of a transform of half the length with the root squared, and the last stage is one
block. -/

namespace Sys2Proof.Machine

open Sys2Proof.Claims

/-! ## Blocks on a sequence of two parts -/

section

variable {α : Type} (T : FieldOps α) (step : α) (half : Nat) (ys : List α)

theorem butterfly_append_left {xs : List α} (w : α) {base i : Nat} (h : base + i + half < xs.length) :
    butterfly T step half base (xs ++ ys, w) i =
      ((butterfly T step half base (xs, w) i).1 ++ ys, (butterfly T step half base (xs, w) i).2) := by
  have hi : base + i < xs.length := by omega
  simp only [butterfly, List.getElem?_append_left hi, List.getElem?_append_left h, List.getElem?_eq_getElem hi,
    List.getElem?_eq_getElem h]
  rw [List.set_append_left _ _ hi, List.set_append_left _ _ (by rwa [List.length_set])]

theorem butterflies_length (base : Nat) (xs : List α) (i : Nat) :
    (butterflies T step half base xs i).1.length = xs.length := by
  induction i with
  | zero => rfl
  | succ i ih => rw [butterflies_succ, butterfly_length, ih]

theorem block_length (base : Nat) (xs : List α) : (block T step half xs base).length = xs.length :=
  butterflies_length T step half base xs half

theorem block_append_left {xs : List α} {base : Nat} (h : base + half + half ≤ xs.length) :
    block T step half (xs ++ ys) base = block T step half xs base ++ ys := by
  have hpart : ∀ i, i ≤ half → butterflies T step half base (xs ++ ys) i =
      ((butterflies T step half base xs i).1 ++ ys, (butterflies T step half base xs i).2) := by
    intro i hi
    induction i with
    | zero => rfl
    | succ i ih =>
      have hlen := butterflies_length T step half base xs i
      rw [butterflies_succ, butterflies_succ, ih (by omega), butterfly_append_left T step half ys _ (by omega)]
  rw [block_eq_butterflies, hpart half le_rfl, block_eq_butterflies]

theorem butterfly_append_right (xs : List α) (w : α) (base i : Nat) :
    butterfly T step half (xs.length + base) (xs ++ ys, w) i =
      (xs ++ (butterfly T step half base (ys, w) i).1, (butterfly T step half base (ys, w) i).2) := by
  have hu : xs.length + base + i = xs.length + (base + i) := Nat.add_assoc _ _ _
  have hv : xs.length + (base + i) + half = xs.length + (base + i + half) := Nat.add_assoc _ _ _
  simp only [butterfly, hu, hv, List.getElem?_append_right (Nat.le_add_right _ _), Nat.add_sub_cancel_left]
  cases ys[base + i]? with
  | none => rfl
  | some u =>
    cases ys[base + i + half]? with
    | none => rfl
    | some v => simp only [List.set_append_right _ _ (Nat.le_add_right _ _), Nat.add_sub_cancel_left]

theorem block_append_right (xs : List α) (base : Nat) :
    block T step half (xs ++ ys) (xs.length + base) = xs ++ block T step half ys base := by
  have hpart : ∀ i, butterflies T step half (xs.length + base) (xs ++ ys) i =
      (xs ++ (butterflies T step half base ys i).1, (butterflies T step half base ys i).2) := by
    intro i
    induction i with
    | zero => rfl
    | succ i ih => rw [butterflies_succ, butterflies_succ, ih, butterfly_append_right]
  rw [block_eq_butterflies, hpart half, block_eq_butterflies]

/-- The first `q` blocks of length `len`, left to right (R101). -/
def blocks (len q : Nat) (xs : List α) : List α :=
  (List.range q).foldl (fun seq b => block T step (len / 2) seq (b * len)) xs

theorem blocks_succ (len q : Nat) (xs : List α) :
    blocks T step len (q + 1) xs = block T step (len / 2) (blocks T step len q xs) (q * len) := by
  rw [blocks, List.range_succ, List.foldl_append, List.foldl_cons, List.foldl_nil, blocks]

theorem blocks_length (len q : Nat) (xs : List α) : (blocks T step len q xs).length = xs.length := by
  induction q with
  | zero => rfl
  | succ q ih => rw [blocks_succ, block_length, ih]

theorem blocks_append_left {len q : Nat} {xs : List α} (h : q * len ≤ xs.length) :
    blocks T step len q (xs ++ ys) = blocks T step len q xs ++ ys := by
  induction q with
  | zero => rfl
  | succ q ih =>
    rw [Nat.succ_mul] at h
    rw [blocks_succ, blocks_succ, ih (by omega), block_append_left]
    rw [blocks_length]
    omega

/-- Blocks that do not straddle the two parts work on each part apart. -/
theorem blocks_append {len q : Nat} {xs : List α} (h : xs.length = q * len) (r : Nat) :
    blocks T step len (q + r) (xs ++ ys) = blocks T step len q xs ++ blocks T step len r ys := by
  induction r with
  | zero => exact blocks_append_left T step ys h.ge
  | succ r ih =>
    have hbase : (q + r) * len = (blocks T step len q xs).length + r * len := by
      rw [blocks_length, h, Nat.add_mul]
    rw [← Nat.add_assoc, blocks_succ, ih, hbase, block_append_right, ← blocks_succ]

end

theorem stage_eq_blocks {α : Type} (T : FieldOps α) (root : α) (n len : Nat) (xs : List α) :
    stage T root n xs len = blocks T (stageStep T root n len) len (n / len) xs := rfl

/-- The first `k` stages of a transform of `n` elements (R101). -/
def stages {α : Type} (T : FieldOps α) (root : α) (n k : Nat) (xs : List α) : List α :=
  (List.range k).foldl (fun seq j => stage T root n seq (2 ^ (j + 1))) xs

theorem stages_succ {α : Type} (T : FieldOps α) (root : α) (n k : Nat) (xs : List α) :
    stages T root n (k + 1) xs = stage T root n (stages T root n k xs) (2 ^ (k + 1)) := by
  rw [stages, List.range_succ, List.foldl_append, List.foldl_cons, List.foldl_nil, stages]

theorem stages_length {α : Type} (T : FieldOps α) (root : α) (n k : Nat) (xs : List α) :
    (stages T root n k xs).length = xs.length := by
  induction k with
  | zero => rfl
  | succ k ih => rw [stages_succ, stage_eq_blocks, blocks_length, ih]

theorem transform_eq_stages {α : Type} (T : FieldOps α) (root : α) {m : Nat} {xs : List α} (h : xs.length = 2 ^ m) :
    transform T root xs = stages T root (2 ^ m) m (bitReverse xs) := by
  rw [transform, h, Nat.log2_two_pow, stages]

theorem transform_length {α : Type} (T : FieldOps α) (root : α) {m : Nat} {xs : List α} (h : xs.length = 2 ^ m) :
    (transform T root xs).length = 2 ^ m := by
  rw [transform_eq_stages T root h, stages_length, bitReverse_length, h]

/-! ## The bit reversal of the elements at even and at odd positions -/

theorem everySecond_length {α : Type} (T : FieldOps α) (n b : Nat) (xs : List α) :
    (everySecond T n b xs).length = n := by
  rw [everySecond, List.length_map, List.length_range]

theorem getElem?_everySecond {α : Type} (T : FieldOps α) {n b j : Nat} {xs : List α} (hj : j < n)
    (hlen : 2 * j + b < xs.length) : (everySecond T n b xs)[j]? = xs[2 * j + b]? := by
  rw [everySecond, List.getElem?_map, List.getElem?_range hj, List.getElem?_eq_getElem hlen, Option.map_some,
    List.getD_eq_getElem _ _ hlen]

theorem getElem?_bitReverse_half {α : Type} (T : FieldOps α) {m b i : Nat} {xs : List α}
    (hlen : xs.length = 2 ^ (m + 1)) (hb : b < 2) (hi : i < 2 ^ m) :
    (bitReverse xs)[b * 2 ^ m + i]? = (bitReverse (everySecond T (2 ^ m) b xs))[i]? := by
  have hrev := reverseBits_lt m i
  have hpow : 2 ^ (m + 1) = 2 ^ m + 2 ^ m := by rw [pow_succ, mul_two]
  have hindex : b * 2 ^ m + i < 2 ^ (m + 1) := by
    have := Nat.mul_le_mul_right (2 ^ m) (Nat.lt_succ_iff.1 hb)
    omega
  rw [getElem?_bitReverse hlen hindex, reverseBits_high hb hi, getElem?_bitReverse (everySecond_length T _ _ _) hi,
    getElem?_everySecond T hrev (by omega)]

theorem bitReverse_eq_append {α : Type} (T : FieldOps α) {m : Nat} {xs : List α} (hlen : xs.length = 2 ^ (m + 1)) :
    bitReverse xs = bitReverse (everySecond T (2 ^ m) 0 xs) ++ bitReverse (everySecond T (2 ^ m) 1 xs) := by
  have hpow : 2 ^ (m + 1) = 2 ^ m + 2 ^ m := by rw [pow_succ, mul_two]
  have hhalf : ∀ b, (bitReverse (everySecond T (2 ^ m) b xs)).length = 2 ^ m := fun b => by
    rw [bitReverse_length, everySecond_length]
  apply List.ext_getElem?
  intro i
  rcases Nat.lt_or_ge i (2 ^ m) with hi | hi
  · rw [List.getElem?_append_left (by rwa [hhalf]), ← getElem?_bitReverse_half T hlen Nat.two_pos hi, Nat.zero_mul,
      Nat.zero_add]
  · rw [List.getElem?_append_right (by rwa [hhalf]), hhalf]
    rcases Nat.lt_or_ge i (2 ^ (m + 1)) with hi' | hi'
    · rw [← getElem?_bitReverse_half T hlen Nat.one_lt_two (by omega), Nat.one_mul, Nat.add_sub_cancel' hi]
    · rw [List.getElem?_eq_none (by rwa [bitReverse_length, hlen]), List.getElem?_eq_none (by rw [hhalf]; omega)]

/-! ## The transform from those of the two halves -/

section

variable {α R : Type} [CommRing R] {T : FieldOps α} {ok : α → Prop} {f : α → R} (hT : T.RepresentsRing ok f)
  {root : α} (hroot : ok root)
include hT hroot

/-- A stage below the last has the same number of blocks in each half, and the step of a transform of half the length
with the root squared (R90). -/
theorem stage_append {m k : Nat} (hk : k < m) {xs : List α} (hlen : xs.length = 2 ^ m) (ys : List α) :
    stage T root (2 ^ (m + 1)) (xs ++ ys) (2 ^ (k + 1)) =
      stage T (T.mul root root) (2 ^ m) xs (2 ^ (k + 1)) ++ stage T (T.mul root root) (2 ^ m) ys (2 ^ (k + 1)) := by
  have hcount : 2 ^ m / 2 ^ (k + 1) = 2 ^ (m - (k + 1)) := Nat.pow_div hk Nat.two_pos
  have hcount' : 2 ^ (m + 1) / 2 ^ (k + 1) = 2 * 2 ^ (m - (k + 1)) := by
    rw [Nat.pow_div (by omega) Nat.two_pos, ← pow_succ', show m + 1 - (k + 1) = m - (k + 1) + 1 by omega]
  have hstep : stageStep T root (2 ^ (m + 1)) (2 ^ (k + 1)) = stageStep T (T.mul root root) (2 ^ m) (2 ^ (k + 1)) := by
    rw [stageStep, stageStep, hcount, hcount', pow_mul_self hT hroot]
  rw [stage_eq_blocks, stage_eq_blocks, stage_eq_blocks, hstep, hcount, hcount', Nat.two_mul]
  apply blocks_append
  rw [hlen, ← pow_add, Nat.sub_add_cancel hk]

theorem stages_append {m k : Nat} (hk : k ≤ m) {xs : List α} (hlen : xs.length = 2 ^ m) (ys : List α) :
    stages T root (2 ^ (m + 1)) k (xs ++ ys) =
      stages T (T.mul root root) (2 ^ m) k xs ++ stages T (T.mul root root) (2 ^ m) k ys := by
  induction k with
  | zero => rfl
  | succ k ih =>
    rw [stages_succ, stages_succ, stages_succ, ih (by omega), stage_append hT hroot (by omega)]
    rw [stages_length, hlen]

/-- The last stage is one block, over the transforms of the two halves. -/
theorem transform_eq_block {m : Nat} {xs : List α} (hlen : xs.length = 2 ^ (m + 1)) :
    transform T root xs =
      block T (stageStep T root (2 ^ (m + 1)) (2 ^ (m + 1))) (2 ^ m)
        (transform T (T.mul root root) (everySecond T (2 ^ m) 0 xs) ++
          transform T (T.mul root root) (everySecond T (2 ^ m) 1 xs)) 0 := by
  have hhalf : ∀ b, (everySecond T (2 ^ m) b xs).length = 2 ^ m := fun b => everySecond_length T _ _ _
  have hrev : (bitReverse (everySecond T (2 ^ m) 0 xs)).length = 2 ^ m := by rw [bitReverse_length, hhalf]
  have hcount : 2 ^ (m + 1) / 2 ^ (m + 1) = 1 := Nat.div_self (Nat.two_pow_pos _)
  have hblock : 2 ^ (m + 1) / 2 = 2 ^ m := by rw [pow_succ, Nat.mul_div_cancel _ Nat.two_pos]
  rw [transform_eq_stages T root hlen, stages_succ, bitReverse_eq_append T hlen,
    stages_append hT hroot le_rfl hrev, ← transform_eq_stages T _ (hhalf 0), ← transform_eq_stages T _ (hhalf 1),
    stage_eq_blocks, hcount, blocks_succ, hblock, Nat.zero_mul]
  rfl

theorem decimatesInTime {m : Nat} {xs : List α} (hlen : xs.length = 2 ^ (m + 1)) : DecimatesInTime T root m xs := by
  refine ⟨transform_length T root hlen, fun k hk => ?_⟩
  have heven := transform_length T (T.mul root root) (everySecond_length T (2 ^ m) 0 xs)
  have hodd := transform_length T (T.mul root root) (everySecond_length T (2 ^ m) 1 xs)
  rw [transform_eq_block hT hroot hlen]
  generalize transform T (T.mul root root) (everySecond T (2 ^ m) 0 xs) = evens at heven
  generalize transform T (T.mul root root) (everySecond T (2 ^ m) 1 xs) = odds at hodd
  have he : evens[k]? = some evens[k] := List.getElem?_eq_getElem (heven ▸ hk)
  have ho : odds[k]? = some odds[k] := List.getElem?_eq_getElem (hodd ▸ hk)
  have hu : (evens ++ odds)[0 + k]? = some evens[k] := by
    rw [Nat.zero_add, List.getElem?_append_left (heven ▸ hk), he]
  have hv : (evens ++ odds)[0 + k + 2 ^ m]? = some odds[k] := by
    rw [List.getElem?_append_right (by omega), heven, Nat.zero_add, Nat.add_sub_cancel, ho]
  have hblock := getElem?_block T (stageStep T root (2 ^ (m + 1)) (2 ^ (m + 1))) (2 ^ m) 0 hk hu hv
  rw [runningTwiddle_eq_pow hT hroot, Nat.div_self (Nat.two_pow_pos _), Nat.mul_one, Nat.zero_add] at hblock
  exact ⟨_, _, he, ho, hblock⟩

end

/-- Settles O59: the same in every element type whose operations are those of a commutative ring. -/
theorem transformDecimatesInTimeForEveryRoot : Obligations.TransformDecimatesInTimeForEveryRoot :=
  ⟨fun _ _ _ hlen => decimatesInTime baseOps_representsRing trivial hlen,
    fun _ _ _ _ hc hroot _ hlen => decimatesInTime (extOps_representsRing hc) hroot hlen⟩

end Sys2Proof.Machine
end

section
/-! PROOFS. Transforms carried from one element type to another (spec/47_ntt.md R105, R108): a map that respects
addition, subtraction and the multiplication by powers of the root takes one transform to the other. -/

namespace Sys2Proof.Machine

open Sys2Proof.Claims

/-- Two sequences of `2^(m+1)` elements that agree at `k` and at `k + 2^m` for `k` below `2^m` are the same. -/
theorem ext_halves {α : Type} {m : Nat} {xs ys : List α} (hx : xs.length = 2 ^ (m + 1)) (hy : ys.length = 2 ^ (m + 1))
    (h : ∀ k, k < 2 ^ m → xs[k]? = ys[k]? ∧ xs[k + 2 ^ m]? = ys[k + 2 ^ m]?) : xs = ys := by
  have hpow : 2 ^ (m + 1) = 2 ^ m + 2 ^ m := by rw [pow_succ, mul_two]
  apply List.ext_getElem?
  intro i
  rcases Nat.lt_or_ge i (2 ^ m) with hi | hi
  · exact (h i hi).1
  · rcases Nat.lt_or_ge i (2 ^ (m + 1)) with hi' | hi'
    · have hupper := (h (i - 2 ^ m) (by omega)).2
      rwa [Nat.sub_add_cancel hi] at hupper
    · rw [List.getElem?_eq_none (hx ▸ hi'), List.getElem?_eq_none (hy ▸ hi')]

theorem everySecond_sequenceOf {α : Type} (T : FieldOps α) {ok : α → Prop} {m b : Nat} {xs : List α} (hb : b < 2)
    (h : SequenceOf ok (2 ^ (m + 1)) xs) : SequenceOf ok (2 ^ m) (everySecond T (2 ^ m) b xs) := by
  refine ⟨everySecond_length T _ _ _, fun x hx => ?_⟩
  obtain ⟨j, hj, rfl⟩ := List.mem_map.1 hx
  have hindex : 2 * j + b < xs.length := by
    rw [h.1, pow_succ]
    have := List.mem_range.1 hj
    omega
  rw [List.getD_eq_getElem _ _ hindex]
  exact h.2 _ (List.getElem_mem hindex)

theorem map_everySecond {α β : Type} (T : FieldOps α) (T' : FieldOps β) (g : α → β) {m b : Nat} {xs : List α}
    (hb : b < 2) (hlen : xs.length = 2 ^ (m + 1)) :
    (everySecond T (2 ^ m) b xs).map g = everySecond T' (2 ^ m) b (xs.map g) := by
  rw [everySecond, everySecond, List.map_map]
  apply List.map_congr_left
  intro j hj
  have hindex : 2 * j + b < xs.length := by
    rw [hlen, pow_succ]
    have := List.mem_range.1 hj
    omega
  rw [Function.comp_apply, List.getD_eq_getElem _ _ hindex, List.getD_eq_getElem _ _ (by rwa [List.length_map]),
    List.getElem_map]

/-- `g` respects what a transform with the root `root` does to elements; there the root is `root'`. -/
structure FieldOps.Intertwines {α β : Type} (T : FieldOps α) (T' : FieldOps β) (ok : α → Prop) (g : α → β) (root : α)
    (root' : β) : Prop where
  map_add : ∀ u v, ok u → ok v → g (T.add u v) = T'.add (g u) (g v)
  map_sub : ∀ u v, ok u → ok v → g (T.sub u v) = T'.sub (g u) (g v)
  map_mul_pow : ∀ v k, ok v → g (T.mul v (pow T root k)) = T'.mul (g v) (pow T' root' k)

section

variable {α R β S : Type} [CommRing R] [CommRing S] {T : FieldOps α} {ok : α → Prop} {f : α → R}
  (hT : T.RepresentsRing ok f) {T' : FieldOps β} {ok' : β → Prop} {f' : β → S} (hT' : T'.RepresentsRing ok' f')
  {g : α → β}
include hT hT'

theorem FieldOps.Intertwines.square {root : α} {root' : β} (h : T.Intertwines T' ok g root root') (hroot : ok root)
    (hroot' : ok' root') : T.Intertwines T' ok g (T.mul root root) (T'.mul root' root') where
  map_add := h.map_add
  map_sub := h.map_sub
  map_mul_pow v k hv := by
    rw [pow_mul_self hT hroot, pow_mul_self hT' hroot']
    exact h.map_mul_pow v (2 * k) hv

theorem map_transform {m : Nat} {root : α} {root' : β} {xs : List α} (h : T.Intertwines T' ok g root root')
    (hroot : ok root) (hroot' : ok' root') (hxs : SequenceOf ok (2 ^ m) xs) :
    (transform T root xs).map g = transform T' root' (xs.map g) := by
  induction m generalizing root root' xs with
  | zero =>
    obtain ⟨x, rfl⟩ := List.length_eq_one_iff.1 hxs.1
    rfl
  | succ m ih =>
    have hlen : (xs.map g).length = 2 ^ (m + 1) := by rw [List.length_map, hxs.1]
    obtain ⟨hsource, hdecimate⟩ := decimatesInTime hT hroot hxs.1
    obtain ⟨htarget, hdecimate'⟩ := decimatesInTime hT' hroot' hlen
    have hpart : ∀ b, b < 2 → SequenceOf ok (2 ^ m) (transform T (T.mul root root) (everySecond T (2 ^ m) b xs)) ∧
        (transform T (T.mul root root) (everySecond T (2 ^ m) b xs)).map g =
          transform T' (T'.mul root' root') (everySecond T' (2 ^ m) b (xs.map g)) := by
      intro b hb
      have hhalf := everySecond_sequenceOf T hb hxs
      have hsquare := hT.mul_ok _ _ hroot hroot
      refine ⟨transform_sequenceOf hT hhalf hsquare, ?_⟩
      rw [ih (h.square hT hT' hroot hroot') hsquare (hT'.mul_ok _ _ hroot' hroot') hhalf,
        map_everySecond T T' g hb hxs.1]
    obtain ⟨⟨-, heok⟩, hemap⟩ := hpart 0 Nat.two_pos
    obtain ⟨⟨-, hook⟩, homap⟩ := hpart 1 Nat.one_lt_two
    apply ext_halves (by rw [List.length_map, hsource]) htarget
    intro k hk
    obtain ⟨e, o, he, ho, hlow, hhigh⟩ := hdecimate k hk
    obtain ⟨e', o', he', ho', hlow', hhigh'⟩ := hdecimate' k hk
    obtain rfl : g e = e' := by simpa [← hemap, he] using he'
    obtain rfl : g o = o' := by simpa [← homap, ho] using ho'
    have heok := heok e (List.mem_of_getElem? he)
    have hook := hook o (List.mem_of_getElem? ho)
    have hmul : ok (T.mul o (pow T root k)) := hT.mul_ok _ _ hook (pow_ok hT hroot k)
    rw [List.getElem?_map, List.getElem?_map, hlow, hhigh, hlow', hhigh', ← h.map_mul_pow o k hook,
      ← h.map_add _ _ heok hmul, ← h.map_sub _ _ heok hmul]
    exact ⟨rfl, rfl⟩

end

/-! ## The transform over a commutative ring -/

/-- The operations of a commutative ring as those of an element type. -/
def ringOps (R : Type) [CommRing R] : FieldOps R where
  add a b := a + b
  sub a b := a - b
  mul a b := a * b
  one := 1

section

variable {R : Type} [CommRing R]

theorem ringOps_representsRing : (ringOps R).RepresentsRing (fun _ => True) id where
  one_ok := trivial
  mul_ok _ _ _ _ := trivial
  map_one := rfl
  map_mul _ _ _ _ := rfl
  add_ok _ _ _ _ := trivial
  sub_ok _ _ _ _ := trivial
  map_add _ _ _ _ := rfl
  map_sub _ _ _ _ := rfl
  injOn _ _ _ _ h := h

@[simp] theorem pow_ringOps (r : R) (n : Nat) : pow (ringOps R) r n = r ^ n :=
  map_pow_represents ringOps_representsRing trivial n

/-- The transform of a sequence over the ring `R`. -/
abbrev ringTransform (r : R) (xs : List R) : List R := transform (ringOps R) r xs

section

variable {α : Type} {T : FieldOps α} {ok : α → Prop} {f : α → R} (hT : T.RepresentsRing ok f)
include hT

/-- The transform of elements stands for the transform over the ring (R102). -/
theorem map_transform_ring {m : Nat} {root : α} {xs : List α} (hroot : ok root) (hxs : SequenceOf ok (2 ^ m) xs) :
    (transform T root xs).map f = ringTransform (f root) (xs.map f) := by
  refine map_transform hT ringOps_representsRing ⟨hT.map_add, hT.map_sub, fun v k hv => ?_⟩ hroot trivial hxs
  rw [hT.map_mul _ _ hv (pow_ok hT hroot k), map_pow_represents hT hroot, pow_ringOps]
  rfl

/-- Sequences of elements that stand for the same are the same. -/
theorem eq_of_map_eq {n : Nat} {xs ys : List α} (hx : SequenceOf ok n xs) (hy : SequenceOf ok n ys)
    (h : xs.map f = ys.map f) : xs = ys := by
  apply List.ext_getElem (hx.1.trans hy.1.symm)
  intro i hi hi'
  apply hT.injOn (hx.2 _ (List.getElem_mem hi)) (hy.2 _ (List.getElem_mem hi'))
  have hsame := congrArg (fun l => l[i]?) h
  simpa [hi, hi'] using hsame

end

/-- Decimation in time over the ring. -/
theorem ringTransform_decimates {m : Nat} {r : R} {xs : List R} (hlen : xs.length = 2 ^ (m + 1)) {k : Nat}
    (hk : k < 2 ^ m) : ∃ e o,
      (ringTransform (r * r) (everySecond (ringOps R) (2 ^ m) 0 xs))[k]? = some e ∧
      (ringTransform (r * r) (everySecond (ringOps R) (2 ^ m) 1 xs))[k]? = some o ∧
      (ringTransform r xs)[k]? = some (e + o * r ^ k) ∧ (ringTransform r xs)[k + 2 ^ m]? = some (e - o * r ^ k) := by
  obtain ⟨e, o, he, ho, hlow, hhigh⟩ := (decimatesInTime ringOps_representsRing (root := r) trivial hlen).2 k hk
  rw [pow_ringOps] at hlow hhigh
  exact ⟨e, o, he, ho, hlow, hhigh⟩

/-! ## Evaluation at the powers of the root (R108) -/

/-- The value at `r^k` of the polynomial whose coefficients are the first `n` elements of `xs`. -/
def evaluation (r : R) (xs : List R) (n k : Nat) : R := ∑ j ∈ Finset.range n, xs.getD j 0 * r ^ (j * k)

theorem sum_range_two_mul (g : Nat → R) (n : Nat) :
    ∑ j ∈ Finset.range (2 * n), g j = ∑ j ∈ Finset.range n, g (2 * j) + ∑ j ∈ Finset.range n, g (2 * j + 1) := by
  induction n with
  | zero => simp
  | succ n ih =>
    rw [Nat.mul_succ, Finset.sum_range_succ, Finset.sum_range_succ, ih, Finset.sum_range_succ, Finset.sum_range_succ]
    ring

theorem getD_everySecond {m b j : Nat} {xs : List R} (hb : b < 2) (hlen : xs.length = 2 ^ (m + 1)) (hj : j < 2 ^ m) :
    (everySecond (ringOps R) (2 ^ m) b xs).getD j 0 = xs.getD (2 * j + b) 0 := by
  have hindex : 2 * j + b < xs.length := by rw [hlen, pow_succ]; omega
  rw [List.getD_eq_getElem?_getD, List.getD_eq_getElem?_getD, getElem?_everySecond _ hj hindex]

theorem evaluation_decimates {m : Nat} {xs : List R} (hlen : xs.length = 2 ^ (m + 1)) (r : R) (k : Nat) :
    evaluation r xs (2 ^ (m + 1)) k =
      evaluation (r * r) (everySecond (ringOps R) (2 ^ m) 0 xs) (2 ^ m) k +
        evaluation (r * r) (everySecond (ringOps R) (2 ^ m) 1 xs) (2 ^ m) k * r ^ k := by
  rw [evaluation, evaluation, evaluation, pow_succ', sum_range_two_mul, Finset.sum_mul]
  congr 1 <;> refine Finset.sum_congr rfl fun j hj => ?_
  · rw [getD_everySecond Nat.two_pos hlen (Finset.mem_range.1 hj), Nat.add_zero]
    ring
  · rw [getD_everySecond Nat.one_lt_two hlen (Finset.mem_range.1 hj)]
    ring

/-- With `r^(n/2) = −1` the powers of the root of the halves repeat in the second half. -/
theorem evaluation_square_add {r : R} {h : Nat} (hr : r ^ h = -1) (xs : List R) (n k : Nat) :
    evaluation (r * r) xs n (k + h) = evaluation (r * r) xs n k := by
  refine Finset.sum_congr rfl fun j _ => ?_
  have hperiod : (r * r) ^ (j * h) = 1 := by
    rw [← pow_two, ← pow_mul, show 2 * (j * h) = h * (2 * j) by ring, pow_mul, hr, pow_mul, neg_one_sq, one_pow]
  rw [Nat.mul_add, pow_add, hperiod, mul_one]

theorem ringTransform_evaluates {m : Nat} {r : R} {xs : List R} (hlen : xs.length = 2 ^ m)
    (hr : ∀ h, m = h + 1 → r ^ (2 ^ h) = -1) {k : Nat} (hk : k < 2 ^ m) :
    (ringTransform r xs)[k]? = some (evaluation r xs (2 ^ m) k) := by
  induction m generalizing r xs k with
  | zero =>
    obtain ⟨x, rfl⟩ := List.length_eq_one_iff.1 hlen
    rw [Nat.lt_one_iff.1 hk]
    simp [evaluation, transform_singleton]
  | succ m ih =>
    have hr := hr m rfl
    have hsquare : ∀ h, m = h + 1 → (r * r) ^ (2 ^ h) = -1 := by
      rintro h rfl
      rw [← pow_two, ← pow_mul, ← pow_succ', hr]
    have hhalf : ∀ b i, i < 2 ^ m → (ringTransform (r * r) (everySecond (ringOps R) (2 ^ m) b xs))[i]? =
        some (evaluation (r * r) (everySecond (ringOps R) (2 ^ m) b xs) (2 ^ m) i) := fun b i hi =>
      ih (everySecond_length _ _ _ _) hsquare hi
    have hpow : 2 ^ (m + 1) = 2 ^ m + 2 ^ m := by rw [pow_succ, mul_two]
    rcases Nat.lt_or_ge k (2 ^ m) with hlow | hhigh
    · obtain ⟨e, o, he, ho, hk, -⟩ := ringTransform_decimates (r := r) hlen hlow
      obtain rfl := Option.some.inj ((hhalf 0 k hlow).symm.trans he)
      obtain rfl := Option.some.inj ((hhalf 1 k hlow).symm.trans ho)
      rw [hk, evaluation_decimates hlen]
    · obtain ⟨i, rfl⟩ : ∃ i, k = i + 2 ^ m := ⟨k - 2 ^ m, by omega⟩
      have hi : i < 2 ^ m := by omega
      obtain ⟨e, o, he, ho, -, hk⟩ := ringTransform_decimates (r := r) hlen hi
      obtain rfl := Option.some.inj ((hhalf 0 i hi).symm.trans he)
      obtain rfl := Option.some.inj ((hhalf 1 i hi).symm.trans ho)
      rw [hk, evaluation_decimates hlen, evaluation_square_add hr, evaluation_square_add hr, pow_add, hr, mul_neg_one,
        mul_neg, ← sub_eq_add_neg]

/-! ## Linearity (R109) -/

theorem ringTransform_add {m : Nat} (r : R) {xs ys : List R} (hx : xs.length = 2 ^ m) (hy : ys.length = 2 ^ m) :
    List.zipWith (· + ·) (ringTransform r xs) (ringTransform r ys) = ringTransform r (List.zipWith (· + ·) xs ys) := by
  have hpairs : SequenceOf (fun _ : R × R => True) (2 ^ m) (List.zip xs ys) :=
    ⟨by rw [List.length_zip, hx, hy, min_self], fun _ _ => trivial⟩
  have hproject : ∀ g : R × R → R, (∀ p q, g (p + q) = g p + g q) → (∀ p q, g (p - q) = g p - g q) →
      (∀ p k, g (p * (r, r) ^ k) = g p * r ^ k) →
      (ringTransform (r, r) (List.zip xs ys)).map g = ringTransform r ((List.zip xs ys).map g) := by
    intro g hadd hsub hmul
    refine map_transform ringOps_representsRing ringOps_representsRing
      ⟨fun p q _ _ => hadd p q, fun p q _ _ => hsub p q, fun p k _ => ?_⟩ trivial trivial hpairs
    rw [pow_ringOps, pow_ringOps]
    exact hmul p k
  have hfst := hproject Prod.fst (fun _ _ => rfl) (fun _ _ => rfl) fun p k => by simp
  have hsnd := hproject Prod.snd (fun _ _ => rfl) (fun _ _ => rfl) fun p k => by simp
  have hsum := hproject (fun p => p.1 + p.2) (fun p q => by simp; ring) (fun p q => by simp; ring)
    fun p k => by simp [add_mul]
  rw [List.map_fst_zip (hx.trans hy.symm).le] at hfst
  rw [List.map_snd_zip (hy.trans hx.symm).le] at hsnd
  rw [← hfst, ← hsnd, List.zipWith_map, List.zipWith_self, hsum, List.zip, List.map_zipWith]

/-! ## The constant sequence (R109) -/

theorem everySecond_replicate {m b : Nat} (hb : b < 2) (x : R) :
    everySecond (ringOps R) (2 ^ m) b (List.replicate (2 ^ (m + 1)) x) = List.replicate (2 ^ m) x := by
  rw [List.eq_replicate_iff]
  exact everySecond_sequenceOf (ok := (· = x)) _ hb ⟨List.length_replicate, fun _ => List.eq_of_mem_replicate⟩

/-- For every root the transform of the constant sequence 1 is the length, and zeros. -/
theorem ringTransform_ones {m : Nat} (r : R) {k : Nat} (hk : k < 2 ^ m) :
    (ringTransform r (List.replicate (2 ^ m) 1))[k]? = some (if k = 0 then 2 ^ m else 0) := by
  induction m generalizing r k with
  | zero =>
    rw [Nat.lt_one_iff.1 hk]
    simp [transform_singleton]
  | succ m ih =>
    have hdecimates : ∀ i, i < 2 ^ m → (ringTransform r (List.replicate (2 ^ (m + 1)) (1 : R)))[i]? =
        some (if i = 0 then 2 ^ (m + 1) else 0) ∧
        (ringTransform r (List.replicate (2 ^ (m + 1)) (1 : R)))[i + 2 ^ m]? = some 0 := by
      intro i hi
      obtain ⟨e, o, he, ho, hlow, hhigh⟩ := ringTransform_decimates (r := r)
        (List.length_replicate (n := 2 ^ (m + 1)) (a := (1 : R))) hi
      rw [everySecond_replicate Nat.two_pos] at he
      rw [everySecond_replicate Nat.one_lt_two] at ho
      obtain rfl := Option.some.inj ((ih (r * r) hi).symm.trans he)
      obtain rfl := Option.some.inj ((ih (r * r) hi).symm.trans ho)
      rw [hlow, hhigh]
      by_cases hzero : i = 0
      · simp [hzero, pow_succ, mul_two]
      · simp [hzero]
    rcases Nat.lt_or_ge k (2 ^ m) with hlow | hhigh
    · exact (hdecimates k hlow).1
    · have hupper := (hdecimates (k - 2 ^ m) (by rw [pow_succ] at hk; omega)).2
      have hne : k ≠ 0 := ((Nat.two_pow_pos m).trans_le hhigh).ne'
      rw [Nat.sub_add_cancel hhigh] at hupper
      rw [hupper, if_neg hne]

/-! ## The round trip (R109) -/

/-- The powers of a root with `r^(n/2) = −1` sum to 0, except those of 1: the transform of the constant sequence,
evaluated. -/
theorem sum_pow_mul {m : Nat} {r : R} (hr : r ^ (2 ^ m) = -1) {d : Nat} (hd : d < 2 ^ (m + 1)) :
    ∑ k ∈ Finset.range (2 ^ (m + 1)), r ^ (k * d) = if d = 0 then 2 ^ (m + 1) else 0 := by
  have heval := ringTransform_evaluates (r := r) (xs := List.replicate (2 ^ (m + 1)) 1) List.length_replicate
    (fun h hh => by rwa [← Nat.succ.inj hh]) hd
  rw [ringTransform_ones r hd] at heval
  rw [Option.some.inj heval]
  refine Finset.sum_congr rfl fun k hk => ?_
  rw [List.getD_replicate _ (Finset.mem_range.1 hk), one_mul]

theorem orthogonality {m : Nat} {r s : R} (hr : r ^ (2 ^ m) = -1) (hs : s ^ (2 ^ m) = -1) (hrs : r * s = 1) {j l : Nat}
    (hj : j < 2 ^ (m + 1)) (hl : l < 2 ^ (m + 1)) :
    ∑ k ∈ Finset.range (2 ^ (m + 1)), r ^ (j * k) * s ^ (k * l) = if j = l then 2 ^ (m + 1) else 0 := by
  rcases Nat.le_total l j with h | h
  · obtain ⟨d, rfl⟩ := Nat.exists_eq_add_of_le h
    have hterm : ∀ k, r ^ ((l + d) * k) * s ^ (k * l) = r ^ (k * d) := fun k => by
      rw [show (l + d) * k = k * l + k * d by ring, pow_add, mul_right_comm, ← mul_pow, hrs, one_pow, one_mul]
    rw [Finset.sum_congr rfl fun k _ => hterm k, sum_pow_mul hr (by omega)]
    exact if_congr (by omega) rfl rfl
  · obtain ⟨d, rfl⟩ := Nat.exists_eq_add_of_le h
    have hterm : ∀ k, r ^ (j * k) * s ^ (k * (j + d)) = s ^ (k * d) := fun k => by
      rw [Nat.mul_comm j k, Nat.mul_add, pow_add, ← mul_assoc, ← mul_pow, hrs, one_pow, one_mul]
    rw [Finset.sum_congr rfl fun k _ => hterm k, sum_pow_mul hs (by omega)]
    exact if_congr (by omega) rfl rfl

theorem inverse_pow_half {m : Nat} {r s : R} (hr : r ^ (2 ^ m) = -1) (hrs : r * s = 1) : s ^ (2 ^ m) = -1 := by
  have hproduct : r ^ (2 ^ m) * s ^ (2 ^ m) = 1 := by rw [← mul_pow, hrs, one_pow]
  rw [hr, neg_one_mul] at hproduct
  rw [← hproduct, neg_neg]

theorem ringTransform_inverse {m : Nat} {r s : R} {xs : List R} (hlen : xs.length = 2 ^ (m + 1))
    (hr : r ^ (2 ^ m) = -1) (hrs : r * s = 1) :
    ringTransform s (ringTransform r xs) = xs.map fun x => 2 ^ (m + 1) * x := by
  have hs := inverse_pow_half hr hrs
  have hroot {q : R} (hq : q ^ (2 ^ m) = -1) : ∀ h, m + 1 = h + 1 → q ^ (2 ^ h) = -1 := fun h hh => by
    rwa [← Nat.succ.inj hh]
  have houter : (ringTransform r xs).length = 2 ^ (m + 1) := transform_length _ _ hlen
  apply List.ext_getElem?
  intro l
  rcases Nat.lt_or_ge l (2 ^ (m + 1)) with hl | hl
  · rw [ringTransform_evaluates houter (hroot hs) hl, List.getElem?_map, List.getElem?_eq_getElem (hlen ▸ hl),
      Option.map_some, Option.some.injEq]
    calc evaluation s (ringTransform r xs) (2 ^ (m + 1)) l
        = ∑ k ∈ Finset.range (2 ^ (m + 1)), ∑ j ∈ Finset.range (2 ^ (m + 1)),
            xs.getD j 0 * (r ^ (j * k) * s ^ (k * l)) := by
          refine Finset.sum_congr rfl fun k hk => ?_
          rw [List.getD_eq_getElem?_getD, ringTransform_evaluates hlen (hroot hr) (Finset.mem_range.1 hk),
            Option.getD_some, evaluation, Finset.sum_mul]
          exact Finset.sum_congr rfl fun j _ => mul_assoc _ _ _
      _ = ∑ j ∈ Finset.range (2 ^ (m + 1)), xs.getD j 0 * if j = l then 2 ^ (m + 1) else 0 := by
          rw [Finset.sum_comm]
          refine Finset.sum_congr rfl fun j hj => ?_
          rw [← Finset.mul_sum, orthogonality hr hs hrs (Finset.mem_range.1 hj) hl]
      _ = 2 ^ (m + 1) * xs[l] := by
          simp only [mul_ite, mul_zero]
          rw [Finset.sum_ite_eq' , if_pos (Finset.mem_range.2 hl), List.getD_eq_getElem _ _ (hlen ▸ hl), mul_comm]
  · rw [List.getElem?_eq_none (by rw [transform_length _ _ houter]; exact hl),
      List.getElem?_eq_none (by rw [List.length_map, hlen]; exact hl)]

end

end Sys2Proof.Machine
end

section
/-! PROOFS. The properties of the transform of residues and of extension elements (spec/47_ntt.md R105, R108, R109),
each from the same property over the ring the elements stand for. -/

namespace Sys2Proof.Machine

open Sys2Proof.Claims

/-! ## In every element type whose operations are those of a commutative ring -/

theorem ringTransform_ones_eq {R : Type} [CommRing R] (m : Nat) (r : R) :
    ringTransform r (List.replicate (2 ^ m) 1) = 2 ^ m :: List.replicate (2 ^ m - 1) 0 := by
  have hpos := Nat.two_pow_pos m
  apply List.ext_getElem?
  intro k
  rcases Nat.lt_or_ge k (2 ^ m) with hk | hk
  · rw [ringTransform_ones r hk]
    cases k with
    | zero => simp
    | succ k =>
      rw [List.getElem?_cons_succ, List.getElem?_replicate_of_lt (by omega), if_neg (Nat.succ_ne_zero k)]
  · rw [List.getElem?_eq_none (by rw [transform_length _ _ List.length_replicate]; exact hk),
      List.getElem?_eq_none (by rw [List.length_cons, List.length_replicate]; omega)]

section

variable {α R : Type} [CommRing R] {T : FieldOps α} {ok : α → Prop} {f : α → R} (hT : T.RepresentsRing ok f)
include hT

theorem zipWith_add_sequenceOf {n : Nat} {xs ys : List α} (hx : SequenceOf ok n xs) (hy : SequenceOf ok n ys) :
    SequenceOf ok n (List.zipWith T.add xs ys) ∧
    (List.zipWith T.add xs ys).map f = List.zipWith (· + ·) (xs.map f) (ys.map f) := by
  refine ⟨⟨by rw [List.length_zipWith, hx.1, hy.1, min_self], fun z hz => ?_⟩,
    List.ext_getElem (by simp) fun i hi _ => ?_⟩
  · obtain ⟨i, hi, rfl⟩ := List.getElem_of_mem hz
    rw [List.getElem_zipWith]
    exact hT.add_ok _ _ (hx.2 _ (List.getElem_mem _)) (hy.2 _ (List.getElem_mem _))
  · rw [List.getElem_map, List.getElem_zipWith, List.getElem_zipWith, List.getElem_map, List.getElem_map]
    exact hT.map_add _ _ (hx.2 _ (List.getElem_mem _)) (hy.2 _ (List.getElem_mem _))

variable {m : Nat} {root : α} (hroot : ok root)
include hroot

/-- Each output stands for the evaluation at a power of the root (R108). -/
theorem transform_evaluates {xs : List α} (hxs : SequenceOf ok (2 ^ (m + 1)) xs) (hr : f root ^ (2 ^ m) = -1) {k : Nat}
    (hk : k < 2 ^ (m + 1)) :
    ((transform T root xs).map f).getD k 0 = evaluation (f root) (xs.map f) (2 ^ (m + 1)) k := by
  have hlen : (xs.map f).length = 2 ^ (m + 1) := by rw [List.length_map, hxs.1]
  rw [map_transform_ring hT hroot hxs, List.getD_eq_getElem?_getD,
    ringTransform_evaluates hlen (fun h hh => by rwa [← Nat.succ.inj hh]) hk, Option.getD_some]

theorem transform_add {xs ys : List α} (hx : SequenceOf ok (2 ^ m) xs) (hy : SequenceOf ok (2 ^ m) ys) :
    List.zipWith T.add (transform T root xs) (transform T root ys) = transform T root (List.zipWith T.add xs ys) := by
  obtain ⟨hsum, hsummap⟩ := zipWith_add_sequenceOf hT hx hy
  obtain ⟨hout, houtmap⟩ := zipWith_add_sequenceOf hT (transform_sequenceOf hT hx hroot)
    (transform_sequenceOf hT hy hroot)
  apply eq_of_map_eq hT hout (transform_sequenceOf hT hsum hroot)
  rw [houtmap, map_transform_ring hT hroot hx, map_transform_ring hT hroot hy, map_transform_ring hT hroot hsum,
    hsummap, ringTransform_add _ (by rw [List.length_map, hx.1]) (by rw [List.length_map, hy.1])]

theorem transform_ones {length zero : α} (hlength : ok length) (hzero : ok zero) (flength : f length = 2 ^ m)
    (fzero : f zero = 0) :
    transform T root (List.replicate (2 ^ m) T.one) = length :: List.replicate (2 ^ m - 1) zero := by
  have hpos := Nat.two_pow_pos m
  have hones : SequenceOf ok (2 ^ m) (List.replicate (2 ^ m) T.one) :=
    ⟨List.length_replicate, fun x hx => List.eq_of_mem_replicate hx ▸ hT.one_ok⟩
  have hresult : SequenceOf ok (2 ^ m) (length :: List.replicate (2 ^ m - 1) zero) := by
    refine ⟨by rw [List.length_cons, List.length_replicate]; omega, List.forall_mem_cons.2 ⟨hlength, fun x hx => ?_⟩⟩
    exact List.eq_of_mem_replicate hx ▸ hzero
  apply eq_of_map_eq hT (transform_sequenceOf hT hones hroot) hresult
  rw [map_transform_ring hT hroot hones, List.map_replicate, hT.map_one, ringTransform_ones_eq, List.map_cons,
    List.map_replicate, flength, fzero]

theorem transform_inverse {inverse scale : α} {xs : List α} (hinverse : ok inverse) (hscale : ok scale)
    (hxs : SequenceOf ok (2 ^ (m + 1)) xs) (hr : f root ^ (2 ^ m) = -1) (hunit : f root * f inverse = 1)
    (hlength : 2 ^ (m + 1) * f scale = 1) :
    (transform T inverse (transform T root xs)).map (T.mul scale) = xs := by
  have hmid := transform_sequenceOf hT hxs hroot
  have hout := transform_sequenceOf hT hmid hinverse
  have hscaled : SequenceOf ok (2 ^ (m + 1)) ((transform T inverse (transform T root xs)).map (T.mul scale)) :=
    ⟨by rw [List.length_map, hout.1], List.forall_mem_map.2 fun y hy => hT.mul_ok _ _ hscale (hout.2 y hy)⟩
  apply eq_of_map_eq hT hscaled hxs
  have hmul : ∀ y ∈ transform T inverse (transform T root xs), (f ∘ T.mul scale) y = f scale * f y :=
    fun y hy => hT.map_mul _ _ hscale (hout.2 y hy)
  have hround : (transform T inverse (transform T root xs)).map f = (xs.map f).map fun x => 2 ^ (m + 1) * x := by
    rw [map_transform_ring hT hinverse hmid, map_transform_ring hT hroot hxs,
      ringTransform_inverse (by rw [List.length_map, hxs.1]) hr hunit]
  calc ((transform T inverse (transform T root xs)).map (T.mul scale)).map f
      = ((transform T inverse (transform T root xs)).map f).map (f scale * ·) := by
        rw [List.map_map, List.map_congr_left hmul, List.map_map]
        rfl
    _ = xs.map f := by
        rw [hround, List.map_map, List.map_map]
        refine List.map_congr_left fun x _ => ?_
        show f scale * (2 ^ (m + 1) * f x) = f x
        rw [← mul_assoc, mul_comm (f scale), hlength, one_mul]

end

/-! ## The base field -/

theorem sequenceOf_residues {n : Nat} {xs : List Residue} (h : xs.length = n) : SequenceOf (fun _ => True) n xs :=
  ⟨h, fun _ _ => trivial⟩

theorem toField_coeff (xs : List Residue) (k : Nat) :
    Residue.toField (coeff xs k) = (xs.map Residue.toField).getD k 0 := by
  rw [coeff, ← List.getD_map (f := Residue.toField), toField_zero]

theorem toField_reduce_two_pow (m : Nat) : Residue.toField (reduce (2 ^ m)) = 2 ^ m := by
  rw [toField_reduce]
  push_cast
  rfl

theorem toField_mul_of_binv {a q : Residue} (h : binv a = .ok q) : Residue.toField a * Residue.toField q = 1 := by
  have hne : a ≠ Residue.zero := by
    rintro rfl
    rw [binv_zero] at h
    cases h
  rw [binv_of_ne_zero hne] at h
  rw [← Except.ok.inj h, ← toField_bmul, bmul_bpow_P_sub_two hne, toField_one]

/-- Settles O55: the evaluation of `transform_evaluates`, in the field of integers modulo `P`. -/
theorem baseTransformEvaluatesAtTheRootPowers : Obligations.BaseTransformEvaluatesAtTheRootPowers := by
  intro m root xs hlen hr
  refine ⟨transform_length _ _ hlen, fun k hk => ?_⟩
  rw [toField_coeff, transform_evaluates baseOps_representsRing trivial (sequenceOf_residues hlen) hr hk, evaluation]
  simp only [toField_coeff]

/-- Settles O58: the three laws of R109, in the field of integers modulo `P`. -/
theorem transformIsLinearAndInvertible : Obligations.TransformIsLinearAndInvertible := by
  have hT := baseOps_representsRing
  refine ⟨fun m root xs ys hx hy => ?_, fun m root _ => ?_, fun m root inverse scale xs hlen hr hinv hscale => ?_⟩
  · exact transform_add hT trivial (sequenceOf_residues hx) (sequenceOf_residues hy)
  · exact transform_ones hT trivial trivial trivial (toField_reduce_two_pow _) toField_zero
  · refine transform_inverse hT trivial trivial trivial (sequenceOf_residues hlen) hr (toField_mul_of_binv hinv) ?_
    rw [← toField_reduce_two_pow]
    exact toField_mul_of_binv hscale

/-! ## The extension field -/

theorem toExtension_pow_of_modByMonic {c : Config} {a : List Residue} {n : Nat}
    (h : (polyOf a ^ n) %ₘ modulus c = -1) : toExtension c a ^ n = -1 := by
  have hdvd : modulus c ∣ polyOf a ^ n - -1 := by
    rw [← h]
    exact ⟨polyOf a ^ n /ₘ modulus c, by linear_combination -Polynomial.modByMonic_add_div (polyOf a ^ n) (modulus c)⟩
  rw [toExtension, ← map_pow, AdjoinRoot.mk_eq_mk.2 hdvd, map_neg, map_one]

theorem toExtension_nil (c : Config) : toExtension c [] = 0 := map_zero _

theorem toExtension_getD (c : Config) (xs : List (List Residue)) (k : Nat) :
    toExtension c (xs.getD k []) = (xs.map (toExtension c)).getD k 0 := by
  rw [← List.getD_map (f := toExtension c), toExtension_nil]

theorem getD_length {c : Config} {n k : Nat} {xs : List (List Residue)}
    (h : SequenceOf (fun x => x.length = c.degree) n xs) (hk : k < n) : (xs.getD k []).length = c.degree := by
  rw [List.getD_eq_getElem _ _ (h.1.symm ▸ hk)]
  exact h.2 _ (List.getElem_mem _)

theorem toExtension_lift_reduce_two_pow (c : Config) (m : Nat) : toExtension c (lift c (reduce (2 ^ m))) = 2 ^ m := by
  rw [toExtension_lift, toField_reduce_two_pow, map_pow, map_ofNat]

theorem einv_ok {c : Config} (hc : c.Admissible) {a q : List Residue} (ha : a.length = c.degree)
    (h : einv c a = .ok q) : q.length = c.degree ∧ toExtension c a * toExtension c q = 1 := by
  have hne : a ≠ extZero c := by
    rintro rfl
    rw [einv_extZero] at h
    cases h
  rw [einv_of_ne_zero ha hne] at h
  have hq := epow_length hc ha (P ^ c.degree - 2)
  rw [← Except.ok.inj h, ← toExtension_emul hc ha hq, emul_epow_card_sub_two hc ha hne, toExtension_extOne hc]
  exact ⟨hq, rfl⟩

/-- Settles O56: the evaluation of `transform_evaluates`, among the polynomials modulo `m(x)`. -/
theorem extensionTransformEvaluatesAtTheRootPowers : Obligations.ExtensionTransformEvaluatesAtTheRootPowers := by
  intro c m root xs hc hroot hxs hlen hr
  have hT := extOps_representsRing hc
  refine ⟨transform_length _ _ hlen, fun k hk => ?_⟩
  apply polyOf_eq_modByMonic (getD_length (transform_sequenceOf hT ⟨hlen, hxs⟩ hroot) hk)
  rw [toExtension_getD, transform_evaluates hT hroot ⟨hlen, hxs⟩ (toExtension_pow_of_modByMonic hr) hk, evaluation,
    map_sum]
  refine Finset.sum_congr rfl fun j _ => ?_
  rw [← toExtension_getD, map_mul, map_pow, toExtension, toExtension]

/-- Settles O60: the three laws of R109, among the polynomials modulo `m(x)`. -/
theorem extensionTransformIsLinearAndInvertible : Obligations.ExtensionTransformIsLinearAndInvertible := by
  refine ⟨fun c m root xs ys hc hroot hxs hys hx hy => ?_, fun c m root hc hroot _ => ?_,
    fun c m root inverse scale xs hc hroot hxs hlen hr hinv hscale => ?_⟩
  · exact transform_add (extOps_representsRing hc) hroot ⟨hx, hxs⟩ ⟨hy, hys⟩
  · exact transform_ones (extOps_representsRing hc) hroot (lift_length c hc.degree_pos _) (extZero_length c)
      (toExtension_lift_reduce_two_pow c _) (toExtension_extZero c)
  · obtain ⟨hinvlen, hunit⟩ := einv_ok hc hroot hinv
    obtain ⟨hscalelen, hlength⟩ := einv_ok hc (lift_length c hc.degree_pos _) hscale
    rw [toExtension_lift_reduce_two_pow] at hlength
    exact transform_inverse (extOps_representsRing hc) hroot hinvlen hscalelen ⟨hlen, hxs⟩
      (toExtension_pow_of_modByMonic hr) hunit hlength

/-! ## A lifted root (R105) -/

theorem coeff_zipWith {g : Residue → Residue → Residue} {u v : List Residue} {i : Nat} (hu : i < u.length)
    (hv : i < v.length) : coeff (List.zipWith g u v) i = g (coeff u i) (coeff v i) := by
  simp [coeff, hu, hv]

theorem pow_lift {c : Config} (hc : c.Admissible) (r : Residue) (k : Nat) :
    pow (extOps c) (lift c r) k = lift c (pow baseOps r k) := by
  have hlift := lift_length c hc.degree_pos
  apply toExtension_injective (epow_length hc (hlift r) k) (hlift _)
  rw [toExtension_epow hc (hlift r), toExtension_lift, toExtension_lift, toField_pow, map_pow]

/-- A lifted factor is a constant, so the product of polynomials needs no reduction. -/
theorem coeff_emul_lift {c : Config} (hc : c.Admissible) {v : List Residue} (hv : v.length = c.degree) (r : Residue)
    (i : Nat) : coeff (emul c v (lift c r)) i = bmul (coeff v i) r := by
  have := P_fact
  have hdegree : (polyOf v * Polynomial.C (Residue.toField r)).degree < (modulus c).degree := by
    rw [modulus_degree, ← hv]
    refine (Polynomial.degree_mul_le_of_le le_rfl Polynomial.degree_C_le).trans_lt ?_
    rw [add_zero]
    exact degree_polyOf_lt v
  apply Residue.toField_injective
  rw [toField_bmul, ← coeff_polyOf, ← coeff_polyOf, (emul_spec c hc.degree_pos hv (lift_length c hc.degree_pos r)).2,
    polyOf_lift, (Polynomial.modByMonic_eq_self_iff (modulus_monic c)).2 hdegree, Polynomial.coeff_mul_C]

/-- Settles O57: taking the coefficient `i` respects addition, subtraction and the multiplication by the powers of a
lifted root. -/
theorem liftedTransformActsOnEachCoefficient : Obligations.LiftedTransformActsOnEachCoefficient := by
  intro c m i root xs hc hxs hlen hi
  refine map_transform (extOps_representsRing hc) baseOps_representsRing ⟨fun u v hu hv => ?_, fun u v hu hv => ?_,
    fun v k hv => ?_⟩ (lift_length c hc.degree_pos root) trivial ⟨hlen, hxs⟩
  · exact coeff_zipWith (hu.symm ▸ hi) (hv.symm ▸ hi)
  · exact coeff_zipWith (hu.symm ▸ hi) (hv.symm ▸ hi)
  · rw [pow_lift hc]
    exact coeff_emul_lift hc hv _ i

end Sys2Proof.Machine
end
